-- ==== Sys2Proof/Word.lean ====
section
/-! DEFINITION. The word types of the block and the region value (spec: 00_scope.md R9 to R11, 10_state.md R28). -/

namespace Sys2Proof

/-- One byte lane, or a taxonomy byte (R10, R170). -/
abbrev Byte := BitVec 8

/-- A 16-bit word of configuration space (R42). -/
abbrev Half := BitVec 16

/-- One 32-bit configuration-space register (R9 `REG_W`, R21). -/
abbrev Reg := BitVec 32

/-- A 64-bit port: offset, addr, len, err_addr, err_len (R61, R62). -/
abbrev Wide := BitVec 64

/-- R28: a BarRegion, a closed union of three variants, each at its native width. -/
inductive Region where
  | io       (addr len : Reg)
  | memory32 (addr len : Reg)
  | memory64 (addr len : Wide)
deriving DecidableEq, Repr

/-- R28: a region on a port, the triple `(kind, addr, len)`. -/
structure RegionPort where
  kind : BitVec 2
  addr : Wide
  len  : Wide
deriving DecidableEq, Repr

end Sys2Proof
end

