-- ==== Sys2Proof/Config.lean ====
section
/-! DEFINITION. What an instance or an implementation fixes (spec: 00_scope.md R9, 93_implementation_defined.md
I1 to I9), the values its choices range over, and the free values: constants with no body, of which nothing can be
proved but what their type says. -/

namespace Sys2Proof

/-- R9 `CFG_REGS`: 64 registers (256 bytes) or 1024 registers (4096 bytes). -/
inductive StoreSize where
  | regs64
  | regs1024
deriving DecidableEq, Repr

/-- R9 `STORE`: the plain store of R22, or the device's own behaviour (R21, R256), which says whether a read can have
side effects too (R46; 93_implementation_defined.md I2). -/
inductive StoreKind where
  | plain
  | device (readEffects : Bool)
deriving DecidableEq, Repr

/-- R9 `HDR_KIND`: header type 0x00 or 0x01. -/
inductive HdrKind where
  | device
  | bridge
deriving DecidableEq, Repr

/-- R110 `WORD_CHECK_ORDER`. -/
inductive WordCheckOrder where
  | alignFirst
  | readFirst
deriving DecidableEq, Repr

/-- R9 `BAR_SLOT_IMPL`: the reference of R191 to R197, or the device's own, bound by R190 alone. -/
inductive SlotImpl where
  | reference
  | deviceDefined
deriving DecidableEq, Repr

/-- The four taxonomies of 44_taxonomy.md. -/
inductive TaxonomyId where
  | classCode
  | bridgeSubclass
  | capabilityId
  | headerType
deriving DecidableEq, Repr

/-- R170, R186: the codes of the known members of one taxonomy (a known member's tag is its code), and the value of
its other member where the spec gives one; `none` is the spec's OPEN (R179, R182). -/
structure Taxonomy where
  codes : List Byte
  other : Option Byte
deriving DecidableEq, Repr

/-- The parameters of R9 that are fixed for the whole run (R252). -/
structure Params where
  size         : StoreSize
  store        : StoreKind
  hdrKind      : HdrKind
  wordOrder    : WordCheckOrder
  slotImpl     : SlotImpl
  classTable   : Taxonomy
  bridgeTable  : Taxonomy
  capidTable   : Taxonomy
  hdrtypeTable : Taxonomy
  /-- The model's own number for the device behind the block (DESIGN CHOICE, log 24): the free values are asked of the
  device of this number, so what one device answers says nothing of another's answers. -/
  deviceLabel  : Nat
deriving DecidableEq, Repr

/-- R220: the error causes. Only AddressInvalid carries operands (R222). -/
inductive Cause where
  | unalignedAccess
  | offsetOutOfBounds
  | addressInvalid (addr len : Wide)
  | barIndex
  | barInUse
  | barInUse64
  | barInvalid
  | barInvalid64
  | romBarInUse
  | romBarInvalid
deriving DecidableEq, Repr, Inhabited

/-- R12, R44: one access the store has performed for the block. -/
inductive StoreAccess where
  | read  (index : Nat)
  | write (index : Nat) (value : Reg)
deriving DecidableEq, Repr

/-- R27: one BAR slot. -/
inductive Slot where
  | empty
  | bar (region : Region) (prefetchable : Bool)
  | upper64 (owner : Nat)
deriving DecidableEq, Repr

/-- R27: the ROM BAR slot. -/
inductive RomSlot where
  | empty
  | rom (region : Region) (enable : Bool)
deriving DecidableEq, Repr

/-- Which device is asked (log 24), what its store held at creation (`INIT_REGS`; of a plain store, what it holds), all
that the device may have seen of the block, and the moment. -/
structure DeviceView where
  label : Nat
  held  : List (Nat × Byte)
  now   : Nat
  trace : List StoreAccess
  slots : List Slot
  rom   : RomSlot
deriving DecidableEq, Repr

/-- What a device that keeps its own slot bookkeeping is asked: which device it is (log 24) and what it has seen, the
slot index, and the region and flag of an add. -/
structure SlotRequest where
  view   : DeviceView
  index  : Nat
  region : Option Region
  flag   : Bool
deriving DecidableEq, Repr

namespace Config

/-- FREE VALUE (log 4): what a device's own store answers to `StoreRead(index)` once `INIT_REGS` no longer stand (R21:
any 32-bit value). Every read of a run is asked at a view of its own, so any sequence of answers is allowed. DESIGN
CHOICE (log 24): one function answers for every device (R235), told apart by their `deviceLabel` and `INIT_REGS`; two
instances alike in both, and in all the block has shown them, answer alike, and no statement rests on that. -/
opaque deviceRead (view : DeviceView) (index : Nat) : Reg

/-- FREE VALUE (log 8): which byte outside the table is an other member's OPEN value (R171, R179, R182). -/
opaque otherPick (which : TaxonomyId) (codes : List Byte) : Nat

/-- FREE VALUE (log 6): whether a device that keeps its own slots rejects an add its slots have room for (`some`: it
does, with this error). -/
opaque slotDecision (request : SlotRequest) : Option Cause

/-- FREE VALUE (log 6): whether such a device rejects a ROM BAR while it has none, and with which error. -/
opaque romDecision (request : SlotRequest) : Option Cause

/-- FREE VALUE (log 6): with which error such a device rejects a 64-bit BAR that its slots have no room for. -/
opaque slotReason (request : SlotRequest) : Cause

/-- FREE VALUE (log 6): whether such a device names the 64-bit variant of an error pair (R190 items 4 and 5). -/
opaque slotSays64 (request : SlotRequest) : Bool

/-- FREE VALUE (log 6): whether such a device answers a query of a consumed upper slot with the owner's region. -/
opaque upperAnswersOwner (request : SlotRequest) : Bool

end Config

end Sys2Proof
end

