-- ==== Sys2Proof/Machine/Regions.lean ====
section
/-! DEFINITION. Region values: kinds, port triples, the overflow check and the check that some constructor could
have returned a region (spec: 00_scope.md R11, 10_state.md R28, 30_encoding.md R66, 43_bar_region.md R151). -/

namespace Sys2Proof.Machine

/-- R11: the exact sum where it fits `w` bits. -/
def checkedAdd {w : Nat} (a b : BitVec w) : Option Nat :=
  if a.toNat + b.toNat ≤ 2 ^ w - 1 then some (a.toNat + b.toNat) else none

/-- R28: the kind code on a port. -/
def kindCode : Region → BitVec 2
  | .io _ _ => 0#2
  | .memory32 _ _ => 1#2
  | .memory64 _ _ => 2#2

/-- R191, R192: whether a region's kind is Memory64. -/
def isMemory64 : Region → Bool
  | .io _ _ => false
  | .memory32 _ _ => false
  | .memory64 _ _ => true

/-- R28: the triple of a region; for Io and Memory32 the upper halves are zero. -/
def regionPort (r : Region) : RegionPort :=
  match r with
  | .io a l => { kind := kindCode r, addr := a.setWidth 64, len := l.setWidth 64 }
  | .memory32 a l => { kind := kindCode r, addr := a.setWidth 64, len := l.setWidth 64 }
  | .memory64 a l => { kind := kindCode r, addr := a, len := l }

/-- R66: the two checks of a constructor hold of these operands. -/
def operandsConstructible {w : Nat} (addr len : BitVec w) : Bool :=
  (checkedAdd addr len).isSome && decide (addr.toNat % 4 = 0)

/-- R66: some constructor could have returned this region. -/
def constructible : Region → Bool
  | .io a l => operandsConstructible a l
  | .memory32 a l => operandsConstructible a l
  | .memory64 a l => operandsConstructible a l

/-- The typed region a triple denotes: kind 3 and nonzero upper halves of the narrow kinds denote none (R66). -/
def typedRegion (p : RegionPort) : Option Region :=
  if p.kind = 2#2 then some (.memory64 p.addr p.len)
  else if p.addr.toNat < 2 ^ 32 ∧ p.len.toNat < 2 ^ 32 then
    if p.kind = 0#2 then some (.io (p.addr.setWidth 32) (p.len.setWidth 32))
    else if p.kind = 1#2 then some (.memory32 (p.addr.setWidth 32) (p.len.setWidth 32))
    else none
  else none

end Sys2Proof.Machine
end

