-- ==== Sys2Proof/Syntax.lean ====
section
/-! DEFINITION. The commands: one constructor of `Instr` per row of spec/opcode_table.json, its operands at their
source types (spec: 30_encoding.md R64 to R69), and the command as it stands on the ports (R60, R61). -/

namespace Sys2Proof

/-- R69: the 35 commands by name. -/
inductive Opcode where
  | validateAlign | readDword | writeDword | readWord | writeWord | readByte | writeByte
  | readVendorId | readDeviceId | readCommand | readStatus | readRevisionId | readProgIf
  | readSubclass | readClassCode | readCacheLineSize | readLatencyTimer | readHeaderType | readBist
  | newIoRegion | newMem32Region | newMem64Region | regionEq
  | classFrom | classValue | bridgeSubclassFrom | bridgeSubclassValue
  | capidFrom | capidValue | hdrtypeFrom | hdrtypeValue
  | addBar | addRomBar | barAddress | romBarAddress
deriving DecidableEq, Repr

/-- R69: a command with its operands. -/
inductive Instr where
  | validateAlign (offset : Wide)
  | readDword (offset : Wide)
  | writeDword (offset : Wide) (data : Reg)
  | readWord (offset : Wide)
  | writeWord (offset : Wide) (data : Half)
  | readByte (offset : Wide)
  | writeByte (offset : Wide) (data : Byte)
  | readVendorId
  | readDeviceId
  | readCommand
  | readStatus
  | readRevisionId
  | readProgIf
  | readSubclass
  | readClassCode
  | readCacheLineSize
  | readLatencyTimer
  | readHeaderType
  | readBist
  | newIoRegion (addr len : Reg)
  | newMem32Region (addr len : Reg)
  | newMem64Region (addr len : Wide)
  | regionEq (rA rB : Region)
  | classFrom (byte : Byte)
  | classValue (tag : Byte)
  | bridgeSubclassFrom (byte : Byte)
  | bridgeSubclassValue (tag : Byte)
  | capidFrom (byte : Byte)
  | capidValue (tag : Byte)
  | hdrtypeFrom (byte : Byte)
  | hdrtypeValue (tag : Byte)
  | addBar (index : BitVec 32) (region : Region) (prefetchable : Bool)
  | addRomBar (region : Region) (enable : Bool)
  | barAddress (index : BitVec 32)
  | romBarAddress
deriving DecidableEq, Repr

/-- R61: the command ports. -/
structure Command where
  op     : Byte
  offset : Wide
  data   : Reg
  addr   : Wide
  len    : Wide
  rA     : RegionPort
  rB     : RegionPort
  index  : BitVec 32
  flag   : Bool
deriving DecidableEq, Repr

/-- R73, R74: why a command as it stands on the ports has no meaning. -/
inductive DecodeRefusal where
  /-- R73: `op` is not in the table. -/
  | reservedOp (op : Byte)
  /-- R64, R68: a data operand has a nonzero bit above its type. -/
  | dataTooWide (data : Reg)
  /-- R65: an addr or len operand of a 32-bit constructor has a nonzero upper half. -/
  | operandTooWide (value : Wide)
  /-- R66: no constructor returns this region. -/
  | noSuchRegion (port : RegionPort)
deriving DecidableEq, Repr

end Sys2Proof
end

