-- ==== Sys2Proof/WellFormed.lean ====
section
/-! DEFINITION. When a command's operands are ones a command can carry (spec: 30_encoding.md R66). Data widths
(R64, R65, R68) are the operands' types. Whether a tag names a member depends on the instance's tables, so the
taxonomy commands check it themselves (44_taxonomy.md R175, R178, R181, R184). -/

namespace Sys2Proof

/-- R66: every region operand is one some constructor could have returned. -/
def Instr.wellFormed : Instr → Bool
  | .regionEq rA rB => Machine.constructible rA && Machine.constructible rB
  | .addBar _ r _ => Machine.constructible r
  | .addRomBar r _ => Machine.constructible r
  | .validateAlign _ | .readDword _ | .writeDword _ _ | .readWord _ | .writeWord _ _ | .readByte _
  | .writeByte _ _ | .readVendorId | .readDeviceId | .readCommand | .readStatus | .readRevisionId
  | .readProgIf | .readSubclass | .readClassCode | .readCacheLineSize | .readLatencyTimer
  | .readHeaderType | .readBist | .newIoRegion _ _ | .newMem32Region _ _ | .newMem64Region _ _
  | .classFrom _ | .classValue _ | .bridgeSubclassFrom _ | .bridgeSubclassValue _ | .capidFrom _
  | .capidValue _ | .hdrtypeFrom _ | .hdrtypeValue _ | .barAddress _ | .romBarAddress => true

end Sys2Proof
end

