-- ==== Sys2Proof/Decode.lean ====
section
/-! DEFINITION. The opcode map (spec: 30_encoding.md R69, R73), the decoder from the command ports to an instruction
(R61, R64 to R68), total on every value of the ports and refusing by name (R74), the encoder, and the ports as one
number (log 16). -/

namespace Sys2Proof

/-- R69: every command, in the table's order. -/
def Opcode.all : List Opcode :=
  [.validateAlign, .readDword, .writeDword, .readWord, .writeWord, .readByte, .writeByte,
   .readVendorId, .readDeviceId, .readCommand, .readStatus, .readRevisionId, .readProgIf,
   .readSubclass, .readClassCode, .readCacheLineSize, .readLatencyTimer, .readHeaderType, .readBist] ++
  [.newIoRegion, .newMem32Region, .newMem64Region, .regionEq] ++
  [.classFrom, .classValue, .bridgeSubclassFrom, .bridgeSubclassValue,
   .capidFrom, .capidValue, .hdrtypeFrom, .hdrtypeValue] ++
  [.addBar, .addRomBar, .barAddress, .romBarAddress]

/-- R69: the `op` of each command. -/
def Opcode.code : Opcode → Byte
  | .validateAlign => 0x00#8
  | .readDword => 0x01#8
  | .writeDword => 0x02#8
  | .readWord => 0x03#8
  | .writeWord => 0x04#8
  | .readByte => 0x05#8
  | .writeByte => 0x06#8
  | .readVendorId => 0x10#8
  | .readDeviceId => 0x11#8
  | .readCommand => 0x12#8
  | .readStatus => 0x13#8
  | .readRevisionId => 0x14#8
  | .readProgIf => 0x15#8
  | .readSubclass => 0x16#8
  | .readClassCode => 0x17#8
  | .readCacheLineSize => 0x18#8
  | .readLatencyTimer => 0x19#8
  | .readHeaderType => 0x1A#8
  | .readBist => 0x1B#8
  | .newIoRegion => 0x20#8
  | .newMem32Region => 0x21#8
  | .newMem64Region => 0x22#8
  | .regionEq => 0x23#8
  | .classFrom => 0x30#8
  | .classValue => 0x31#8
  | .bridgeSubclassFrom => 0x32#8
  | .bridgeSubclassValue => 0x33#8
  | .capidFrom => 0x34#8
  | .capidValue => 0x35#8
  | .hdrtypeFrom => 0x36#8
  | .hdrtypeValue => 0x37#8
  | .addBar => 0x40#8
  | .addRomBar => 0x41#8
  | .barAddress => 0x42#8
  | .romBarAddress => 0x43#8

/-- R60, R73: the command an `op` selects; none where it is reserved. -/
def Opcode.ofCode (op : Byte) : Option Opcode :=
  Opcode.all.find? fun o => decide (o.code = op)

/-- The command an instruction is. -/
def Instr.opcode : Instr → Opcode
  | .validateAlign _ => .validateAlign
  | .readDword _ => .readDword
  | .writeDword _ _ => .writeDword
  | .readWord _ => .readWord
  | .writeWord _ _ => .writeWord
  | .readByte _ => .readByte
  | .writeByte _ _ => .writeByte
  | .readVendorId => .readVendorId
  | .readDeviceId => .readDeviceId
  | .readCommand => .readCommand
  | .readStatus => .readStatus
  | .readRevisionId => .readRevisionId
  | .readProgIf => .readProgIf
  | .readSubclass => .readSubclass
  | .readClassCode => .readClassCode
  | .readCacheLineSize => .readCacheLineSize
  | .readLatencyTimer => .readLatencyTimer
  | .readHeaderType => .readHeaderType
  | .readBist => .readBist
  | .newIoRegion _ _ => .newIoRegion
  | .newMem32Region _ _ => .newMem32Region
  | .newMem64Region _ _ => .newMem64Region
  | .regionEq _ _ => .regionEq
  | .classFrom _ => .classFrom
  | .classValue _ => .classValue
  | .bridgeSubclassFrom _ => .bridgeSubclassFrom
  | .bridgeSubclassValue _ => .bridgeSubclassValue
  | .capidFrom _ => .capidFrom
  | .capidValue _ => .capidValue
  | .hdrtypeFrom _ => .hdrtypeFrom
  | .hdrtypeValue _ => .hdrtypeValue
  | .addBar _ _ _ => .addBar
  | .addRomBar _ _ => .addRomBar
  | .barAddress _ => .barAddress
  | .romBarAddress => .romBarAddress

/-- R64, R68: a data operand at its type's width. -/
def dataOperand (w : Nat) (data : Reg) : Except DecodeRefusal (BitVec w) :=
  if data.toNat < 2 ^ w then .ok (data.setWidth w) else .error (.dataTooWide data)

/-- R65: an operand of a 32-bit constructor. -/
def narrowOperand (value : Wide) : Except DecodeRefusal Reg :=
  if value.toNat < 2 ^ 32 then .ok (value.setWidth 32) else .error (.operandTooWide value)

/-- R66: a region operand. -/
def regionOperand (port : RegionPort) : Except DecodeRefusal Region :=
  match Machine.typedRegion port with
  | none => .error (.noSuchRegion port)
  | some r => if Machine.constructible r then .ok r else .error (.noSuchRegion port)

/-- R61, R64 to R68: the operands each command reads, from the ports listed for it and no others. -/
def decodeOperands (o : Opcode) (c : Command) : Except DecodeRefusal Instr :=
  match o with
  | .validateAlign => .ok (.validateAlign c.offset)
  | .readDword => .ok (.readDword c.offset)
  | .writeDword => .ok (.writeDword c.offset c.data)
  | .readWord => .ok (.readWord c.offset)
  | .writeWord => (dataOperand 16 c.data).map fun w => .writeWord c.offset w
  | .readByte => .ok (.readByte c.offset)
  | .writeByte => (dataOperand 8 c.data).map fun b => .writeByte c.offset b
  | .readVendorId => .ok .readVendorId
  | .readDeviceId => .ok .readDeviceId
  | .readCommand => .ok .readCommand
  | .readStatus => .ok .readStatus
  | .readRevisionId => .ok .readRevisionId
  | .readProgIf => .ok .readProgIf
  | .readSubclass => .ok .readSubclass
  | .readClassCode => .ok .readClassCode
  | .readCacheLineSize => .ok .readCacheLineSize
  | .readLatencyTimer => .ok .readLatencyTimer
  | .readHeaderType => .ok .readHeaderType
  | .readBist => .ok .readBist
  | .newIoRegion => (narrowOperand c.addr).bind fun a => (narrowOperand c.len).map fun l => .newIoRegion a l
  | .newMem32Region => (narrowOperand c.addr).bind fun a => (narrowOperand c.len).map fun l => .newMem32Region a l
  | .newMem64Region => .ok (.newMem64Region c.addr c.len)
  | .regionEq => (regionOperand c.rA).bind fun a => (regionOperand c.rB).map fun b => .regionEq a b
  | .classFrom => (dataOperand 8 c.data).map fun b => .classFrom b
  | .classValue => (dataOperand 8 c.data).map fun t => .classValue t
  | .bridgeSubclassFrom => (dataOperand 8 c.data).map fun b => .bridgeSubclassFrom b
  | .bridgeSubclassValue => (dataOperand 8 c.data).map fun t => .bridgeSubclassValue t
  | .capidFrom => (dataOperand 8 c.data).map fun b => .capidFrom b
  | .capidValue => (dataOperand 8 c.data).map fun t => .capidValue t
  | .hdrtypeFrom => (dataOperand 8 c.data).map fun b => .hdrtypeFrom b
  | .hdrtypeValue => (dataOperand 8 c.data).map fun t => .hdrtypeValue t
  | .addBar => (regionOperand c.rA).map fun r => .addBar c.index r c.flag
  | .addRomBar => (regionOperand c.rA).map fun r => .addRomBar r c.flag
  | .barAddress => .ok (.barAddress c.index)
  | .romBarAddress => .ok .romBarAddress

/-- The instruction on the ports, or why there is none (R74). -/
def decode (c : Command) : Except DecodeRefusal Instr :=
  match Opcode.ofCode c.op with
  | none => .error (.reservedOp c.op)
  | some o => decodeOperands o c

/-- A region port with nothing on it. -/
def RegionPort.blank : RegionPort := { kind := 0#2, addr := 0#64, len := 0#64 }

/-- Command `o` with every operand port at zero. -/
def Command.bare (o : Opcode) : Command :=
  { op := o.code, offset := 0#64, data := 0#32, addr := 0#64, len := 0#64,
    rA := .blank, rB := .blank, index := 0#32, flag := false }

/-- The ports of an instruction: the operands on the ports R61 lists for it, every other port zero. -/
def encode : Instr → Command
  | .validateAlign a => { Command.bare .validateAlign with offset := a }
  | .readDword a => { Command.bare .readDword with offset := a }
  | .writeDword a v => { Command.bare .writeDword with offset := a, data := v }
  | .readWord a => { Command.bare .readWord with offset := a }
  | .writeWord a w => { Command.bare .writeWord with offset := a, data := w.setWidth 32 }
  | .readByte a => { Command.bare .readByte with offset := a }
  | .writeByte a b => { Command.bare .writeByte with offset := a, data := b.setWidth 32 }
  | .readVendorId => Command.bare .readVendorId
  | .readDeviceId => Command.bare .readDeviceId
  | .readCommand => Command.bare .readCommand
  | .readStatus => Command.bare .readStatus
  | .readRevisionId => Command.bare .readRevisionId
  | .readProgIf => Command.bare .readProgIf
  | .readSubclass => Command.bare .readSubclass
  | .readClassCode => Command.bare .readClassCode
  | .readCacheLineSize => Command.bare .readCacheLineSize
  | .readLatencyTimer => Command.bare .readLatencyTimer
  | .readHeaderType => Command.bare .readHeaderType
  | .readBist => Command.bare .readBist
  | .newIoRegion a l => { Command.bare .newIoRegion with addr := a.setWidth 64, len := l.setWidth 64 }
  | .newMem32Region a l => { Command.bare .newMem32Region with addr := a.setWidth 64, len := l.setWidth 64 }
  | .newMem64Region a l => { Command.bare .newMem64Region with addr := a, len := l }
  | .regionEq a b => { Command.bare .regionEq with rA := Machine.regionPort a, rB := Machine.regionPort b }
  | .classFrom b => { Command.bare .classFrom with data := b.setWidth 32 }
  | .classValue t => { Command.bare .classValue with data := t.setWidth 32 }
  | .bridgeSubclassFrom b => { Command.bare .bridgeSubclassFrom with data := b.setWidth 32 }
  | .bridgeSubclassValue t => { Command.bare .bridgeSubclassValue with data := t.setWidth 32 }
  | .capidFrom b => { Command.bare .capidFrom with data := b.setWidth 32 }
  | .capidValue t => { Command.bare .capidValue with data := t.setWidth 32 }
  | .hdrtypeFrom b => { Command.bare .hdrtypeFrom with data := b.setWidth 32 }
  | .hdrtypeValue t => { Command.bare .hdrtypeValue with data := t.setWidth 32 }
  | .addBar k r p => { Command.bare .addBar with index := k, rA := Machine.regionPort r, flag := p }
  | .addRomBar r e => { Command.bare .addRomBar with rA := Machine.regionPort r, flag := e }
  | .barAddress k => { Command.bare .barAddress with index := k }
  | .romBarAddress => Command.bare .romBarAddress

/-- R61, the column "used by": the command with every port that `op` does not list set to zero. -/
def Command.listedOnly (c : Command) : Command :=
  { op := c.op
    offset := if c.op.toNat ≤ 0x06 then c.offset else 0#64
    data := if c.op = 0x02#8 ∨ c.op = 0x04#8 ∨ c.op = 0x06#8 ∨ (0x30 ≤ c.op.toNat ∧ c.op.toNat ≤ 0x37) then c.data
      else 0#32
    addr := if 0x20 ≤ c.op.toNat ∧ c.op.toNat ≤ 0x22 then c.addr else 0#64
    len := if 0x20 ≤ c.op.toNat ∧ c.op.toNat ≤ 0x22 then c.len else 0#64
    rA := if c.op = 0x23#8 ∨ c.op = 0x40#8 ∨ c.op = 0x41#8 then c.rA else .blank
    rB := if c.op = 0x23#8 then c.rB else .blank
    index := if c.op = 0x40#8 ∨ c.op = 0x42#8 then c.index else 0#32
    flag := if c.op = 0x40#8 ∨ c.op = 0x41#8 then c.flag else false }

/-- The region port that stands in the low bits of a number: kind, addr, len. -/
def RegionPort.ofNat (n : Nat) : RegionPort :=
  { kind := BitVec.ofNat 2 n, addr := BitVec.ofNat 64 (n / 2 ^ 2), len := BitVec.ofNat 64 (n / 2 ^ 66) }

/-- DESIGN CHOICE (log 16): the ports as one number, `op` in bits 7..0 and then R61's ports in its order:
offset, data, addr, len, rA, rB, index, flag. -/
def Command.ofNat (n : Nat) : Command :=
  let fromOffset := n / 2 ^ 8
  let fromData := fromOffset / 2 ^ 64
  let fromAddr := fromData / 2 ^ 32
  let fromLen := fromAddr / 2 ^ 64
  let fromRA := fromLen / 2 ^ 64
  let fromRB := fromRA / 2 ^ 130
  let fromIndex := fromRB / 2 ^ 130
  let fromFlag := fromIndex / 2 ^ 32
  { op := BitVec.ofNat 8 n
    offset := BitVec.ofNat 64 fromOffset
    data := BitVec.ofNat 32 fromData
    addr := BitVec.ofNat 64 fromAddr
    len := BitVec.ofNat 64 fromLen
    rA := RegionPort.ofNat fromRA
    rB := RegionPort.ofNat fromRB
    index := BitVec.ofNat 32 fromIndex
    flag := fromFlag % 2 == 1 }

/-- The command whose ports, numbered as `Command.ofNat` numbers them, are the low `nbits` bits of `w` and zero
above. -/
def Command.ofTableWord (nbits w : Nat) : Command := Command.ofNat (w % 2 ^ nbits)

/-- The instruction the decoder reads from an opcode-table word. -/
def decodeTableWord (nbits w : Nat) : Option Instr :=
  match decode (Command.ofTableWord nbits w) with
  | .ok i => some i
  | .error _ => none

end Sys2Proof
end

