-- ==== Sys2Proof/Machine/Launch.lean ====
section
/-! DEFINITION. What the parameters of an instance mean (spec: 00_scope.md R9), the taxonomies' member names and
default tables (44_taxonomy.md R172, R176, R179, R182; PRESUMED by the spec from general knowledge, log 7), and the
parameters `State.reset` is launched with (logs 1 to 7). -/

namespace Sys2Proof

/-- R9, R47: the number of 32-bit registers. -/
def StoreSize.count : StoreSize → Nat
  | .regs64 => 64
  | .regs1024 => 1024

/-- R9: the number of BAR slots. -/
def HdrKind.barSlots : HdrKind → Nat
  | .device => 6
  | .bridge => 2

/-- R9 `CFG_REGS`. -/
def Params.cfgRegs (p : Params) : Nat := p.size.count

/-- R9 `BAR_SLOTS`. -/
def Params.barSlots (p : Params) : Nat := p.hdrKind.barSlots

namespace Machine

/-- R172: the members of ClassCode. -/
inductive ClassCode where
  | unclassified | massStorage | network | display | multimedia | memory | bridge
  | simpleCommunication | baseSystemPeripheral | inputDevice | dockingStation | processor
  | serialBus | wireless | intelligentIo | satellite | encryptionDecryption
  | dataAcquisitionSignalProcessing | processingAccelerator | nonEssentialInstrumentation
  | other
deriving DecidableEq, Repr

/-- R172: the tag of a member; a known member's tag is its code, the other member's tag is 0xFF. -/
def ClassCode.tag : ClassCode → Byte
  | .unclassified => 0x00#8
  | .massStorage => 0x01#8
  | .network => 0x02#8
  | .display => 0x03#8
  | .multimedia => 0x04#8
  | .memory => 0x05#8
  | .bridge => 0x06#8
  | .simpleCommunication => 0x07#8
  | .baseSystemPeripheral => 0x08#8
  | .inputDevice => 0x09#8
  | .dockingStation => 0x0A#8
  | .processor => 0x0B#8
  | .serialBus => 0x0C#8
  | .wireless => 0x0D#8
  | .intelligentIo => 0x0E#8
  | .satellite => 0x0F#8
  | .encryptionDecryption => 0x10#8
  | .dataAcquisitionSignalProcessing => 0x11#8
  | .processingAccelerator => 0x12#8
  | .nonEssentialInstrumentation => 0x13#8
  | .other => 0xFF#8

/-- R172: the known members. -/
def ClassCode.known : List ClassCode :=
  [.unclassified, .massStorage, .network, .display, .multimedia, .memory, .bridge,
   .simpleCommunication, .baseSystemPeripheral, .inputDevice, .dockingStation, .processor,
   .serialBus, .wireless, .intelligentIo, .satellite, .encryptionDecryption,
   .dataAcquisitionSignalProcessing, .processingAccelerator, .nonEssentialInstrumentation]

/-- R176: the members of the bridge Subclass. -/
inductive BridgeSubclass where
  | host | isa | pciToPci | other
deriving DecidableEq, Repr

/-- R176, R186. -/
def BridgeSubclass.tag : BridgeSubclass → Byte
  | .host => 0x00#8
  | .isa => 0x01#8
  | .pciToPci => 0x04#8
  | .other => 0xFF#8

/-- R176: the known members. -/
def BridgeSubclass.known : List BridgeSubclass := [.host, .isa, .pciToPci]

/-- R179: the members of CapabilityId. -/
inductive CapabilityId where
  | null | powerManagement | agp | vpd | slotIdentification | msi | compactPciHotSwap | pciX
  | hyperTransport | vendorSpecific | debugPort | compactPciCentralResourceControl | pciHotPlug
  | bridgeSubsystemVendorId | agp8x | secureDevice | pciExpress | msiX
  | sataDataIndexConfiguration | advancedFeatures | enhancedAllocation
  | other
deriving DecidableEq, Repr

/-- R179, R186. -/
def CapabilityId.tag : CapabilityId → Byte
  | .null => 0x00#8
  | .powerManagement => 0x01#8
  | .agp => 0x02#8
  | .vpd => 0x03#8
  | .slotIdentification => 0x04#8
  | .msi => 0x05#8
  | .compactPciHotSwap => 0x06#8
  | .pciX => 0x07#8
  | .hyperTransport => 0x08#8
  | .vendorSpecific => 0x09#8
  | .debugPort => 0x0A#8
  | .compactPciCentralResourceControl => 0x0B#8
  | .pciHotPlug => 0x0C#8
  | .bridgeSubsystemVendorId => 0x0D#8
  | .agp8x => 0x0E#8
  | .secureDevice => 0x0F#8
  | .pciExpress => 0x10#8
  | .msiX => 0x11#8
  | .sataDataIndexConfiguration => 0x12#8
  | .advancedFeatures => 0x13#8
  | .enhancedAllocation => 0x14#8
  | .other => 0xFF#8

/-- R179: the known members. -/
def CapabilityId.known : List CapabilityId :=
  [.null, .powerManagement, .agp, .vpd, .slotIdentification, .msi, .compactPciHotSwap, .pciX,
   .hyperTransport, .vendorSpecific, .debugPort, .compactPciCentralResourceControl, .pciHotPlug,
   .bridgeSubsystemVendorId, .agp8x, .secureDevice, .pciExpress, .msiX,
   .sataDataIndexConfiguration, .advancedFeatures, .enhancedAllocation]

/-- R182: the members of HeaderType. -/
inductive HeaderType where
  | device | bridge | cardbus | other
deriving DecidableEq, Repr

/-- R182, R186. -/
def HeaderType.tag : HeaderType → Byte
  | .device => 0x00#8
  | .bridge => 0x01#8
  | .cardbus => 0x02#8
  | .other => 0xFF#8

/-- R182: the known members. -/
def HeaderType.known : List HeaderType := [.device, .bridge, .cardbus]

/-- R172: the default `CLASS_TABLE`; the other member's value is 0xFF. -/
def defaultClassTable : Taxonomy :=
  { codes := ClassCode.known.map ClassCode.tag, other := some 0xFF#8 }

/-- R176: the `BRIDGE_SUBCLASS_TABLE`; the other member's value is 0x80. -/
def defaultBridgeTable : Taxonomy :=
  { codes := BridgeSubclass.known.map BridgeSubclass.tag, other := some 0x80#8 }

/-- R179: the default `CAPID_TABLE`; the other member's value is OPEN. -/
def defaultCapidTable : Taxonomy :=
  { codes := CapabilityId.known.map CapabilityId.tag, other := none }

/-- R182: the default `HDRTYPE_TABLE`; the other member's value is OPEN. -/
def defaultHdrtypeTable : Taxonomy :=
  { codes := HeaderType.known.map HeaderType.tag, other := none }

/-- The parameters of `State.reset`: the spec's references and default tables, and DESIGN CHOICE (logs 2, 3)
64 registers, the Device header and AlignFirst. No statement rests on these values. -/
def resetParams : Params :=
  { size := .regs64
    store := .plain
    hdrKind := .device
    wordOrder := .alignFirst
    slotImpl := .reference
    classTable := defaultClassTable
    bridgeTable := defaultBridgeTable
    capidTable := defaultCapidTable
    hdrtypeTable := defaultHdrtypeTable
    deviceLabel := 0 }

end Machine

end Sys2Proof
end

