-- ==== Sys2Proof/Machine/Bits.lean ====
section
/-! DEFINITION. The lane mux (spec: 41_codec.md R102) and the byte order (20_memory.md R40). -/

namespace Sys2Proof.Machine

/-- R102: lane `k` of a register. -/
def extract8 (r : Reg) (k : Nat) : Byte :=
  ((r >>> (8 * k)) &&& 0xFF#32).setWidth 8

/-- R102: the register with lane `k` replaced, the other three kept. -/
def insert8 (r : Reg) (k : Nat) (b : Byte) : Reg :=
  (r &&& ~~~(0xFF#32 <<< (8 * k))) ||| (b.setWidth 32 <<< (8 * k))

/-- R102: the half of a register that starts at byte `h`. -/
def extract16 (r : Reg) (h : Nat) : Half :=
  ((r >>> (8 * h)) &&& 0xFFFF#32).setWidth 16

/-- R102: the register with that half replaced, the other kept: masked, not zeroed. -/
def insert16 (r : Reg) (h : Nat) (w : Half) : Reg :=
  (r &&& ~~~(0xFFFF#32 <<< (8 * h))) ||| (w.setWidth 32 <<< (8 * h))

/-- R40: a register from its four bytes, the one at the highest offset first. -/
def joinBytes (b3 b2 b1 b0 : Byte) : Reg := b3 ++ b2 ++ b1 ++ b0

end Sys2Proof.Machine
end

