-- ==== Sys2Proof/Machine/Memory.lean ====
section
/-! DEFINITION. The plain store's contents as (byte offset, byte) pairs in one canonical form, and the 32-bit
registers over them (spec: 10_state.md R21, R22; 20_memory.md R40, R47). -/

namespace Sys2Proof.Machine

/-- Bytes by byte offset: offsets strictly rising, no entry equal to `unlisted`. -/
abbrev Mem := List Host.Cell

/-- DESIGN CHOICE (log 5): what a byte of the store that nothing has set reads as; the spec gives no reset contents. -/
def unlisted : Byte := 0#8

/-- The byte at offset `a`. -/
def Mem.read : Mem → Nat → Byte
  | [], _ => unlisted
  | (x, y) :: m, a => if a = x then y else Mem.read m a

/-- The entry for byte `b` at offset `a`, or none where `b` is what an unlisted offset reads as. -/
def Mem.entry (a : Nat) (b : Byte) : Mem :=
  if b = unlisted then [] else [(a, b)]

/-- Set the byte at offset `a`, keeping the canonical form. -/
def Mem.write : Mem → Nat → Byte → Mem
  | [], a, b => Mem.entry a b
  | (x, y) :: m, a, b =>
    if a < x then Mem.entry a b ++ (x, y) :: m
    else if a = x then Mem.entry a b ++ m
    else (x, y) :: Mem.write m a b

/-- Every listed offset is at least `lo`, offsets rise strictly, and no listed byte is `unlisted`. -/
def Mem.wfFrom : Nat → Mem → Bool
  | _, [] => true
  | lo, (x, y) :: m => decide (lo ≤ x) && decide (y ≠ unlisted) && Mem.wfFrom (x + 1) m

/-- The canonical form. -/
def Mem.wf (m : Mem) : Bool := Mem.wfFrom 0 m

/-- Every listed offset lies below `bound`. -/
def Mem.below (bound : Nat) : Mem → Bool
  | [] => true
  | (x, _) :: m => decide (x < bound) && Mem.below bound m

/-- R40: register `i` is the four bytes at `4 * i`, little-endian (DEDUCED, log 21). -/
def Mem.readReg (m : Mem) (i : Nat) : Reg :=
  joinBytes (m.read (4 * i + 3)) (m.read (4 * i + 2)) (m.read (4 * i + 1)) (m.read (4 * i))

/-- R22: `REG[i] <- v`. -/
def Mem.writeReg (m : Mem) (i : Nat) (v : Reg) : Mem :=
  (((m.write (4 * i) (extract8 v 0)).write (4 * i + 1) (extract8 v 1)).write (4 * i + 2) (extract8 v 2)).write
    (4 * i + 3) (extract8 v 3)

/-- The store whose registers from index `i` on are the listed ones, every other register unlisted. -/
def Mem.ofRegs (i : Nat) : List Reg → Mem
  | [] => []
  | v :: vs => (Mem.ofRegs (i + 1) vs).writeReg i v

end Sys2Proof.Machine
end

