-- ==== Sys2Proof/Machine/State.lean ====
section
/-! DEFINITION. The state of one device instance and its ports (spec: 10_state.md R20 to R31, 30_encoding.md R61,
R62), the reasons a step can stop, launch and reset (70_reset_and_hazards.md R250 to R252). -/

namespace Sys2Proof.Machine

/-- R220: the eleven values of the status port. -/
inductive Status where
  | ok
  | unalignedAccess
  | offsetOutOfBounds
  | addressInvalid
  | barIndex
  | barInUse
  | barInUse64
  | barInvalid
  | barInvalid64
  | romBarInUse
  | romBarInvalid
deriving DecidableEq, Repr

/-- R62: the response ports. A port the command does not name carries no value: `none` (log 11). -/
structure Response where
  status  : Status
  rdata   : Option Reg := none
  rregion : Option RegionPort := none
  rbool   : Option Bool := none
  errAddr : Option Wide := none
  errLen  : Option Wide := none
deriving DecidableEq, Repr

/-- One device instance with its requester's commands. INVENTORY.md lists each field with its rule. `mem` is the plain
store's registers; of a store of the device's own it is the `INIT_REGS` it was created with, since what it holds after
them is the device's (R21, log 4). -/
structure State where
  params   : Params
  mem      : Mem
  trace    : List StoreAccess
  slots    : List Slot
  rom      : RomSlot
  resp     : Option Response
  commands : List Command
  now      : Nat
deriving DecidableEq, Repr

/-- No command of this block stops the machine with a fault: an error is an ordinary response (R223, R226) and no
behaviour is stuck (93_implementation_defined.md section 1). The type has no value, so nothing raises one: safe. -/
inductive Fault where
deriving DecidableEq, Repr

/-- R74: the model gives the command no meaning. The outcome is the refusal mark of the run (log 10). -/
inductive Refusal where
  /-- Raised by `exec` for an instruction that has no meaning yet; safe. -/
  | notModelled (mnemonic : String)
  /-- Raised by `step` where the ports hold no command of the table or an ill-typed operand (R64 to R66, R68,
  R73); safe. -/
  | undecodable (why : DecodeRefusal)
  /-- Raised by the four `*_VALUE` commands where the tag names no member of the instance's table (R68, R175, R178,
  R181, R184); safe. -/
  | noSuchMember (which : TaxonomyId) (tag : Byte)
deriving DecidableEq, Repr

/-- What a command or a step answers. -/
abbrev Result := Host.Outcome State Fault Refusal

/-- R250, R252: a new instance with parameters `p` and `INIT_REGS` `init` (register `i` is entry `i`; registers the
list does not reach, and entries beyond `CFG_REGS`, are not set). -/
def State.launch (p : Params) (init : List Reg) : State :=
  { params := p
    mem := Mem.ofRegs 0 (init.take p.cfgRegs)
    trace := []
    slots := List.replicate p.barSlots .empty
    rom := .empty
    resp := none
    commands := []
    now := 0 }

/-- R250: a new instance of the reset parameters with no register set (logs 1 to 7, 9, 11 to 13). -/
def State.reset : State := State.launch resetParams []

end Sys2Proof.Machine
end

