-- ==== Sys2Proof/Machine/Flags.lean ====
section
/-! DEFINITION. The block has no flags (spec: 10_state.md R24): every outcome is the response status. Here are the
status codes (60_exceptions.md R220), the response of each kind of outcome (R62, R222), and the wrapped error that
group and cause together denote (R221). -/

namespace Sys2Proof.Machine

/-- R220: the code on the status port. -/
def Status.code : Status → Byte
  | .ok => 0x00#8
  | .unalignedAccess => 0x01#8
  | .offsetOutOfBounds => 0x02#8
  | .addressInvalid => 0x03#8
  | .barIndex => 0x04#8
  | .barInUse => 0x05#8
  | .barInUse64 => 0x06#8
  | .barInvalid => 0x07#8
  | .barInvalid64 => 0x08#8
  | .romBarInUse => 0x09#8
  | .romBarInvalid => 0x0A#8

/-- R220: the status of a cause. -/
def causeStatus : Cause → Status
  | .unalignedAccess => .unalignedAccess
  | .offsetOutOfBounds => .offsetOutOfBounds
  | .addressInvalid _ _ => .addressInvalid
  | .barIndex => .barIndex
  | .barInUse => .barInUse
  | .barInUse64 => .barInUse64
  | .barInvalid => .barInvalid
  | .barInvalid64 => .barInvalid64
  | .romBarInUse => .romBarInUse
  | .romBarInvalid => .romBarInvalid

/-- R222: the response of an error; AddressInvalid reports both operands, no other cause reports a value. -/
def errorResponse : Cause → Response
  | .addressInvalid a l => { status := .addressInvalid, errAddr := some a, errLen := some l }
  | c => { status := causeStatus c }

/-- R13: success with no result. -/
def okResponse : Response := { status := .ok }

/-- R13, R62: success with data. -/
def dataResponse (v : Reg) : Response := { status := .ok, rdata := some v }

/-- R13, R62: success with a region, on the port as its triple. -/
def regionResponse (r : Region) : Response := { status := .ok, rregion := some (regionPort r) }

/-- R13, R62: success with a truth value. -/
def boolResponse (b : Bool) : Response := { status := .ok, rbool := some b }

/-- R69: the group of a command. -/
inductive Group where
  | codec | named | region | taxonomy | contract
deriving DecidableEq, Repr

/-- R69: the group is `op[7:4]`. -/
def groupOf (o : Opcode) : Option Group :=
  match (o.code >>> 4).toNat with
  | 0 => some .codec
  | 1 => some .named
  | 2 => some .region
  | 3 => some .taxonomy
  | 4 => some .contract
  | _ => none

/-- R221: the access layer's errors. -/
inductive AccessError where
  | unalignedAccess | offsetOutOfBounds
deriving DecidableEq, Repr

/-- R221: the region layer's errors; it wraps access-layer alignment errors. -/
inductive RegionError where
  | addressInvalid (addr len : Wide)
  | access (e : AccessError)
deriving DecidableEq, Repr

/-- R221: the device layer's errors; it wraps both lower layers. -/
inductive DeviceError where
  | barIndex | barInUse | barInUse64 | barInvalid | barInvalid64 | romBarInUse | romBarInvalid
  | region (e : RegionError)
  | access (e : AccessError)
deriving DecidableEq, Repr

/-- R221: an error at the layer that answers. -/
inductive LayerError where
  | access (e : AccessError)
  | region (e : RegionError)
  | device (e : DeviceError)
deriving DecidableEq, Repr

/-- R221: the access-layer error of a cause. -/
def accessError : Cause → Option AccessError
  | .unalignedAccess => some .unalignedAccess
  | .offsetOutOfBounds => some .offsetOutOfBounds
  | _ => none

/-- R221: the region-layer error of a cause, an access error wrapped. -/
def regionError : Cause → Option RegionError
  | .addressInvalid a l => some (.addressInvalid a l)
  | c => (accessError c).map .access

/-- R221: the device-layer error of a cause. An access cause is read as wrapped directly (log 18). -/
def deviceError : Cause → Option DeviceError
  | .barIndex => some .barIndex
  | .barInUse => some .barInUse
  | .barInUse64 => some .barInUse64
  | .barInvalid => some .barInvalid
  | .barInvalid64 => some .barInvalid64
  | .romBarInUse => some .romBarInUse
  | .romBarInvalid => some .romBarInvalid
  | .addressInvalid a l => some (.region (.addressInvalid a l))
  | .unalignedAccess => some (.access .unalignedAccess)
  | .offsetOutOfBounds => some (.access .offsetOutOfBounds)

/-- R221: the full wrapped error, a function of the command's group and the cause; the taxonomy group has none
(R170). -/
def layerError : Group → Cause → Option LayerError
  | .codec, c => (accessError c).map .access
  | .named, c => (accessError c).map .access
  | .region, c => (regionError c).map .region
  | .taxonomy, _ => none
  | .contract, c => (deviceError c).map .device

/-- The cause a response reports; none where it is OK, or where AddressInvalid stands without its operands. -/
def Response.cause (r : Response) : Option Cause :=
  match r.status with
  | .ok => none
  | .unalignedAccess => some .unalignedAccess
  | .offsetOutOfBounds => some .offsetOutOfBounds
  | .addressInvalid =>
    match r.errAddr, r.errLen with
    | some a, some l => some (.addressInvalid a l)
    | _, _ => none
  | .barIndex => some .barIndex
  | .barInUse => some .barInUse
  | .barInUse64 => some .barInUse64
  | .barInvalid => some .barInvalid
  | .barInvalid64 => some .barInvalid64
  | .romBarInUse => some .romBarInUse
  | .romBarInvalid => some .romBarInvalid

/-- R221: the wrapped error that a response to command `o` denotes. -/
def Response.layered (r : Response) (o : Opcode) : Option LayerError :=
  match groupOf o, r.cause with
  | some g, some c => layerError g c
  | _, _ => none

end Sys2Proof.Machine
end

