-- ==== Sys2Proof/Machine/Operands.lean ====
section
/-! DEFINITION. How operands are taken apart (spec: 30_encoding.md R63, R67) and the alignment checks on them
(20_memory.md R42; 41_codec.md R100, R112). -/

namespace Sys2Proof.Machine

/-- R63: `register = offset / 4`, passed on whole (R48). -/
def registerOf (offset : Wide) : Nat := offset.toNat / 4

/-- R63: `byte_idx = offset mod 4`. -/
def byteIdx (offset : Wide) : Nat := offset.toNat % 4

/-- R100: the alignment validator's check, on the exact value of an offset or base address. -/
def dwordMisaligned (a : Nat) : Bool := a % 4 != 0

/-- R42, R112: `byte_idx` in 1, 3. -/
def wordMisaligned (offset : Wide) : Bool := byteIdx offset == 1 || byteIdx offset == 3

/-- R67: the slot number on the `index` port. -/
def slotNumber (index : BitVec 32) : Nat := index.toNat

end Sys2Proof.Machine
end

