-- ==== Sys2Proof/Machine/Ops.lean ====
section
/-! DEFINITION. The operations the meanings share: answering and raising (spec: 00_scope.md R13, 60_exceptions.md
R223), the store primitives (R12; 10_state.md R21, R22), the sub-word accesses over them (41_codec.md), and the slot
table (10_state.md R27). -/

namespace Sys2Proof.Machine

/-- R62: the response `r` stands on the ports. -/
def State.respond (s : State) (r : Response) : State := { s with resp := some r }

/-- R13 `return ()`. -/
def done (s : State) : Result := .next (s.respond okResponse)

/-- R13 `return v` on `rdata`. -/
def returnData (v : Reg) (s : State) : Result := .next (s.respond (dataResponse v))

/-- R13 `return r` on `rregion`. -/
def returnRegion (r : Region) (s : State) : Result := .next (s.respond (regionResponse r))

/-- R13 `return b` on `rbool`. -/
def returnBool (b : Bool) (s : State) : Result := .next (s.respond (boolResponse b))

/-- R13, R223 `raise`: an error is a result. The response names the cause; no state is saved, no mode changes,
control moves nowhere, and the machine goes on (R226). There is no return from it. -/
def raise (c : Cause) (s : State) : Result := .next (s.respond (errorResponse c))

/-- What the device behind the block may have seen. -/
def State.view (s : State) : DeviceView :=
  { label := s.params.deviceLabel, held := s.mem, now := s.now, trace := s.trace, slots := s.slots, rom := s.rom }

/-- Whether an access may change what later reads of a device's own store give (R21, R46): a write may, a read only
where the device's reads have side effects. -/
def accessHasEffect (readEffects : Bool) : StoreAccess → Bool
  | .read _ => readEffects
  | .write _ _ => true

/-- R250, R251 (93_implementation_defined.md I4: "fixed at launch and stable until written"): whether a device's own
store still holds its `INIT_REGS`. They stand until an access that may change them, or until the device has a BAR to
commit to them, which is its own act (45_bar_contracts.md R198; DEDUCED, log 4). -/
def State.initStands (s : State) (readEffects : Bool) : Bool :=
  !s.trace.any (accessHasEffect readEffects) && s.slots.all (fun v => decide (v = .empty)) && decide (s.rom = .empty)

/-- The value `StoreRead(i)` returns for an index in range: R22 for the plain store; for a device's own, the value of
`INIT_REGS` while that stands (R251), then a free value (R21). -/
def State.regValue (s : State) (i : Nat) : Reg :=
  match s.params.store with
  | .plain => s.mem.readReg i
  | .device readEffects => if s.initStands readEffects then s.mem.readReg i else Config.deviceRead s.view i

/-- The state after the store has performed `StoreRead(i)`. -/
def State.noteRead (s : State) (i : Nat) : State := { s with trace := .read i :: s.trace }

/-- The state after the store has performed `StoreWrite(i, v)`: R22 for the plain store; what a device does with it
is in its later reads (R21), and `mem` goes on holding its `INIT_REGS`. -/
def State.putReg (s : State) (i : Nat) (v : Reg) : State :=
  match s.params.store with
  | .plain => { s with mem := s.mem.writeReg i v, trace := .write i v :: s.trace }
  | .device _ => { s with trace := .write i v :: s.trace }

/-- R12, R21 `StoreRead(i)`: none where the store raises OffsetOutOfBounds. -/
def storeRead (i : Nat) (s : State) : Option (Reg × State) :=
  if i < s.params.cfgRegs then some (s.regValue i, s.noteRead i) else none

/-- R12, R21 `StoreWrite(i, v)`: none where the store raises OffsetOutOfBounds. -/
def storeWrite (i : Nat) (v : Reg) (s : State) : Option State :=
  if i < s.params.cfgRegs then some (s.putReg i v) else none

/-- R117: the write that ends a word or byte write. -/
def finishWrite (i : Nat) (v : Reg) (s : State) : Result :=
  match storeWrite i v s with
  | none => raise .offsetOutOfBounds s
  | some t => done t

/-- R112: the word at `offset`, zero-extended, the checks in `WORD_CHECK_ORDER` (R110). -/
def wordRead (offset : Wide) (s : State) : Result :=
  match s.params.wordOrder with
  | .alignFirst =>
    if wordMisaligned offset then raise .unalignedAccess s
    else match storeRead (registerOf offset) s with
      | none => raise .offsetOutOfBounds s
      | some (v, t) => returnData ((extract16 v (byteIdx offset)).setWidth 32) t
  | .readFirst =>
    match storeRead (registerOf offset) s with
    | none => raise .offsetOutOfBounds s
    | some (v, t) =>
      if wordMisaligned offset then raise .unalignedAccess t
      else returnData ((extract16 v (byteIdx offset)).setWidth 32) t

/-- R116: the word at `offset` replaced, the other half written back as read. -/
def wordWrite (offset : Wide) (w : Half) (s : State) : Result :=
  match s.params.wordOrder with
  | .alignFirst =>
    if wordMisaligned offset then raise .unalignedAccess s
    else match storeRead (registerOf offset) s with
      | none => raise .offsetOutOfBounds s
      | some (old, t) => finishWrite (registerOf offset) (insert16 old (byteIdx offset) w) t
  | .readFirst =>
    match storeRead (registerOf offset) s with
    | none => raise .offsetOutOfBounds s
    | some (old, t) =>
      if wordMisaligned offset then raise .unalignedAccess t
      else finishWrite (registerOf offset) (insert16 old (byteIdx offset) w) t

/-- R119: the byte at `offset`, zero-extended. -/
def byteRead (offset : Wide) (s : State) : Result :=
  match storeRead (registerOf offset) s with
  | none => raise .offsetOutOfBounds s
  | some (v, t) => returnData ((extract8 v (byteIdx offset)).setWidth 32) t

/-- R120: the byte at `offset` replaced, the other three lanes written back as read. -/
def byteWrite (offset : Wide) (b : Byte) (s : State) : Result :=
  match storeRead (registerOf offset) s with
  | none => raise .offsetOutOfBounds s
  | some (old, t) => finishWrite (registerOf offset) (insert8 old (byteIdx offset) b) t

/-- R27: slot `k`; a number outside the table is read as Empty, and every use checks the range first. -/
def State.slotAt (s : State) (k : Nat) : Slot := s.slots.getD k .empty

/-- R27: slot `k` replaced. -/
def State.setSlot (s : State) (k : Nat) (v : Slot) : State := { s with slots := s.slots.set k v }

/-- R27: the ROM slot replaced. -/
def State.setRom (s : State) (v : RomSlot) : State := { s with rom := v }

/-- What a device with its own slot bookkeeping is asked. -/
def State.slotRequest (s : State) (index : Nat) (region : Option Region) (flag : Bool) : SlotRequest :=
  { view := s.view, index := index, region := region, flag := flag }

end Sys2Proof.Machine
end

