-- ==== Sys2Proof/Machine/BarRegion.lean ====
section
/-! DEFINITION. The region commands (spec: 43_bar_region.md). -/

namespace Sys2Proof.Machine

/-- R150: overflow check, then alignment of `addr`, then the region with the operands as given. -/
def construct {w : Nat} (variant : BitVec w → BitVec w → Region) (addr len : BitVec w) (s : State) : Result :=
  match checkedAdd addr len with
  | none => raise (.addressInvalid (addr.setWidth 64) (len.setWidth 64)) s
  | some _ =>
    if dwordMisaligned addr.toNat then raise .unalignedAccess s
    else returnRegion (variant addr len) s

/-- R155 NEW_IO_REGION. -/
def execNewIoRegion (addr len : Reg) (s : State) : Result := construct Region.io addr len s

/-- R156 NEW_MEM32_REGION. -/
def execNewMem32Region (addr len : Reg) (s : State) : Result := construct Region.memory32 addr len s

/-- R157 NEW_MEM64_REGION. -/
def execNewMem64Region (addr len : Wide) (s : State) : Result := construct Region.memory64 addr len s

/-- R160: kind, addr and len all match. -/
def regionsMatch (a b : RegionPort) : Bool :=
  decide (a.kind = b.kind) && decide (a.addr = b.addr) && decide (a.len = b.len)

/-- R160 REGION_EQ. -/
def execRegionEq (rA rB : Region) (s : State) : Result :=
  returnBool (regionsMatch (regionPort rA) (regionPort rB)) s

end Sys2Proof.Machine
end

