-- ==== Sys2Proof/Machine/Codec.lean ====
section
/-! DEFINITION. The codec commands (spec: 41_codec.md). -/

namespace Sys2Proof.Machine

/-- R100 VALIDATE_ALIGN. -/
def execValidateAlign (offset : Wide) (s : State) : Result :=
  if dwordMisaligned offset.toNat then raise .unalignedAccess s else done s

/-- R103 READ_DWORD. -/
def execReadDword (offset : Wide) (s : State) : Result :=
  if dwordMisaligned offset.toNat then raise .unalignedAccess s
  else match storeRead (registerOf offset) s with
    | none => raise .offsetOutOfBounds s
    | some (v, t) => returnData v t

/-- R106 WRITE_DWORD. -/
def execWriteDword (offset : Wide) (data : Reg) (s : State) : Result :=
  if dwordMisaligned offset.toNat then raise .unalignedAccess s
  else match storeWrite (registerOf offset) data s with
    | none => raise .offsetOutOfBounds s
    | some t => done t

/-- R112 READ_WORD. -/
def execReadWord (offset : Wide) (s : State) : Result := wordRead offset s

/-- R116 WRITE_WORD. -/
def execWriteWord (offset : Wide) (data : Half) (s : State) : Result := wordWrite offset data s

/-- R119 READ_BYTE. -/
def execReadByte (offset : Wide) (s : State) : Result := byteRead offset s

/-- R120 WRITE_BYTE. -/
def execWriteByte (offset : Wide) (data : Byte) (s : State) : Result := byteWrite offset data s

end Sys2Proof.Machine
end

