-- ==== Sys2Proof/Machine/Contracts.lean ====
section
/-! DEFINITION. The BAR contract commands (spec: 45_bar_contracts.md): the reference algorithm of R191 to R197, and
what R190 alone leaves of a device that keeps its own slots (parameter BAR_SLOT_IMPL, log 6). -/

namespace Sys2Proof.Machine

/-- R191: the error of a slot that is not Empty. -/
def occupiedError : Slot → Option Cause
  | .empty => none
  | .bar r _ => if isMemory64 r then some .barInUse64 else some .barInUse
  | .upper64 _ => some .barInUse64

/-- R192: the region in its slot, and for a 64-bit BAR the next slot consumed. -/
def State.place (s : State) (index : Nat) (r : Region) (prefetchable : Bool) : State :=
  if isMemory64 r then (s.setSlot index (.bar r prefetchable)).setSlot (index + 1) (.upper64 index)
  else s.setSlot index (.bar r prefetchable)

/-- R192: ADD_BAR of the reference. -/
def addBarReference (index : Nat) (r : Region) (prefetchable : Bool) (s : State) : Result :=
  if s.params.barSlots ≤ index then raise .barIndex s
  else match occupiedError (s.slotAt index) with
    | some e => raise e s
    | none =>
      if isMemory64 r then
        if s.params.barSlots ≤ index + 1 then raise .barIndex s
        else match occupiedError (s.slotAt (index + 1)) with
          | some e => raise e s
          | none => done (s.place index r prefetchable)
      else done (s.place index r prefetchable)

/-- R190 item 6: whether a free slot has room for the region: a 64-bit BAR takes the next slot too. -/
def State.hasRoom (s : State) (index : Nat) (r : Region) : Bool :=
  !isMemory64 r || (decide (index + 1 < s.params.barSlots) && decide (s.slotAt (index + 1) = .empty))

/-- R190: ADD_BAR of a device that keeps its own slots. Items 2, 3, 4 and 6 bind it; which variant it names, whether
it rejects a BAR it has room for, and why, are free. DEDUCED (log 6): an accepted BAR is placed in the slot model of
10_state.md R27, and stays. -/
def addBarDevice (index : Nat) (r : Region) (prefetchable : Bool) (s : State) : Result :=
  let q := s.slotRequest index (some r) prefetchable
  if s.params.barSlots ≤ index then raise .barIndex s
  else if s.slotAt index ≠ .empty then
    raise (if Config.slotSays64 q then .barInUse64 else .barInUse) s
  else if s.hasRoom index r then
    match Config.slotDecision q with
    | some e => raise e s
    | none => done (s.place index r prefetchable)
  else raise (Config.slotReason q) s

/-- R192 ADD_BAR. -/
def execAddBar (index : BitVec 32) (r : Region) (prefetchable : Bool) (s : State) : Result :=
  match s.params.slotImpl with
  | .reference => addBarReference (slotNumber index) r prefetchable s
  | .deviceDefined => addBarDevice (slotNumber index) r prefetchable s

/-- R196: ADD_ROM_BAR of the reference. -/
def addRomBarReference (r : Region) (enable : Bool) (s : State) : Result :=
  match s.rom with
  | .rom _ _ => raise .romBarInUse s
  | .empty => done (s.setRom (.rom r enable))

/-- R190 item 7: ADD_ROM_BAR of a device that keeps its own slots; it may reject a ROM BAR it has room for. -/
def addRomBarDevice (r : Region) (enable : Bool) (s : State) : Result :=
  match s.rom with
  | .rom _ _ => raise .romBarInUse s
  | .empty =>
    match Config.romDecision (s.slotRequest 0 (some r) enable) with
    | some e => raise e s
    | none => done (s.setRom (.rom r enable))

/-- R196 ADD_ROM_BAR. -/
def execAddRomBar (r : Region) (enable : Bool) (s : State) : Result :=
  match s.params.slotImpl with
  | .reference => addRomBarReference r enable s
  | .deviceDefined => addRomBarDevice r enable s

/-- R194: BAR_ADDRESS of the reference. -/
def barAddressReference (index : Nat) (s : State) : Result :=
  if s.params.barSlots ≤ index then raise .barIndex s
  else match s.slotAt index with
    | .empty => raise .barInvalid s
    | .upper64 _ => raise .barInvalid64 s
    | .bar r _ => returnRegion r s

/-- R190 item 5: BAR_ADDRESS of a device that keeps its own slots. Which variant it names for an unoccupied slot is
free, and so is what it answers for a consumed upper slot: one of the two errors, or the owner's region. -/
def barAddressDevice (index : Nat) (s : State) : Result :=
  let q := s.slotRequest index none false
  let rejection := if Config.slotSays64 q then Cause.barInvalid64 else Cause.barInvalid
  if s.params.barSlots ≤ index then raise .barIndex s
  else match s.slotAt index with
    | .empty => raise rejection s
    | .upper64 owner =>
      match s.slotAt owner with
      | .bar r _ => if Config.upperAnswersOwner q then returnRegion r s else raise rejection s
      | .empty => raise rejection s
      | .upper64 _ => raise rejection s
    | .bar r _ => returnRegion r s

/-- R194 BAR_ADDRESS. -/
def execBarAddress (index : BitVec 32) (s : State) : Result :=
  match s.params.slotImpl with
  | .reference => barAddressReference (slotNumber index) s
  | .deviceDefined => barAddressDevice (slotNumber index) s

/-- R190 item 7, R197 ROM_BAR_ADDRESS: the same for every implementation. -/
def execRomBarAddress (s : State) : Result :=
  match s.rom with
  | .empty => raise .romBarInvalid s
  | .rom r _ => returnRegion r s

end Sys2Proof.Machine
end

