-- ==== Sys2Proof/Machine/Named.lean ====
section
/-! DEFINITION. The named-field reads: each is the word or byte read at its field's offset (spec:
42_named_fields.md R130; offsets and widths of 10_state.md R25). -/

namespace Sys2Proof.Machine

/-- R131 READ_VENDOR_ID. -/
def execReadVendorId (s : State) : Result := wordRead 0x00#64 s

/-- R132 READ_DEVICE_ID. -/
def execReadDeviceId (s : State) : Result := wordRead 0x02#64 s

/-- R133 READ_COMMAND. -/
def execReadCommand (s : State) : Result := wordRead 0x04#64 s

/-- R134 READ_STATUS. -/
def execReadStatus (s : State) : Result := wordRead 0x06#64 s

/-- R135 READ_REVISION_ID. -/
def execReadRevisionId (s : State) : Result := byteRead 0x08#64 s

/-- R136 READ_PROG_IF. -/
def execReadProgIf (s : State) : Result := byteRead 0x09#64 s

/-- R137 READ_SUBCLASS. -/
def execReadSubclass (s : State) : Result := byteRead 0x0A#64 s

/-- R138 READ_CLASS_CODE. -/
def execReadClassCode (s : State) : Result := byteRead 0x0B#64 s

/-- R139 READ_CACHE_LINE_SIZE. -/
def execReadCacheLineSize (s : State) : Result := byteRead 0x0C#64 s

/-- R140 READ_LATENCY_TIMER. -/
def execReadLatencyTimer (s : State) : Result := byteRead 0x0D#64 s

/-- R141 READ_HEADER_TYPE. -/
def execReadHeaderType (s : State) : Result := byteRead 0x0E#64 s

/-- R142 READ_BIST. -/
def execReadBist (s : State) : Result := byteRead 0x0F#64 s

end Sys2Proof.Machine
end

