-- ==== Sys2Proof/Machine/Taxonomies.lean ====
section
/-! DEFINITION. The taxonomy commands over the instance's tables (spec: 44_taxonomy.md R170, R171, R186, R187). -/

namespace Sys2Proof.Machine

/-- R186: the tag of the other member of every taxonomy. -/
def otherTag : Byte := 0xFF#8

/-- Every byte, in order. -/
def allBytes : List Byte := (List.range 256).map (BitVec.ofNat 8)

/-- The bytes that are no member's code; 0xFF where there is none (a table that leaves the other tag free has one). -/
def unusedByte (codes : List Byte) (pick : Nat) : Byte :=
  let free := allBytes.filter fun b => !codes.contains b
  free.getD (pick % free.length) otherTag

/-- R171: the value of the other member: the table's, or where the spec leaves it OPEN a free value outside the
table (log 8). -/
def otherValue (which : TaxonomyId) (t : Taxonomy) : Byte :=
  match t.other with
  | some b => b
  | none => unusedByte t.codes (Config.otherPick which t.codes)

/-- R170, R187: `from`. A code of the table gives its member's tag, every other byte the other member's (a table the
spec rules out still gives an answer, log 23). -/
def taxonomyFrom (t : Taxonomy) (b : Byte) : Byte :=
  if t.codes.contains b then b else otherTag

/-- R170, R187: `value`; none where the tag names no member (R68). -/
def taxonomyValue (which : TaxonomyId) (t : Taxonomy) (tag : Byte) : Option Byte :=
  if tag = otherTag then some (otherValue which t)
  else if t.codes.contains tag then some tag
  else none

/-- The answer of a `*_FROM` command (R68: the tag in `rdata[7:0]`, zero above). -/
def answerFrom (t : Taxonomy) (b : Byte) (s : State) : Result :=
  returnData ((taxonomyFrom t b).setWidth 32) s

/-- The answer of a `*_VALUE` command; a tag that names no member is refused (R74;
DESIGN CHOICE: when the command runs, log 22). -/
def answerValue (which : TaxonomyId) (t : Taxonomy) (tag : Byte) (s : State) : Result :=
  match taxonomyValue which t tag with
  | some v => returnData (v.setWidth 32) s
  | none => .refused (.noSuchMember which tag)

/-- R174 CLASS_FROM. -/
def execClassFrom (b : Byte) (s : State) : Result := answerFrom s.params.classTable b s

/-- R175 CLASS_VALUE. -/
def execClassValue (tag : Byte) (s : State) : Result := answerValue .classCode s.params.classTable tag s

/-- R177 BRIDGE_SUBCLASS_FROM. -/
def execBridgeSubclassFrom (b : Byte) (s : State) : Result := answerFrom s.params.bridgeTable b s

/-- R178 BRIDGE_SUBCLASS_VALUE. -/
def execBridgeSubclassValue (tag : Byte) (s : State) : Result :=
  answerValue .bridgeSubclass s.params.bridgeTable tag s

/-- R180 CAPID_FROM. -/
def execCapidFrom (b : Byte) (s : State) : Result := answerFrom s.params.capidTable b s

/-- R181 CAPID_VALUE. -/
def execCapidValue (tag : Byte) (s : State) : Result := answerValue .capabilityId s.params.capidTable tag s

/-- R183 HDRTYPE_FROM. -/
def execHdrtypeFrom (b : Byte) (s : State) : Result := answerFrom s.params.hdrtypeTable b s

/-- R184 HDRTYPE_VALUE. -/
def execHdrtypeValue (tag : Byte) (s : State) : Result := answerValue .headerType s.params.hdrtypeTable tag s

end Sys2Proof.Machine
end

