-- ==== Sys2Proof/Machine/Dispatch.lean ====
section
/-! DEFINITION. One arm per command (spec: 30_encoding.md R69), each one call of its meaning. -/

namespace Sys2Proof.Machine

def exec (i : Instr) (s : State) : Host.Outcome State Fault Refusal :=
  match i with
  | .validateAlign a => Sys2Proof.Machine.execValidateAlign a s
  | .readDword a => Sys2Proof.Machine.execReadDword a s
  | .writeDword a d => Sys2Proof.Machine.execWriteDword a d s
  | .readWord a => Sys2Proof.Machine.execReadWord a s
  | .writeWord a d => Sys2Proof.Machine.execWriteWord a d s
  | .readByte a => Sys2Proof.Machine.execReadByte a s
  | .writeByte a d => Sys2Proof.Machine.execWriteByte a d s
  | .readVendorId => Sys2Proof.Machine.execReadVendorId s
  | .readDeviceId => Sys2Proof.Machine.execReadDeviceId s
  | .readCommand => Sys2Proof.Machine.execReadCommand s
  | .readStatus => Sys2Proof.Machine.execReadStatus s
  | .readRevisionId => Sys2Proof.Machine.execReadRevisionId s
  | .readProgIf => Sys2Proof.Machine.execReadProgIf s
  | .readSubclass => Sys2Proof.Machine.execReadSubclass s
  | .readClassCode => Sys2Proof.Machine.execReadClassCode s
  | .readCacheLineSize => Sys2Proof.Machine.execReadCacheLineSize s
  | .readLatencyTimer => Sys2Proof.Machine.execReadLatencyTimer s
  | .readHeaderType => Sys2Proof.Machine.execReadHeaderType s
  | .readBist => Sys2Proof.Machine.execReadBist s
  | .newIoRegion a l => Sys2Proof.Machine.execNewIoRegion a l s
  | .newMem32Region a l => Sys2Proof.Machine.execNewMem32Region a l s
  | .newMem64Region a l => Sys2Proof.Machine.execNewMem64Region a l s
  | .regionEq rA rB => Sys2Proof.Machine.execRegionEq rA rB s
  | .classFrom b => Sys2Proof.Machine.execClassFrom b s
  | .classValue t => Sys2Proof.Machine.execClassValue t s
  | .bridgeSubclassFrom b => Sys2Proof.Machine.execBridgeSubclassFrom b s
  | .bridgeSubclassValue t => Sys2Proof.Machine.execBridgeSubclassValue t s
  | .capidFrom b => Sys2Proof.Machine.execCapidFrom b s
  | .capidValue t => Sys2Proof.Machine.execCapidValue t s
  | .hdrtypeFrom b => Sys2Proof.Machine.execHdrtypeFrom b s
  | .hdrtypeValue t => Sys2Proof.Machine.execHdrtypeValue t s
  | .addBar k r p => Sys2Proof.Machine.execAddBar k r p s
  | .addRomBar r e => Sys2Proof.Machine.execAddRomBar r e s
  | .barAddress k => Sys2Proof.Machine.execBarAddress k s
  | .romBarAddress => Sys2Proof.Machine.execRomBarAddress s

end Sys2Proof.Machine
end

