-- ==== Sys2Proof/Machine/Step.lean ====
section
/-! DEFINITION. One step is one command, complete before the next (spec: 10_state.md R23, 20_memory.md R52,
70_reset_and_hazards.md R261). -/

namespace Sys2Proof.Machine

/-- The model's own counter moves on (log 13). -/
def State.tick (s : State) : State := { s with now := s.now + 1 }

/-- The requester's remaining commands. -/
def State.withCommands (s : State) (cs : List Command) : State := { s with commands := cs }

/-- The command on the ports is decoded and run; one that cannot be decoded is refused (R74). With no command on
the ports nothing happens (log 9). -/
def step (s : State) : Host.Outcome State Fault Refusal :=
  match s.commands with
  | [] => .next s.tick
  | c :: rest =>
    match decode c with
    | .error why => .refused (.undecodable why)
    | .ok i => exec i (s.tick.withCommands rest)

/-- The instance with an opcode-table word on the command ports, ahead of whatever the requester had to present
(log 9). -/
def State.withFetchWord (s : State) (nbits w : Nat) : State :=
  s.withCommands (Command.ofTableWord nbits w :: s.commands)

end Sys2Proof.Machine
end

