-- ==== Sys2Proof/Machine/Assembler.lean ====
section
/-! DEFINITION. The assembly form of a command (spec: 30_encoding.md R76) and the pseudo-instructions that write the
named fields (R77). The block never sees this form; the assembler gives the command ports (log 17). -/

namespace Sys2Proof.Machine

/-- R76: the mnemonic of a command. -/
def mnemonic : Opcode → String
  | .validateAlign => "validate_align"
  | .readDword => "read_dword"
  | .writeDword => "write_dword"
  | .readWord => "read_word"
  | .writeWord => "write_word"
  | .readByte => "read_byte"
  | .writeByte => "write_byte"
  | .readVendorId => "read_vendor_id"
  | .readDeviceId => "read_device_id"
  | .readCommand => "read_command"
  | .readStatus => "read_status"
  | .readRevisionId => "read_revision_id"
  | .readProgIf => "read_prog_if"
  | .readSubclass => "read_subclass"
  | .readClassCode => "read_class_code"
  | .readCacheLineSize => "read_cache_line_size"
  | .readLatencyTimer => "read_latency_timer"
  | .readHeaderType => "read_header_type"
  | .readBist => "read_bist"
  | .newIoRegion => "new_io_region"
  | .newMem32Region => "new_mem32_region"
  | .newMem64Region => "new_mem64_region"
  | .regionEq => "region_eq"
  | .classFrom => "class_from"
  | .classValue => "class_value"
  | .bridgeSubclassFrom => "bridge_subclass_from"
  | .bridgeSubclassValue => "bridge_subclass_value"
  | .capidFrom => "capid_from"
  | .capidValue => "capid_value"
  | .hdrtypeFrom => "hdrtype_from"
  | .hdrtypeValue => "hdrtype_value"
  | .addBar => "add_bar"
  | .addRomBar => "add_rom_bar"
  | .barAddress => "bar_address"
  | .romBarAddress => "rom_bar_address"

/-- R61: the operand ports by name. -/
inductive Port where
  | offset | data | addr | len | rA | rB | index | flag
deriving DecidableEq, Repr

/-- R76: the operands of a command in their written order, each by the port it goes to. -/
def writtenPorts : Opcode → List Port
  | .validateAlign | .readDword | .readWord | .readByte => [.offset]
  | .writeDword | .writeWord | .writeByte => [.offset, .data]
  | .readVendorId | .readDeviceId | .readCommand | .readStatus | .readRevisionId | .readProgIf
  | .readSubclass | .readClassCode | .readCacheLineSize | .readLatencyTimer | .readHeaderType
  | .readBist => []
  | .newIoRegion | .newMem32Region | .newMem64Region => [.addr, .len]
  | .regionEq => [.rA, .rB]
  | .classFrom | .classValue | .bridgeSubclassFrom | .bridgeSubclassValue
  | .capidFrom | .capidValue | .hdrtypeFrom | .hdrtypeValue => [.data]
  | .addBar => [.index, .rA, .flag]
  | .addRomBar => [.rA, .flag]
  | .barAddress => [.index]
  | .romBarAddress => []

/-- R76: an operand as written. -/
inductive AsmOperand where
  | number (n : Nat)
  | region (kind : BitVec 2) (addr len : Nat)
deriving DecidableEq, Repr

/-- A number on a port of `w` bits; one that does not fit is no operand. -/
def portValue (w n : Nat) : Option (BitVec w) :=
  if n < 2 ^ w then some (BitVec.ofNat w n) else none

/-- A written region as the triple on a port. -/
def portRegion (kind : BitVec 2) (addr len : Nat) : Option RegionPort :=
  match portValue 64 addr, portValue 64 len with
  | some a, some l => some { kind := kind, addr := a, len := l }
  | _, _ => none

/-- The command with one operand on its port. -/
def setPort (c : Command) : Port → AsmOperand → Option Command
  | .offset, .number n => (portValue 64 n).map fun v => { c with offset := v }
  | .data, .number n => (portValue 32 n).map fun v => { c with data := v }
  | .addr, .number n => (portValue 64 n).map fun v => { c with addr := v }
  | .len, .number n => (portValue 64 n).map fun v => { c with len := v }
  | .index, .number n => (portValue 32 n).map fun v => { c with index := v }
  | .flag, .number n => if n = 0 then some { c with flag := false } else if n = 1 then some { c with flag := true } else none
  | .rA, .region k a l => (portRegion k a l).map fun v => { c with rA := v }
  | .rB, .region k a l => (portRegion k a l).map fun v => { c with rB := v }
  | _, _ => none

/-- The command with its operands on their ports, as many operands as ports. -/
def setPorts (c : Command) : List Port → List AsmOperand → Option Command
  | [], [] => some c
  | p :: ps, o :: os => (setPort c p o).bind fun c' => setPorts c' ps os
  | _, _ => none

/-- R77: a pseudo-instruction's command and offset. -/
def pseudoWrite (name : List Char) : Option (Opcode × Nat) :=
  ([("write_vendor_id", Opcode.writeWord, 0x00), ("write_device_id", .writeWord, 0x02),
    ("write_command", .writeWord, 0x04), ("write_status", .writeWord, 0x06),
    ("write_revision_id", .writeByte, 0x08), ("write_prog_if", .writeByte, 0x09),
    ("write_subclass", .writeByte, 0x0A), ("write_class_code", .writeByte, 0x0B),
    ("write_cache_line_size", .writeByte, 0x0C), ("write_latency_timer", .writeByte, 0x0D),
    ("write_header_type", .writeByte, 0x0E), ("write_bist", .writeByte, 0x0F)].find?
      fun row => row.1.toList == name).map fun row => row.2

/-- R76: the command a mnemonic names. -/
def namedOpcode (name : List Char) : Option Opcode :=
  Opcode.all.find? fun o => (mnemonic o).toList == name

/-- R76, R77: a mnemonic with its operands; a pseudo-instruction is the write it stands for. -/
def assembleParts (name : List Char) (operands : List AsmOperand) : Option Command :=
  match namedOpcode name with
  | some o => setPorts (Command.bare o) (writtenPorts o) operands
  | none =>
    match pseudoWrite name with
    | some (o, offset) => setPorts (Command.bare o) (writtenPorts o) (.number offset :: operands)
    | none => none

/-- One digit of base 10 or 16. -/
def digitValue (base : Nat) (c : Char) : Option Nat :=
  let v :=
    if '0' ≤ c ∧ c ≤ '9' then c.toNat - '0'.toNat
    else if 'a' ≤ c ∧ c ≤ 'f' then c.toNat - 'a'.toNat + 10
    else if 'A' ≤ c ∧ c ≤ 'F' then c.toNat - 'A'.toNat + 10
    else base
  if v < base then some v else none

/-- The digits of a number, most significant first, added to the value read so far. -/
def readDigits (base value : Nat) : List Char → Option Nat
  | [] => some value
  | c :: cs => (digitValue base c).bind fun d => readDigits base (value * base + d) cs

/-- R76: C hex or decimal, the digit separator `_` accepted and ignored. -/
def readNumber (text : List Char) : Option Nat :=
  match text.filter (· != '_') with
  | '0' :: 'x' :: c :: cs => readDigits 16 0 (c :: cs)
  | '0' :: 'X' :: c :: cs => readDigits 16 0 (c :: cs)
  | c :: cs => readDigits 10 0 (c :: cs)
  | [] => none

/-- A written line's pieces. -/
inductive Token where
  | word (text : List Char)
  | comma
  | openParen
  | closeParen
deriving DecidableEq, Repr

/-- The pieces of a line; `word` is the part of a word read so far. -/
def tokensFrom (word : List Char) : List Char → List Token
  | [] => if word = [] then [] else [.word word]
  | c :: cs =>
    let flushed := if word = [] then [] else [Token.word word]
    if c = ' ' ∨ c = '\t' then flushed ++ tokensFrom [] cs
    else if c = ',' then flushed ++ .comma :: tokensFrom [] cs
    else if c = '(' then flushed ++ .openParen :: tokensFrom [] cs
    else if c = ')' then flushed ++ .closeParen :: tokensFrom [] cs
    else tokensFrom (word ++ [c]) cs

/-- R76: a written region's kind code. -/
def regionWord (text : List Char) : Option (BitVec 2) :=
  if text = "io".toList then some 0#2
  else if text = "mem32".toList then some 1#2
  else if text = "mem64".toList then some 2#2
  else none

/-- R76: `io(ADDR, LEN)`, `mem32(ADDR, LEN)` or `mem64(ADDR, LEN)`. -/
def readRegion (kind addr len : List Char) : Option AsmOperand :=
  match regionWord kind, readNumber addr, readNumber len with
  | some k, some a, some l => some (.region k a l)
  | _, _, _ => none

/-- R76: one or more comma-separated operands. -/
def readOperands : List Token → Option (List AsmOperand)
  | [.word k, .openParen, .word a, .comma, .word l, .closeParen] =>
    (readRegion k a l).map fun o => [o]
  | .word k :: .openParen :: .word a :: .comma :: .word l :: .closeParen :: .comma :: rest =>
    (readRegion k a l).bind fun o => (readOperands rest).map fun os => o :: os
  | [.word n] => (readNumber n).map fun v => [.number v]
  | .word n :: .comma :: rest =>
    (readNumber n).bind fun v => (readOperands rest).map fun os => .number v :: os
  | _ => none

/-- R76, R77: one line of assembly as a command on the ports; none where it is not in the syntax. -/
def assemble (line : List Char) : Option Command :=
  match tokensFrom [] line with
  | [.word name] => assembleParts name []
  | .word name :: rest => (readOperands rest).bind fun os => assembleParts name os
  | _ => none

end Sys2Proof.Machine
end

