-- ==== Sys2Proof/Machine/HeaderLayout.lean ====
section
/-! DEFINITION. The header fields and public offsets (spec: 10_state.md R25, R26) and the two header layouts, which
are informational (R32, R33: nothing in the block depends on them; PRESUMED by the spec from general knowledge,
log 20). -/

namespace Sys2Proof.Machine

/-- A field of a header: its name, byte offset and width in bytes. -/
structure HeaderField where
  name   : String
  offset : Nat
  bytes  : Nat
deriving DecidableEq, Repr

/-- R25: the fields both header types share. -/
def namedFields : List HeaderField :=
  [⟨"vendor id", 0x00, 2⟩, ⟨"device id", 0x02, 2⟩, ⟨"command", 0x04, 2⟩, ⟨"status", 0x06, 2⟩,
   ⟨"revision id", 0x08, 1⟩, ⟨"prog-if", 0x09, 1⟩, ⟨"subclass", 0x0A, 1⟩, ⟨"class code", 0x0B, 1⟩,
   ⟨"cache-line-size", 0x0C, 1⟩, ⟨"latency-timer", 0x0D, 1⟩, ⟨"header-type", 0x0E, 1⟩, ⟨"BIST", 0x0F, 1⟩]

/-- R26: the byte offset of BAR slot `k`'s register. -/
def barOffset (k : Nat) : Nat := 0x10 + 4 * k

/-- R26: the byte offset of the ROM BAR's register. -/
def romBarOffset : HdrKind → Nat
  | .device => 0x30
  | .bridge => 0x38

/-- R26: the byte offset of the capabilities pointer, the same for both kinds. -/
def capabilitiesPointerOffset : Nat := 0x34

/-- R32: the rest of the type-0 header. -/
def deviceHeaderFields : List HeaderField :=
  [⟨"BAR0", 0x10, 4⟩, ⟨"BAR1", 0x14, 4⟩, ⟨"BAR2", 0x18, 4⟩, ⟨"BAR3", 0x1C, 4⟩, ⟨"BAR4", 0x20, 4⟩,
   ⟨"BAR5", 0x24, 4⟩, ⟨"CardBus CIS pointer", 0x28, 4⟩, ⟨"subsystem vendor id", 0x2C, 2⟩,
   ⟨"subsystem id", 0x2E, 2⟩, ⟨"expansion ROM base address", 0x30, 4⟩, ⟨"capabilities pointer", 0x34, 1⟩,
   ⟨"reserved", 0x35, 7⟩, ⟨"interrupt line", 0x3C, 1⟩, ⟨"interrupt pin", 0x3D, 1⟩, ⟨"min_gnt", 0x3E, 1⟩,
   ⟨"max_lat", 0x3F, 1⟩]

/-- R33: the rest of the type-1 header. -/
def bridgeHeaderFields : List HeaderField :=
  [⟨"BAR0", 0x10, 4⟩, ⟨"BAR1", 0x14, 4⟩, ⟨"primary bus number", 0x18, 1⟩, ⟨"secondary bus number", 0x19, 1⟩,
   ⟨"subordinate bus number", 0x1A, 1⟩, ⟨"secondary latency timer", 0x1B, 1⟩, ⟨"I/O base", 0x1C, 1⟩,
   ⟨"I/O limit", 0x1D, 1⟩, ⟨"secondary status", 0x1E, 2⟩, ⟨"memory base", 0x20, 2⟩, ⟨"memory limit", 0x22, 2⟩,
   ⟨"prefetchable memory base", 0x24, 2⟩, ⟨"prefetchable memory limit", 0x26, 2⟩,
   ⟨"prefetchable base upper 32 bits", 0x28, 4⟩, ⟨"prefetchable limit upper 32 bits", 0x2C, 4⟩,
   ⟨"I/O base upper 16 bits", 0x30, 2⟩, ⟨"I/O limit upper 16 bits", 0x32, 2⟩, ⟨"capabilities pointer", 0x34, 1⟩,
   ⟨"expansion ROM base address", 0x38, 4⟩, ⟨"interrupt line", 0x3C, 1⟩, ⟨"interrupt pin", 0x3D, 1⟩,
   ⟨"bridge control", 0x3E, 2⟩]

/-- R32, R33: the layout of a header kind. -/
def headerFields : HdrKind → List HeaderField
  | .device => namedFields ++ deviceHeaderFields
  | .bridge => namedFields ++ bridgeHeaderFields

end Sys2Proof.Machine
end

