-- ==== Sys2Proof/Safety.lean ====
section
/-! DEFINITION. The terms the statements use: what an outcome answered, and when a state is one a run keeps
(10_state.md R27; 44_taxonomy.md R171; 45_bar_contracts.md R199). -/

namespace Sys2Proof.Machine

/-- The state a step or a command went on to. -/
def nextState (o : Result) : Option State :=
  match o with
  | .next t => some t
  | .fault _ => none
  | .refused _ => none

/-- The response that then stands on the ports. -/
def responseOf (o : Result) : Option Response := (nextState o).bind State.resp

/-- R171, R186: no member's code is the other member's tag or its value. -/
def Taxonomy.wf (t : Taxonomy) : Prop :=
  otherTag ∉ t.codes ∧ ∀ b, t.other = some b → b ∉ t.codes

/-- The four tables of an instance are ones the spec allows. -/
def Params.tablesWf (p : Params) : Prop :=
  Taxonomy.wf p.classTable ∧ Taxonomy.wf p.bridgeTable ∧ Taxonomy.wf p.capidTable ∧ Taxonomy.wf p.hdrtypeTable

/-- What every step keeps. -/
structure State.Inv (s : State) : Prop where
  /-- The memory is in its canonical form. -/
  memCanonical : s.mem.wf = true
  /-- R47: no byte is listed beyond the store. -/
  memInside : s.mem.below (4 * s.params.cfgRegs) = true
  /-- R27: the table has `BAR_SLOTS` slots. -/
  slotCount : s.slots.length = s.params.barSlots
  /-- R199, of the reference: a slot is `Upper64(j)` exactly when it is the next after `j` and `j` holds a 64-bit BAR.
  Of a device that keeps its own slots it is the model's choice (R190 item 6, log 6). -/
  paired : ∀ k j, s.slotAt k = .upper64 j ↔
    k = j + 1 ∧ ∃ r p, s.slotAt j = .bar r p ∧ isMemory64 r = true
  /-- R66: a slot holds a region some constructor returned. -/
  slotRegions : ∀ k r p, s.slotAt k = .bar r p → constructible r = true
  /-- R66: so does the ROM slot. -/
  romRegion : ∀ r e, s.rom = .rom r e → constructible r = true
  /-- R171: the tables are ones the spec allows. -/
  tables : Params.tablesWf s.params

end Sys2Proof.Machine
end

