-- ==== Sys2Proof/Certificates/Slice0/Obligations.lean ====
section
/-! DEFINITION. The statements for the provers. Each says in its docstring which rule of spec/ it formalises, or that
it is derived, and which log entry (notes/assumptions) a clause rests on. -/

open Sys2Proof Sys2Proof.Machine

/-! ## Encoding -/

/-- Derived (30_encoding.md R61, R64 to R69): no operand value is lost by encoding and decoding. -/
def Obligations.DecodeOfEncodeIsTheInstruction : Prop :=
  ∀ i : Instr, i.wellFormed = true → decode (encode i) = .ok i

/-- Derived (30_encoding.md R61, R66, R69): what is decoded has well-formed operands, and encoding it gives back
every port its command reads. -/
def Obligations.EncodeOfDecodedIsTheListedPorts : Prop :=
  ∀ (c : Command) (i : Instr), decode c = .ok i → i.wellFormed = true ∧ encode i = c.listedOnly

/-- R61: "A command reads only the ports listed for it. It ignores the others." Two commands that agree on the
listed ports take every state to the same outcome. -/
def Obligations.UnlistedPortsAreIgnored : Prop :=
  ∀ (s : State) (c d : Command) (rest : List Command), c.listedOnly = d.listedOnly →
    step (s.withCommands (c :: rest)) = step (s.withCommands (d :: rest))

/-- R73: the reserved values of `op`, and no others, select no command. -/
def Obligations.ReservedOpsAreRefused : Prop :=
  ∀ (s : State) (c : Command) (rest : List Command),
    let reserved := (0x07 ≤ c.op.toNat ∧ c.op.toNat ≤ 0x0F) ∨ (0x1C ≤ c.op.toNat ∧ c.op.toNat ≤ 0x1F) ∨
      (0x24 ≤ c.op.toNat ∧ c.op.toNat ≤ 0x2F) ∨ (0x38 ≤ c.op.toNat ∧ c.op.toNat ≤ 0x3F) ∨ 0x44 ≤ c.op.toNat
    (reserved → step (s.withCommands (c :: rest)) = .refused (.undecodable (.reservedOp c.op))) ∧
    (¬ reserved → decode c ≠ .error (.reservedOp c.op))

/-- R64: the typed widths of the data operands. -/
def Obligations.DataOperandsHaveTheirTypes : Prop :=
  ∀ (s : State) (c : Command) (rest : List Command),
    let refusedAsTooWide := step (s.withCommands (c :: rest)) = .refused (.undecodable (.dataTooWide c.data))
    (c.op = 0x02#8 → decode c = .ok (.writeDword c.offset c.data)) ∧
    (c.op = 0x04#8 → 2 ^ 16 ≤ c.data.toNat → refusedAsTooWide) ∧
    (c.op = 0x04#8 → c.data.toNat < 2 ^ 16 →
      ∃ w : Half, w.toNat = c.data.toNat ∧ decode c = .ok (.writeWord c.offset w)) ∧
    (c.op = 0x06#8 → 2 ^ 8 ≤ c.data.toNat → refusedAsTooWide) ∧
    (c.op = 0x06#8 → c.data.toNat < 2 ^ 8 →
      ∃ b : Byte, b.toNat = c.data.toNat ∧ decode c = .ok (.writeByte c.offset b)) ∧
    (c.op = 0x30#8 ∨ c.op = 0x32#8 ∨ c.op = 0x34#8 ∨ c.op = 0x36#8 → 2 ^ 8 ≤ c.data.toNat → refusedAsTooWide) ∧
    (c.data.toNat < 2 ^ 8 → ∃ b : Byte, b.toNat = c.data.toNat ∧
      (c.op = 0x30#8 → decode c = .ok (.classFrom b)) ∧
      (c.op = 0x32#8 → decode c = .ok (.bridgeSubclassFrom b)) ∧
      (c.op = 0x34#8 → decode c = .ok (.capidFrom b)) ∧
      (c.op = 0x36#8 → decode c = .ok (.hdrtypeFrom b)))

/-- R65: the operand widths of the constructors. -/
def Obligations.ConstructorOperandsHaveTheirTypes : Prop :=
  ∀ (s : State) (c : Command) (rest : List Command),
    (c.op = 0x20#8 ∨ c.op = 0x21#8 → 2 ^ 32 ≤ c.addr.toNat ∨ 2 ^ 32 ≤ c.len.toNat →
      ∃ v, step (s.withCommands (c :: rest)) = .refused (.undecodable (.operandTooWide v))) ∧
    (c.addr.toNat < 2 ^ 32 → c.len.toNat < 2 ^ 32 →
      ∃ a l : Reg, a.toNat = c.addr.toNat ∧ l.toNat = c.len.toNat ∧
        (c.op = 0x20#8 → decode c = .ok (.newIoRegion a l)) ∧
        (c.op = 0x21#8 → decode c = .ok (.newMem32Region a l))) ∧
    (c.op = 0x22#8 → decode c = .ok (.newMem64Region c.addr c.len))

/-- R66: the regions a command can carry, and that every command with another one is refused. -/
def Obligations.RegionOperandsAreChecked : Prop :=
  (∀ p : RegionPort, (∃ r, regionOperand p = .ok r) ↔
    (p.kind = 0#2 ∨ p.kind = 1#2 ∨ p.kind = 2#2) ∧
    (p.kind = 0#2 ∨ p.kind = 1#2 → p.addr.toNat < 2 ^ 32 ∧ p.len.toNat < 2 ^ 32 ∧
      p.addr.toNat + p.len.toNat ≤ 2 ^ 32 - 1) ∧
    (p.kind = 2#2 → p.addr.toNat + p.len.toNat ≤ 2 ^ 64 - 1) ∧
    p.addr.toNat % 4 = 0) ∧
  (∀ (s : State) (c : Command) (rest : List Command),
    (c.op = 0x23#8 ∧ ((¬ ∃ r, regionOperand c.rA = .ok r) ∨ ¬ ∃ r, regionOperand c.rB = .ok r)) ∨
    ((c.op = 0x40#8 ∨ c.op = 0x41#8) ∧ ¬ ∃ r, regionOperand c.rA = .ok r) →
    ∃ p, step (s.withCommands (c :: rest)) = .refused (.undecodable (.noSuchRegion p)))

/-- Derived (R66, R150, R159): the regions a command can carry are exactly the ones some constructor returns, from
every state. -/
def Obligations.RegionOperandsAreWhatConstructorsReturn : Prop :=
  ∀ (p : RegionPort) (s : State), (∃ r, regionOperand p = .ok r) ↔
    ∃ i : Instr, ((∃ a l, i = .newIoRegion a l) ∨ (∃ a l, i = .newMem32Region a l) ∨
      ∃ a l, i = .newMem64Region a l) ∧ (responseOf (exec i s)).bind Response.rregion = some p

/-- R67: every slot index is accepted at decode, and `flag` is the boolean of the command. -/
def Obligations.IndexAndFlagAreTakenAsTheyAre : Prop :=
  ∀ (c : Command) (r : Region),
    (c.op = 0x40#8 → regionOperand c.rA = .ok r → decode c = .ok (.addBar c.index r c.flag)) ∧
    (c.op = 0x41#8 → regionOperand c.rA = .ok r → decode c = .ok (.addRomBar r c.flag)) ∧
    (c.op = 0x42#8 → decode c = .ok (.barAddress c.index))

/-- R69, a few rows: sanity. -/
def Obligations.KnownOpsDecode : Prop :=
  decodeTableWord 8 0x00 = some (.validateAlign 0) ∧ decodeTableWord 8 0x06 = some (.writeByte 0 0) ∧
  decodeTableWord 8 0x1A = some .readHeaderType ∧ decodeTableWord 8 0x22 = some (.newMem64Region 0 0) ∧
  decodeTableWord 8 0x37 = some (.hdrtypeValue 0) ∧ decodeTableWord 8 0x43 = some .romBarAddress ∧
  decodeTableWord 8 0x44 = none

/-! ## The step -/

/-- Derived (10_state.md R23, 20_memory.md R52): the command on the ports is the one that runs, on the state without
it; the model's own counter `now` moves on (log 13). -/
def Obligations.StepRunsTheDecodedCommand : Prop :=
  ∀ (s : State) (c : Command) (rest : List Command) (i : Instr), s.commands = c :: rest → decode c = .ok i →
    step s = exec i { s with commands := rest, now := s.now + 1 }

/-- Derived (30_encoding.md R74; the outcome as the refusal mark is log 10): a command without a meaning is refused,
so there is no next state and no response. -/
def Obligations.UndecodableCommandIsRefused : Prop :=
  ∀ (s : State) (c : Command) (rest : List Command) (why : DecodeRefusal), s.commands = c :: rest →
    decode c = .error why → step s = .refused (.undecodable why)

/-- Derived, the model's choice (log 9): with no command presented a step changes only the model's own counter. -/
def Obligations.NoCommandNoEffect : Prop :=
  ∀ s : State, s.commands = [] → step s = .next { s with now := s.now + 1 }

/-- Derived (70_reset_and_hazards.md R251, R252; 93_implementation_defined.md I4): the parameters are fixed for the
whole run, and `INIT_REGS` stand until written: while no store write has been made, no step changes what any register
holds. Of a device's own store, the model's reading (log 4): its registers may change too once a BAR is there to commit
to them (45_bar_contracts.md R198), and, where its reads have side effects (20_memory.md R46), by a read. -/
def Obligations.ParametersNeverChange : Prop :=
  ∀ s t : State, step s = .next t → t.params = s.params ∧
    let noWrite := ∀ k v, StoreAccess.write k v ∉ t.trace
    let noBar := (∀ v ∈ t.slots, v = .empty) ∧ t.rom = .empty
    (s.params.store = .plain → noWrite → ∀ i, t.regValue i = s.regValue i) ∧
    (s.params.store = .device false → noWrite → noBar → ∀ i, t.regValue i = s.regValue i) ∧
    (s.params.store = .device true → t.trace = [] → noBar → ∀ i, t.regValue i = s.regValue i)

/-- Derived (70_reset_and_hazards.md R261, 30_encoding.md R74): every command finishes in one step. The only commands
that do not answer are the `*_VALUE` commands whose tag names no member (R74). -/
def Obligations.EveryCommandAnswers : Prop :=
  ∀ (i : Instr) (s : State), (∃ t, exec i s = .next t ∧ t.resp.isSome) ∨
    ∃ which tag, exec i s = .refused (.noSuchMember which tag) ∧ tag ≠ 0xFF#8 ∧
      ((i = .classValue tag ∧ tag ∉ s.params.classTable.codes) ∨
       (i = .bridgeSubclassValue tag ∧ tag ∉ s.params.bridgeTable.codes) ∨
       (i = .capidValue tag ∧ tag ∉ s.params.capidTable.codes) ∨
       (i = .hdrtypeValue tag ∧ tag ∉ s.params.hdrtypeTable.codes))

/-! ## The store and its bytes -/

/-- R40: configuration space is little-endian: the lane of a byte, the half of a word, and the order of the bytes in
a word; the first for the bytes the plain store holds, the others for what any store's read gives. -/
def Obligations.ConfigurationSpaceIsLittleEndian : Prop :=
  ∀ s : State,
    (s.params.store = .plain →
      ∀ o : Nat, (s.mem.read o).toNat = (s.regValue (o / 4)).toNat / 2 ^ (8 * (o % 4)) % 256) ∧
    (∀ o : Wide, o.toNat / 4 < s.params.cfgRegs → ∃ b : Reg,
      responseOf (exec (.readByte o) s) = some { status := .ok, rdata := some b } ∧
      b.toNat = (s.regValue (o.toNat / 4)).toNat / 2 ^ (8 * (o.toNat % 4)) % 256) ∧
    (∀ o : Wide, o.toNat % 2 = 0 → o.toNat / 4 < s.params.cfgRegs → ∃ v low high : Reg,
      responseOf (exec (.readWord o) s) = some { status := .ok, rdata := some v } ∧
      (o.toNat % 4 = 0 → v.toNat = (s.regValue (o.toNat / 4)).toNat % 2 ^ 16) ∧
      (o.toNat % 4 = 2 → v.toNat = (s.regValue (o.toNat / 4)).toNat / 2 ^ 16) ∧
      responseOf (exec (.readByte o) s) = some { status := .ok, rdata := some low } ∧
      responseOf (exec (.readByte (o + 1#64)) s) = some { status := .ok, rdata := some high } ∧
      v.toNat = low.toNat + 256 * high.toNat)

/-- Derived (10_state.md R22): a plain-store read has no side effect on the registers, a plain-store write replaces
the whole register and no other. -/
def Obligations.PlainStoreIsAnArrayOfRegisters : Prop :=
  ∀ (s : State) (i j : Nat) (v : Reg), s.params.store = .plain → s.mem.wf = true →
    (i < s.params.cfgRegs →
      storeRead i s = some (s.regValue i, s.noteRead i) ∧ (s.noteRead i).regValue j = s.regValue j ∧
      storeWrite i v s = some (s.putReg i v) ∧
      (s.putReg i v).regValue j = if j = i then v else s.regValue j) ∧
    (s.params.cfgRegs ≤ i → storeRead i s = none ∧ storeWrite i v s = none)

/-- Derived (20_memory.md R41): the mixed-width views of one register agree. -/
def Obligations.MixedWidthViewsAgree : Prop :=
  ∀ (s : State) (o : Wide), s.params.store = .plain → o.toNat % 4 = 0 → o.toNat / 4 < s.params.cfgRegs →
    ∃ d w0 w2 b0 b1 b2 b3 : Reg,
      responseOf (exec (.readDword o) s) = some { status := .ok, rdata := some d } ∧
      responseOf (exec (.readWord o) s) = some { status := .ok, rdata := some w0 } ∧
      responseOf (exec (.readWord (o + 2#64)) s) = some { status := .ok, rdata := some w2 } ∧
      responseOf (exec (.readByte o) s) = some { status := .ok, rdata := some b0 } ∧
      responseOf (exec (.readByte (o + 1#64)) s) = some { status := .ok, rdata := some b1 } ∧
      responseOf (exec (.readByte (o + 2#64)) s) = some { status := .ok, rdata := some b2 } ∧
      responseOf (exec (.readByte (o + 3#64)) s) = some { status := .ok, rdata := some b3 } ∧
      d.toNat = w2.toNat * 2 ^ 16 + w0.toNat ∧ w0.toNat = b1.toNat * 2 ^ 8 + b0.toNat ∧
      w2.toNat = b3.toNat * 2 ^ 8 + b2.toNat ∧ b0.toNat < 256 ∧ b1.toNat < 256 ∧ b2.toNat < 256 ∧ b3.toNat < 256

/-- R44: the store accesses of each successful command, in their order (`trace` is newest first, log 12). -/
def Obligations.StoreAccessesOfEachCommand : Prop :=
  ∀ (i : Instr) (s t : State), exec i s = .next t → t.resp.map Response.status = some .ok →
    match i with
    | .readDword o | .readWord o | .readByte o => t.trace = .read (o.toNat / 4) :: s.trace
    | .readVendorId | .readDeviceId => t.trace = .read 0 :: s.trace
    | .readCommand | .readStatus => t.trace = .read 1 :: s.trace
    | .readRevisionId | .readProgIf | .readSubclass | .readClassCode => t.trace = .read 2 :: s.trace
    | .readCacheLineSize | .readLatencyTimer | .readHeaderType | .readBist => t.trace = .read 3 :: s.trace
    | .writeDword o v => t.trace = .write (o.toNat / 4) v :: s.trace
    | .writeWord o _ | .writeByte o _ =>
      ∃ merged, t.trace = .write (o.toNat / 4) merged :: .read (o.toNat / 4) :: s.trace
    | .validateAlign _ | .newIoRegion _ _ | .newMem32Region _ _ | .newMem64Region _ _ | .regionEq _ _
    | .classFrom _ | .classValue _ | .bridgeSubclassFrom _ | .bridgeSubclassValue _ | .capidFrom _
    | .capidValue _ | .hdrtypeFrom _ | .hdrtypeValue _ | .addBar _ _ _ | .addRomBar _ _ | .barAddress _
    | .romBarAddress => t.trace = s.trace

/-- Derived (20_memory.md R46, 45_bar_contracts.md R198, 10_state.md R27): the frame of every command that is not a
codec write. No byte that `mem` holds changes; slots change only by ADD_BAR, the ROM slot only by ADD_ROM_BAR; the
parameters, the waiting commands and the counter never. For a device that keeps its own slots the clauses on slots and
ROM slot are the model's choice (log 6). -/
def Obligations.CommandsThatDoNotWriteTheStore : Prop :=
  ∀ (i : Instr) (s t : State), exec i s = .next t →
    t.params = s.params ∧ t.commands = s.commands ∧ t.now = s.now ∧
    ((∀ o v, i ≠ .writeDword o v) → (∀ o v, i ≠ .writeWord o v) → (∀ o v, i ≠ .writeByte o v) →
      ∀ a, t.mem.read a = s.mem.read a) ∧
    ((∀ k r p, i ≠ .addBar k r p) → t.slots = s.slots) ∧
    ((∀ r e, i ≠ .addRomBar r e) → t.rom = s.rom)

/-! ## Codec -/

/-- R100: VALIDATE_ALIGN fails exactly when the offset is no multiple of 4, and touches nothing. -/
def Obligations.ValidateAlignChecksTheOffset : Prop :=
  ∀ (s : State) (o : Wide), (encode (.validateAlign o)).op = 0x00#8 ∧
    (o.toNat % 4 = 0 → exec (.validateAlign o) s = .next (s.respond { status := .ok })) ∧
    (o.toNat % 4 ≠ 0 → exec (.validateAlign o) s = .next (s.respond { status := .unalignedAccess }))

/-- R103: READ_DWORD. -/
def Obligations.ReadDwordReturnsTheRegister : Prop :=
  ∀ (s : State) (o : Wide), (encode (.readDword o)).op = 0x01#8 ∧
    (o.toNat % 4 ≠ 0 → exec (.readDword o) s = .next (s.respond { status := .unalignedAccess })) ∧
    (o.toNat % 4 = 0 → s.params.cfgRegs ≤ o.toNat / 4 →
      exec (.readDword o) s = .next (s.respond { status := .offsetOutOfBounds })) ∧
    (o.toNat % 4 = 0 → o.toNat / 4 < s.params.cfgRegs →
      exec (.readDword o) s = .next { s with
        trace := .read (o.toNat / 4) :: s.trace
        resp := some { status := .ok, rdata := some (s.regValue (o.toNat / 4)) } })

/-- R106: WRITE_DWORD makes no read and replaces the whole register; on an error nothing is written. Every byte
outside the four reads as before. -/
def Obligations.WriteDwordReplacesTheRegister : Prop :=
  ∀ (s : State) (o : Wide) (v : Reg), (encode (.writeDword o v)).op = 0x02#8 ∧
    (o.toNat % 4 ≠ 0 → exec (.writeDword o v) s = .next (s.respond { status := .unalignedAccess })) ∧
    (o.toNat % 4 = 0 → s.params.cfgRegs ≤ o.toNat / 4 →
      exec (.writeDword o v) s = .next (s.respond { status := .offsetOutOfBounds })) ∧
    (o.toNat % 4 = 0 → o.toNat / 4 < s.params.cfgRegs → ∃ m : Mem,
      exec (.writeDword o v) s = .next { s with
        mem := m, trace := .write (o.toNat / 4) v :: s.trace, resp := some { status := .ok } } ∧
      (s.params.store ≠ .plain → m = s.mem) ∧
      (s.params.store = .plain → s.mem.wf = true → m.readReg (o.toNat / 4) = v) ∧
      (∀ a, a < o.toNat ∨ o.toNat + 4 ≤ a → m.read a = s.mem.read a))

/-- R112, under both values of the order R110 leaves open: READ_WORD. -/
def Obligations.ReadWordReturnsTheHalf : Prop :=
  ∀ (s : State) (o : Wide), (encode (.readWord o)).op = 0x03#8 ∧
    (o.toNat % 2 = 0 → o.toNat / 4 < s.params.cfgRegs → ∃ v : Reg,
      exec (.readWord o) s = .next { s with
        trace := .read (o.toNat / 4) :: s.trace, resp := some { status := .ok, rdata := some v } } ∧
      v.toNat = (s.regValue (o.toNat / 4)).toNat / 2 ^ (8 * (o.toNat % 4)) % 2 ^ 16) ∧
    (o.toNat % 2 = 0 → s.params.cfgRegs ≤ o.toNat / 4 →
      exec (.readWord o) s = .next (s.respond { status := .offsetOutOfBounds })) ∧
    (o.toNat % 2 ≠ 0 → s.params.wordOrder = .alignFirst →
      exec (.readWord o) s = .next (s.respond { status := .unalignedAccess })) ∧
    (o.toNat % 2 ≠ 0 → s.params.wordOrder = .readFirst → o.toNat / 4 < s.params.cfgRegs →
      exec (.readWord o) s = .next { s with
        trace := .read (o.toNat / 4) :: s.trace, resp := some { status := .unalignedAccess } }) ∧
    (o.toNat % 2 ≠ 0 → s.params.wordOrder = .readFirst → s.params.cfgRegs ≤ o.toNat / 4 →
      exec (.readWord o) s = .next (s.respond { status := .offsetOutOfBounds }))

/-- R116, under both orders: WRITE_WORD reads the register and writes it back with the one half replaced, masked and
not zeroed. Every byte outside the two reads as before. -/
def Obligations.WriteWordReplacesTheHalf : Prop :=
  ∀ (s : State) (o : Wide) (w : Half), (encode (.writeWord o w)).op = 0x04#8 ∧
    (o.toNat % 2 = 0 → o.toNat / 4 < s.params.cfgRegs → ∃ (m : Mem) (merged : Reg),
      exec (.writeWord o w) s = .next { s with
        mem := m, trace := .write (o.toNat / 4) merged :: .read (o.toNat / 4) :: s.trace
        resp := some { status := .ok } } ∧
      merged.toNat / 2 ^ (8 * (o.toNat % 4)) % 2 ^ 16 = w.toNat ∧
      merged.toNat / 2 ^ (8 * (2 - o.toNat % 4)) % 2 ^ 16 =
        (s.regValue (o.toNat / 4)).toNat / 2 ^ (8 * (2 - o.toNat % 4)) % 2 ^ 16 ∧
      (s.params.store ≠ .plain → m = s.mem) ∧
      (s.params.store = .plain → s.mem.wf = true →
        (m.read o.toNat).toNat + 256 * (m.read (o.toNat + 1)).toNat = w.toNat) ∧
      (s.mem.wf = true → ∀ a, a < o.toNat ∨ o.toNat + 2 ≤ a → m.read a = s.mem.read a)) ∧
    (o.toNat % 2 = 0 → s.params.cfgRegs ≤ o.toNat / 4 →
      exec (.writeWord o w) s = .next (s.respond { status := .offsetOutOfBounds })) ∧
    (o.toNat % 2 ≠ 0 → s.params.wordOrder = .alignFirst →
      exec (.writeWord o w) s = .next (s.respond { status := .unalignedAccess })) ∧
    (o.toNat % 2 ≠ 0 → s.params.wordOrder = .readFirst → o.toNat / 4 < s.params.cfgRegs →
      exec (.writeWord o w) s = .next { s with
        trace := .read (o.toNat / 4) :: s.trace, resp := some { status := .unalignedAccess } }) ∧
    (o.toNat % 2 ≠ 0 → s.params.wordOrder = .readFirst → s.params.cfgRegs ≤ o.toNat / 4 →
      exec (.writeWord o w) s = .next (s.respond { status := .offsetOutOfBounds }))

/-- R119: READ_BYTE, legal at every offset inside the store. -/
def Obligations.ReadByteReturnsTheLane : Prop :=
  ∀ (s : State) (o : Wide), (encode (.readByte o)).op = 0x05#8 ∧
    (o.toNat / 4 < s.params.cfgRegs → ∃ v : Reg,
      exec (.readByte o) s = .next { s with
        trace := .read (o.toNat / 4) :: s.trace, resp := some { status := .ok, rdata := some v } } ∧
      v.toNat = (s.regValue (o.toNat / 4)).toNat / 2 ^ (8 * (o.toNat % 4)) % 2 ^ 8) ∧
    (s.params.cfgRegs ≤ o.toNat / 4 →
      exec (.readByte o) s = .next (s.respond { status := .offsetOutOfBounds }))

/-- R120: WRITE_BYTE reads the register and writes it back with the one lane replaced. Every other byte reads as
before. -/
def Obligations.WriteByteReplacesTheLane : Prop :=
  ∀ (s : State) (o : Wide) (b : Byte), (encode (.writeByte o b)).op = 0x06#8 ∧
    (o.toNat / 4 < s.params.cfgRegs → ∃ (m : Mem) (merged : Reg),
      exec (.writeByte o b) s = .next { s with
        mem := m, trace := .write (o.toNat / 4) merged :: .read (o.toNat / 4) :: s.trace
        resp := some { status := .ok } } ∧
      (∀ k, k < 4 → merged.toNat / 2 ^ (8 * k) % 2 ^ 8 =
        if k = o.toNat % 4 then b.toNat else (s.regValue (o.toNat / 4)).toNat / 2 ^ (8 * k) % 2 ^ 8) ∧
      (s.params.store ≠ .plain → m = s.mem) ∧
      (s.params.store = .plain → s.mem.wf = true → m.read o.toNat = b) ∧
      (s.mem.wf = true → ∀ a, a ≠ o.toNat → m.read a = s.mem.read a)) ∧
    (s.params.cfgRegs ≤ o.toNat / 4 →
      exec (.writeByte o b) s = .next (s.respond { status := .offsetOutOfBounds }))

/-- Derived (41_codec.md R110): the two orders differ only on misaligned word accesses. On every aligned one they
take a state to the same state. -/
def Obligations.WordCheckOrderShowsOnlyWhenMisaligned : Prop :=
  ∀ (s t : State) (o : Wide) (w : Half) (i : Instr), o.toNat % 2 = 0 → i = .readWord o ∨ i = .writeWord o w →
    exec i { s with params := { s.params with wordOrder := .alignFirst } } = .next t →
    exec i { s with params := { s.params with wordOrder := .readFirst } } =
      .next { t with params := { t.params with wordOrder := .readFirst } }

/-- Derived (41_codec.md R117, whose second paragraph the spec derives): a sub-word write that fails has made no store
write, one that succeeds exactly one, last; and once the read of a register has succeeded, the write of it cannot
raise. -/
def Obligations.SubWordWritesAreNeverPartial : Prop :=
  (∀ (i : Instr) (s t : State) (o : Wide), ((∃ w, i = .writeWord o w) ∨ ∃ b, i = .writeByte o b) →
    exec i s = .next t →
    (t.resp.map Response.status ≠ some .ok →
      t.mem = s.mem ∧ (t.trace = s.trace ∨ t.trace = .read (o.toNat / 4) :: s.trace)) ∧
    (t.resp.map Response.status = some .ok →
      ∃ v, t.trace = .write (o.toNat / 4) v :: .read (o.toNat / 4) :: s.trace)) ∧
  (∀ (k : Nat) (s t : State) (v w : Reg), storeRead k s = some (v, t) → (storeWrite k w t).isSome)

/-- Derived (41_codec.md R124, item 1): on the plain store a value written is read back at the same offset. -/
def Obligations.WrittenValuesReadBack : Prop :=
  ∀ (s : State) (o : Wide) (v : Reg) (w : Half) (b : Byte),
    s.params.store = .plain → s.mem.wf = true → o.toNat / 4 < s.params.cfgRegs →
    (o.toNat % 4 = 0 → ∃ t, exec (.writeDword o v) s = .next t ∧
      responseOf (exec (.readDword o) t) = some { status := .ok, rdata := some v }) ∧
    (o.toNat % 2 = 0 → ∃ t, exec (.writeWord o w) s = .next t ∧
      responseOf (exec (.readWord o) t) = some { status := .ok, rdata := some (w.setWidth 32) }) ∧
    (∃ t, exec (.writeByte o b) s = .next t ∧
      responseOf (exec (.readByte o) t) = some { status := .ok, rdata := some (b.setWidth 32) })

/-- Derived (70_reset_and_hazards.md R256): on a device's own store a sub-word write writes the other lanes back as
its read gave them: the value of `INIT_REGS` while those stand, then a free value (log 4). -/
def Obligations.DeviceStoreGetsTheOtherLanesAsRead : Prop :=
  ∀ (s : State) (o : Wide) (b : Byte) (readEffects : Bool), s.params.store = .device readEffects →
    o.toNat / 4 < s.params.cfgRegs →
    let given := if s.initStands readEffects = true then s.mem.readReg (o.toNat / 4)
      else Config.deviceRead s.view (o.toNat / 4)
    ∃ t merged, exec (.writeByte o b) s = .next t ∧
      t.trace = .write (o.toNat / 4) merged :: .read (o.toNat / 4) :: s.trace ∧
      ∀ k, k < 4 → k ≠ o.toNat % 4 →
        merged.toNat / 2 ^ (8 * k) % 2 ^ 8 = given.toNat / 2 ^ (8 * k) % 2 ^ 8

/-! ## Named fields -/

/-- Derived (42_named_fields.md R130, whose last conclusion the spec derives): each named read is the primitive read
at its offset, in every state, for every store and every order, and always succeeds. -/
def Obligations.NamedReadsAreThePrimitiveReads : Prop :=
  ∀ s : State,
    (∀ row ∈ [(Instr.readVendorId, Instr.readWord 0x00#64), (.readDeviceId, .readWord 0x02#64),
        (.readCommand, .readWord 0x04#64), (.readStatus, .readWord 0x06#64),
        (.readRevisionId, .readByte 0x08#64), (.readProgIf, .readByte 0x09#64),
        (.readSubclass, .readByte 0x0A#64), (.readClassCode, .readByte 0x0B#64),
        (.readCacheLineSize, .readByte 0x0C#64), (.readLatencyTimer, .readByte 0x0D#64),
        (.readHeaderType, .readByte 0x0E#64), (.readBist, .readByte 0x0F#64)],
      exec row.1 s = exec row.2 s ∧ ∃ t, exec row.1 s = .next t ∧ t.resp.map Response.status = some .ok)

/-- R131 to R142: the encoding, the value and the one store read of each named read, in every state. -/
def Obligations.NamedReadsReturnTheirFields : Prop :=
  ∀ s : State,
    let field := fun (op : Byte) (i : Instr) (reg lo width : Nat) => (encode i).op = op ∧ ∃ v : Reg,
      exec i s = .next { s with trace := .read reg :: s.trace, resp := some { status := .ok, rdata := some v } } ∧
      v.toNat = (s.regValue reg).toNat / 2 ^ lo % 2 ^ width
    field 0x10#8 .readVendorId 0 0 16 ∧ field 0x11#8 .readDeviceId 0 16 16 ∧
    field 0x12#8 .readCommand 1 0 16 ∧ field 0x13#8 .readStatus 1 16 16 ∧
    field 0x14#8 .readRevisionId 2 0 8 ∧ field 0x15#8 .readProgIf 2 8 8 ∧
    field 0x16#8 .readSubclass 2 16 8 ∧ field 0x17#8 .readClassCode 2 24 8 ∧
    field 0x18#8 .readCacheLineSize 3 0 8 ∧ field 0x19#8 .readLatencyTimer 3 8 8 ∧
    field 0x1A#8 .readHeaderType 3 16 8 ∧ field 0x1B#8 .readBist 3 24 8

/-! ## Regions -/

/-- R155, R156: the 32-bit constructors, overflow before alignment, the region with the operands exactly. -/
def Obligations.NarrowConstructorsFollowTheirLaws : Prop :=
  ∀ (s : State) (a l : Reg) (op : Byte) (kind : BitVec 2) (i : Instr),
    (op = 0x20#8 ∧ kind = 0#2 ∧ i = .newIoRegion a l) ∨ (op = 0x21#8 ∧ kind = 1#2 ∧ i = .newMem32Region a l) →
    (encode i).op = op ∧
    (0xFFFFFFFF < a.toNat + l.toNat → exec i s = .next (s.respond
      { status := .addressInvalid, errAddr := some (a.setWidth 64), errLen := some (l.setWidth 64) })) ∧
    (a.toNat + l.toNat ≤ 0xFFFFFFFF → a.toNat % 4 ≠ 0 →
      exec i s = .next (s.respond { status := .unalignedAccess })) ∧
    (a.toNat + l.toNat ≤ 0xFFFFFFFF → a.toNat % 4 = 0 → exec i s = .next (s.respond
      { status := .ok, rregion := some { kind := kind, addr := a.setWidth 64, len := l.setWidth 64 } }))

/-- R157: the 64-bit constructor. -/
def Obligations.WideConstructorFollowsItsLaws : Prop :=
  ∀ (s : State) (a l : Wide), (encode (.newMem64Region a l)).op = 0x22#8 ∧
    (2 ^ 64 - 1 < a.toNat + l.toNat → exec (.newMem64Region a l) s = .next (s.respond
      { status := .addressInvalid, errAddr := some a, errLen := some l })) ∧
    (a.toNat + l.toNat ≤ 2 ^ 64 - 1 → a.toNat % 4 ≠ 0 →
      exec (.newMem64Region a l) s = .next (s.respond { status := .unalignedAccess })) ∧
    (a.toNat + l.toNat ≤ 2 ^ 64 - 1 → a.toNat % 4 = 0 → exec (.newMem64Region a l) s = .next (s.respond
      { status := .ok, rregion := some { kind := 2#2, addr := a, len := l } }))

/-- R160: two regions are equal exactly when variant, addr and len are. -/
def Obligations.RegionEqIsStructural : Prop :=
  ∀ (s : State) (rA rB : Region), (encode (.regionEq rA rB)).op = 0x23#8 ∧
    exec (.regionEq rA rB) s = .next (s.respond { status := .ok, rbool := some (decide (rA = rB)) })

/-- R20: no state between commands. The answer of the validator, of a region command and of a taxonomy command over
the same tables depends on nothing but the operands; on the plain store a codec or named command depends beside them
on the store and the instance's parameters alone, and so do the registers it leaves. -/
def Obligations.CommandsHoldNoState : Prop :=
  ∀ (i : Instr) (s s' : State), s.params = s'.params →
    (((∃ o, i = .validateAlign o) ∨ groupOf i.opcode = some .region ∨ groupOf i.opcode = some .taxonomy) →
      responseOf (exec i s) = responseOf (exec i s')) ∧
    (s.params.store = .plain → s.mem = s'.mem → groupOf i.opcode = some .codec ∨ groupOf i.opcode = some .named →
      responseOf (exec i s) = responseOf (exec i s') ∧
      (nextState (exec i s)).map State.mem = (nextState (exec i s')).map State.mem)

/-! ## Taxonomies -/

/-- Derived (44_taxonomy.md R170, R174, R177, R180, R183, R187): decode over any table: a member's code gives its
tag, every other byte the other tag, and nothing else changes. -/
def Obligations.FromFollowsTheTable : Prop :=
  ∀ (s : State) (b : Byte),
    let answer := fun (i : Instr) (t : Taxonomy) =>
      (b ∈ t.codes → exec i s = .next (s.respond { status := .ok, rdata := some (b.setWidth 32) })) ∧
      (b ∉ t.codes → exec i s = .next (s.respond { status := .ok, rdata := some 0xFF#32 }))
    answer (.classFrom b) s.params.classTable ∧ answer (.bridgeSubclassFrom b) s.params.bridgeTable ∧
    answer (.capidFrom b) s.params.capidTable ∧ answer (.hdrtypeFrom b) s.params.hdrtypeTable

/-- Derived (44_taxonomy.md R170, R175, R178, R181, R184, R187; the OPEN values are free, log 8): encode over any
table: a known member's tag gives its code, the other tag the other value, and every other tag is refused. -/
def Obligations.ValueFollowsTheTable : Prop :=
  ∀ (s : State) (tag : Byte),
    let answer := fun (i : Instr) (which : TaxonomyId) (t : Taxonomy) =>
      (tag ≠ 0xFF#8 → tag ∈ t.codes →
        exec i s = .next (s.respond { status := .ok, rdata := some (tag.setWidth 32) })) ∧
      (tag = 0xFF#8 → ∃ v : Byte, exec i s = .next (s.respond { status := .ok, rdata := some (v.setWidth 32) }) ∧
        (∀ b, t.other = some b → v = b) ∧ (Taxonomy.wf t → v ∉ t.codes)) ∧
      (tag ≠ 0xFF#8 → tag ∉ t.codes → exec i s = .refused (.noSuchMember which tag))
    answer (.classValue tag) .classCode s.params.classTable ∧
    answer (.bridgeSubclassValue tag) .bridgeSubclass s.params.bridgeTable ∧
    answer (.capidValue tag) .capabilityId s.params.capidTable ∧
    answer (.hdrtypeValue tag) .headerType s.params.hdrtypeTable

/-- R68: `*_FROM` returns a tag with `rdata[31:8] = 0`, the other tag is 0xFF, and a `*_VALUE` command with a nonzero
bit above the tag, or a tag of no member, is refused. -/
def Obligations.TagsOnThePorts : Prop :=
  (∀ (s : State) (b : Byte) (i : Instr),
    i = .classFrom b ∨ i = .bridgeSubclassFrom b ∨ i = .capidFrom b ∨ i = .hdrtypeFrom b →
    ∃ v : Reg, responseOf (exec i s) = some { status := .ok, rdata := some v } ∧ v.toNat < 256 ∧
      (v ≠ b.setWidth 32 → v = 0xFF#32)) ∧
  (∀ (s : State) (c : Command) (rest : List Command) (op : Byte) (which : TaxonomyId) (t : Taxonomy),
    (op, which, t) ∈ [(0x31#8, .classCode, s.params.classTable), (0x33#8, .bridgeSubclass, s.params.bridgeTable),
      (0x35#8, .capabilityId, s.params.capidTable), (0x37#8, .headerType, s.params.hdrtypeTable)] → c.op = op →
    (2 ^ 8 ≤ c.data.toNat →
      step (s.withCommands (c :: rest)) = .refused (.undecodable (.dataTooWide c.data))) ∧
    (c.data.toNat < 2 ^ 8 → c.data ≠ 0xFF#32 → c.data.setWidth 8 ∉ t.codes →
      step (s.withCommands (c :: rest)) = .refused (.noSuchMember which (c.data.setWidth 8))) ∧
    (c.data = 0xFF#32 ∨ (c.data.toNat < 2 ^ 8 ∧ c.data.setWidth 8 ∈ t.codes) →
      ∃ v, responseOf (step (s.withCommands (c :: rest))) = some { status := .ok, rdata := some v } ∧
        v.toNat < 256))

/-- Derived (44_taxonomy.md R185, over any tables the spec allows): decoding a member's value gives the member, and
encoding what a byte decodes to gives that byte back exactly when it is a member's value. -/
def Obligations.TaxonomyLaws : Prop :=
  ∀ (s : State) (b : Byte), Params.tablesWf s.params →
    let laws := fun (fromI valueI : Byte → Instr) (t : Taxonomy) => ∃ other tag v : Byte, other ∉ t.codes ∧
      exec (valueI 0xFF#8) s = .next (s.respond { status := .ok, rdata := some (other.setWidth 32) }) ∧
      exec (fromI other) s = .next (s.respond { status := .ok, rdata := some 0xFF#32 }) ∧
      exec (fromI b) s = .next (s.respond { status := .ok, rdata := some (tag.setWidth 32) }) ∧
      exec (valueI tag) s = .next (s.respond { status := .ok, rdata := some (v.setWidth 32) }) ∧
      (v = b ↔ b ∈ t.codes ∨ b = other) ∧ (b ∈ t.codes → tag = b) ∧ (b ∉ t.codes → tag = 0xFF#8 ∧ v = other)
    laws .classFrom .classValue s.params.classTable ∧
    laws .bridgeSubclassFrom .bridgeSubclassValue s.params.bridgeTable ∧
    laws .capidFrom .capidValue s.params.capidTable ∧
    laws .hdrtypeFrom .hdrtypeValue s.params.hdrtypeTable

/-- Derived, resting on the default tables the spec takes from general knowledge (log 7): which bytes the four
decodes know. -/
def Obligations.DefaultTablesDecode : Prop :=
  ∀ (s : State) (b : Byte), s.params.classTable = defaultClassTable → s.params.bridgeTable = defaultBridgeTable →
    s.params.capidTable = defaultCapidTable → s.params.hdrtypeTable = defaultHdrtypeTable →
    let answer := fun (i : Instr) (known : Prop) =>
      (known → responseOf (exec i s) = some { status := .ok, rdata := some (b.setWidth 32) }) ∧
      (¬ known → responseOf (exec i s) = some { status := .ok, rdata := some 0xFF#32 })
    answer (.classFrom b) (b.toNat ≤ 0x13) ∧ answer (.bridgeSubclassFrom b) (b.toNat = 0 ∨ b.toNat = 1 ∨ b.toNat = 4) ∧
    answer (.capidFrom b) (b.toNat ≤ 0x14) ∧ answer (.hdrtypeFrom b) (b.toNat ≤ 0x02) ∧
    responseOf (exec (.classValue 0xFF#8) s) = some { status := .ok, rdata := some 0xFF#32 } ∧
    responseOf (exec (.bridgeSubclassValue 0xFF#8) s) = some { status := .ok, rdata := some 0x80#32 }

/-! ## Contracts -/

/-- R191, R192: ADD_BAR of the spec's reference design. -/
def Obligations.AddBarOfTheReference : Prop :=
  ∀ (s : State) (index : BitVec 32) (r : Region) (p : Bool),
    s.params.slotImpl = .reference → s.slots.length = s.params.barSlots →
    let k := index.toNat
    let n := s.params.barSlots
    let raises := fun (e : Status) => exec (.addBar index r p) s = .next (s.respond { status := e })
    let heldBy := fun (j : Nat) =>
      ((∃ q f, s.slotAt j = .bar q f ∧ isMemory64 q = false) → raises .barInUse) ∧
      ((∃ q f, s.slotAt j = .bar q f ∧ isMemory64 q = true) → raises .barInUse64) ∧
      ((∃ owner, s.slotAt j = .upper64 owner) → raises .barInUse64)
    (encode (.addBar index r p)).op = 0x40#8 ∧
    (n ≤ k → raises .barIndex) ∧
    (k < n → heldBy k) ∧
    (k < n → s.slotAt k = .empty → isMemory64 r = true → n ≤ k + 1 → raises .barIndex) ∧
    (k < n → s.slotAt k = .empty → isMemory64 r = true → k + 1 < n → heldBy (k + 1)) ∧
    (k < n → s.slotAt k = .empty → (isMemory64 r = true → k + 1 < n ∧ s.slotAt (k + 1) = .empty) → ∃ slots,
      exec (.addBar index r p) s = .next { s with slots := slots, resp := some { status := .ok } } ∧
      slots.length = n ∧ ∀ j, slots.getD j .empty =
        if j = k then .bar r p else if isMemory64 r = true ∧ j = k + 1 then .upper64 k else s.slotAt j)

/-- R194: BAR_ADDRESS of the spec's reference design. -/
def Obligations.BarAddressOfTheReference : Prop :=
  ∀ (s : State) (index : BitVec 32), s.params.slotImpl = .reference →
    (encode (.barAddress index)).op = 0x42#8 ∧
    (s.params.barSlots ≤ index.toNat → exec (.barAddress index) s = .next (s.respond { status := .barIndex })) ∧
    (index.toNat < s.params.barSlots → s.slotAt index.toNat = .empty →
      exec (.barAddress index) s = .next (s.respond { status := .barInvalid })) ∧
    (index.toNat < s.params.barSlots → (∃ owner, s.slotAt index.toNat = .upper64 owner) →
      exec (.barAddress index) s = .next (s.respond { status := .barInvalid64 })) ∧
    (∀ r f, index.toNat < s.params.barSlots → s.slotAt index.toNat = .bar r f →
      exec (.barAddress index) s = .next (s.respond { status := .ok, rregion := some (regionPort r) }))

/-- R196, R197: the ROM BAR of the spec's reference design, every region kind and both flags. -/
def Obligations.RomBarOfTheReference : Prop :=
  ∀ (s : State) (r : Region) (e : Bool), s.params.slotImpl = .reference →
    (encode (.addRomBar r e)).op = 0x41#8 ∧ (encode .romBarAddress).op = 0x43#8 ∧
    (s.rom = .empty →
      exec (.addRomBar r e) s = .next { s with rom := .rom r e, resp := some { status := .ok } } ∧
      exec .romBarAddress s = .next (s.respond { status := .romBarInvalid })) ∧
    (∀ q f, s.rom = .rom q f →
      exec (.addRomBar r e) s = .next (s.respond { status := .romBarInUse }) ∧
      exec .romBarAddress s = .next (s.respond { status := .ok, rregion := some (regionPort q) }))

/-- Derived (45_bar_contracts.md R190, items 2 to 7), for every implementation: six or two slots; an index out of
range is BarIndex; a held slot is BarInUse or BarInUse64; a query of an empty slot is BarInvalid or BarInvalid64; a
64-bit BAR consumes the next slot and no later ADD_BAR takes it; the ROM errors. That every device's table has the form
of 10_state.md R27 is the model's choice (log 6). -/
def Obligations.EveryImplementationMeetsTheContract : Prop :=
  ∀ (s : State) (index : BitVec 32) (r : Region) (p : Bool), s.slots.length = s.params.barSlots →
    let n := match s.params.hdrKind with
      | .device => 6
      | .bridge => 2
    (n ≤ index.toNat → exec (.addBar index r p) s = .next (s.respond { status := .barIndex }) ∧
      exec (.barAddress index) s = .next (s.respond { status := .barIndex })) ∧
    (index.toNat < n → s.slotAt index.toNat ≠ .empty → ∃ e, (e = .barInUse ∨ e = .barInUse64) ∧
      exec (.addBar index r p) s = .next (s.respond { status := e })) ∧
    (index.toNat < n → s.slotAt index.toNat = .empty → ∃ e, (e = .barInvalid ∨ e = .barInvalid64) ∧
      exec (.barAddress index) s = .next (s.respond { status := e })) ∧
    (∀ t, isMemory64 r = true → exec (.addBar index r p) s = .next t → t.resp.map Response.status = some .ok →
      index.toNat + 1 < n ∧ t.slotAt index.toNat = .bar r p ∧ t.slotAt (index.toNat + 1) = .upper64 index.toNat ∧
      ∀ q f, ∃ e, (e = .barInUse ∨ e = .barInUse64) ∧
        exec (.addBar (index + 1#32) q f) t = .next (t.respond { status := e })) ∧
    (s.rom = .empty → exec .romBarAddress s = .next (s.respond { status := .romBarInvalid })) ∧
    (s.rom ≠ .empty → exec (.addRomBar r p) s = .next (s.respond { status := .romBarInUse }))

/-- Derived (45_bar_contracts.md R198): the contract commands never reach the store, and no command removes a BAR or
the ROM BAR. R198 says so of the reference design. That it holds of a device that keeps its own slots (slotImpl =
deviceDefined) too is the MODEL'S CHOICE, log 6 (DEDUCED, unsafe), not a rule of the spec for every device. -/
def Obligations.FilledSlotsStayFilled : Prop :=
  (∀ (i : Instr) (s t : State), groupOf i.opcode = some .contract → exec i s = .next t →
    t.mem = s.mem ∧ t.trace = s.trace) ∧
  (∀ (s t : State), step s = .next t →
    (∀ k, s.slotAt k ≠ .empty → t.slotAt k = s.slotAt k) ∧ (s.rom ≠ .empty → t.rom = s.rom))

/-- Derived (10_state.md R27): on the plain store no command outside the contracts is affected by the slot table or
changes it (for a device that keeps its own slots, the model's choice, log 6). -/
def Obligations.SlotTableIsTheContractsAlone : Prop :=
  ∀ (i : Instr) (s t : State) (slots : List Slot) (rom : RomSlot), s.params.store = .plain →
    groupOf i.opcode ≠ some .contract → exec i s = .next t →
    t.slots = s.slots ∧ t.rom = s.rom ∧
    exec i { s with slots := slots, rom := rom } = .next { t with slots := slots, rom := rom }

/-! ## Errors -/

/-- R223: an error is a response that names its cause, with the payload of R222, and nothing else: the store, the slot
table and every other field are exactly as they were (a misaligned word access under ReadFirst has made its one
read). -/
def Obligations.ErrorsArePrecise : Prop :=
  ∀ (i : Instr) (s t : State), exec i s = .next t → t.resp.map Response.status ≠ some .ok →
    ∃ c trace, t = { s with trace := trace, resp := some (errorResponse c) } ∧
      (trace = s.trace ∨ ∃ k, trace = .read k :: s.trace)

/-- Derived (10_state.md R24): nothing of a response persists into the next command. -/
def Obligations.NothingPersistsIntoTheNextCommand : Prop :=
  ∀ (i : Instr) (s : State) (r : Option Response), exec i { s with resp := r } = exec i s

/-- R222: AddressInvalid reports both operands of the failed construction, widened, and no other response carries a
value on those ports (what a device that keeps its own slots rejects with is free, log 6). -/
def Obligations.OnlyAddressInvalidReportsOperands : Prop :=
  ∀ (i : Instr) (s t : State) (r : Response), exec i s = .next t → t.resp = some r →
    (r.status = .addressInvalid ↔ r.errAddr.isSome) ∧ (r.status = .addressInvalid ↔ r.errLen.isSome) ∧
    (s.params.slotImpl = .reference → r.status = .addressInvalid →
      (∃ a l : Reg, (i = .newIoRegion a l ∨ i = .newMem32Region a l) ∧
        r.errAddr = some (a.setWidth 64) ∧ r.errLen = some (l.setWidth 64)) ∨
      ∃ a l : Wide, i = .newMem64Region a l ∧ r.errAddr = some a ∧ r.errLen = some l)

/-- R62: which response ports a successful command writes; an error writes none of the result ports. -/
def Obligations.ResponsePortsOfEachCommand : Prop :=
  ∀ (i : Instr) (s t : State) (r : Response), exec i s = .next t → t.resp = some r →
    (r.status ≠ .ok → r.rdata = none ∧ r.rregion = none ∧ r.rbool = none) ∧
    (r.status = .ok → r.errAddr = none ∧ r.errLen = none ∧
      match i with
      | .readDword _ | .readWord _ | .readByte _ | .readVendorId | .readDeviceId | .readCommand | .readStatus
      | .readRevisionId | .readProgIf | .readSubclass | .readClassCode | .readCacheLineSize | .readLatencyTimer
      | .readHeaderType | .readBist | .classFrom _ | .classValue _ | .bridgeSubclassFrom _
      | .bridgeSubclassValue _ | .capidFrom _ | .capidValue _ | .hdrtypeFrom _ | .hdrtypeValue _ =>
        r.rdata.isSome ∧ r.rregion = none ∧ r.rbool = none
      | .newIoRegion _ _ | .newMem32Region _ _ | .newMem64Region _ _ | .barAddress _ | .romBarAddress =>
        r.rdata = none ∧ r.rregion.isSome ∧ r.rbool = none
      | .regionEq _ _ => r.rdata = none ∧ r.rregion = none ∧ r.rbool.isSome
      | .validateAlign _ | .writeDword _ _ | .writeWord _ _ | .writeByte _ _ | .addBar _ _ _ | .addRomBar _ _ =>
        r.rdata = none ∧ r.rregion = none ∧ r.rbool = none)

/-- Derived (60_exceptions.md R220): the codes, and which statuses each command can answer with (the contracts by the
reference design). -/
def Obligations.StatusesOfEachCommand : Prop :=
  [Status.ok, .unalignedAccess, .offsetOutOfBounds, .addressInvalid, .barIndex, .barInUse, .barInUse64, .barInvalid,
    .barInvalid64, .romBarInUse, .romBarInvalid].map Status.code =
    [0x00#8, 0x01#8, 0x02#8, 0x03#8, 0x04#8, 0x05#8, 0x06#8, 0x07#8, 0x08#8, 0x09#8, 0x0A#8] ∧
  ∀ (i : Instr) (s t : State) (r : Response), s.params.slotImpl = .reference → exec i s = .next t →
    t.resp = some r →
    match i with
    | .validateAlign _ => r.status ∈ [.ok, .unalignedAccess]
    | .readDword _ | .writeDword _ _ | .readWord _ | .writeWord _ _ =>
      r.status ∈ [.ok, .unalignedAccess, .offsetOutOfBounds]
    | .readByte _ | .writeByte _ _ | .readVendorId | .readDeviceId | .readCommand | .readStatus | .readRevisionId
    | .readProgIf | .readSubclass | .readClassCode | .readCacheLineSize | .readLatencyTimer | .readHeaderType
    | .readBist => r.status ∈ [.ok, .offsetOutOfBounds]
    | .newIoRegion _ _ | .newMem32Region _ _ | .newMem64Region _ _ =>
      r.status ∈ [.ok, .unalignedAccess, .addressInvalid]
    | .regionEq _ _ | .classFrom _ | .classValue _ | .bridgeSubclassFrom _ | .bridgeSubclassValue _ | .capidFrom _
    | .capidValue _ | .hdrtypeFrom _ | .hdrtypeValue _ => r.status = .ok
    | .addBar _ _ _ => r.status ∈ [.ok, .barIndex, .barInUse, .barInUse64]
    | .addRomBar _ _ => r.status ∈ [.ok, .romBarInUse]
    | .barAddress _ => r.status ∈ [.ok, .barIndex, .barInvalid, .barInvalid64]
    | .romBarAddress => r.status ∈ [.ok, .romBarInvalid]

/-- Derived (60_exceptions.md R221, log 18): the command's group fixes the layer that answers, every error response
denotes an error of that layer, and no information is lost; no contract command raises a wrapped lower error (the
contracts by the reference design). -/
def Obligations.WrappedErrorIsFixedByTheGroup : Prop :=
  (∀ (i : Instr) (s t : State) (r : Response), s.params.slotImpl = .reference → exec i s = .next t →
    t.resp = some r → r.status ≠ .ok →
    ∃ g e, groupOf i.opcode = some g ∧ r.layered i.opcode = some e ∧
      ((g = .codec ∨ g = .named) ∧ (∃ x, e = .access x) ∨ g = .region ∧ (∃ x, e = .region x) ∨
       g = .contract ∧ ∃ x, e = .device x ∧ (∀ y, x ≠ .region y) ∧ ∀ y, x ≠ .access y)) ∧
  (∀ (g : Group) (c d : Cause) (e : LayerError), layerError g c = some e → layerError g d = some e → c = d)

/-! ## Reset and invariants -/

/-- R31: a new instance holds INIT_REGS in its store, plain or a device's own, and nothing in its slots, whatever its
parameters. -/
def Obligations.LaunchHoldsTheGivenRegisters : Prop :=
  ∀ (p : Params) (init : List Reg),
    (∀ i, i < p.cfgRegs → (h : i < init.length) → (State.launch p init).regValue i = init[i]) ∧
    (∀ k, (State.launch p init).slotAt k = .empty) ∧ (State.launch p init).slots.length = p.barSlots ∧
    (State.launch p init).rom = .empty

/-- Derived: every launch with tables the spec allows meets the invariant. -/
def Obligations.LaunchMeetsTheInvariant : Prop :=
  ∀ (p : Params) (init : List Reg), Params.tablesWf p → (State.launch p init).Inv

/-- Derived: the reset state (whose parameters are the log's, entries 1 to 7) meets the invariant. -/
def Obligations.ResetMeetsTheInvariant : Prop := State.reset.Inv

/-- Derived (45_bar_contracts.md R199, with R27, R47, R66): every step keeps the invariant: canonical memory inside the
store, BAR_SLOTS slots, 64-bit BARs paired with exactly the slots they consume, and only constructible regions in the
slots. R199 gives the pairing for the reference algorithm. For a device that keeps its own slots (slotImpl =
deviceDefined) R190 item 6 asks for a pairing, and that it is kept in this form is the MODEL'S CHOICE, log 6 (DEDUCED,
unsafe). -/
def Obligations.EveryStepKeepsTheInvariant : Prop :=
  ∀ s t : State, s.Inv → step s = .next t → t.Inv

/-! ## Assembly -/

/-- Derived (30_encoding.md R77): each pseudo-instruction is the write it stands for, whatever its operand. -/
def Obligations.PseudoWritesExpand : Prop :=
  ∀ (v : AsmOperand) (row : String × String × Nat),
    row ∈ [("write_vendor_id", "write_word", 0x00), ("write_device_id", "write_word", 0x02),
      ("write_command", "write_word", 0x04), ("write_status", "write_word", 0x06),
      ("write_revision_id", "write_byte", 0x08), ("write_prog_if", "write_byte", 0x09),
      ("write_subclass", "write_byte", 0x0A), ("write_class_code", "write_byte", 0x0B),
      ("write_cache_line_size", "write_byte", 0x0C), ("write_latency_timer", "write_byte", 0x0D),
      ("write_header_type", "write_byte", 0x0E), ("write_bist", "write_byte", 0x0F)] →
    assembleParts row.1.toList [v] = assembleParts row.2.1.toList [.number row.2.2, v]

/-- Derived (30_encoding.md R76): every well-formed instruction is assembled from its mnemonic and as many operands
as its syntax has. -/
def Obligations.WrittenCommandsAssemble : Prop :=
  ∀ i : Instr, i.wellFormed = true → ∃ operands, operands.length = (writtenPorts i.opcode).length ∧
    assembleParts (mnemonic i.opcode).toList operands = some (encode i)
end

