-- ==== Sys2Proof/Laws/Bits.lean ====
section
/-! SUPPORT. What the lane mux does to each lane. -/

namespace Sys2Proof.Machine

theorem extract8_toNat (r : Reg) (k : Nat) : (extract8 r k).toNat = r.toNat / 2 ^ (8 * k) % 256 := by
  simp only [extract8, BitVec.toNat_setWidth, BitVec.toNat_and, BitVec.toNat_ushiftRight, Nat.shiftRight_eq_div_pow,
    BitVec.toNat_ofNat]
  rw [show 255 % 2 ^ 32 = 2 ^ 8 - 1 from rfl, Nat.and_two_pow_sub_one_eq_mod, Nat.mod_mod]

theorem extract16_toNat (r : Reg) (h : Nat) : (extract16 r h).toNat = r.toNat / 2 ^ (8 * h) % 65536 := by
  simp only [extract16, BitVec.toNat_setWidth, BitVec.toNat_and, BitVec.toNat_ushiftRight, Nat.shiftRight_eq_div_pow,
    BitVec.toNat_ofNat]
  rw [show 65535 % 2 ^ 32 = 2 ^ 16 - 1 from rfl, Nat.and_two_pow_sub_one_eq_mod, Nat.mod_mod]

theorem joinBytes_toNat (b3 b2 b1 b0 : Byte) :
    (joinBytes b3 b2 b1 b0).toNat = b3.toNat * 2 ^ 24 + b2.toNat * 2 ^ 16 + b1.toNat * 2 ^ 8 + b0.toNat := by
  have h2 := b2.isLt; have h1 := b1.isLt; have h0 := b0.isLt
  unfold joinBytes
  rw [BitVec.toNat_append, BitVec.toNat_append, BitVec.toNat_append]
  rw [← Nat.shiftLeft_add_eq_or_of_lt h0, ← Nat.shiftLeft_add_eq_or_of_lt h1, ← Nat.shiftLeft_add_eq_or_of_lt h2]
  simp only [Nat.shiftLeft_eq]
  omega

/-- A register is the join of its four lanes. -/
theorem joinBytes_extract8 (r : Reg) :
    joinBytes (extract8 r 3) (extract8 r 2) (extract8 r 1) (extract8 r 0) = r := by
  apply BitVec.eq_of_toNat_eq
  rw [joinBytes_toNat]
  simp only [extract8_toNat]
  have := r.isLt
  omega

theorem extract8_joinBytes (b3 b2 b1 b0 : Byte) :
    extract8 (joinBytes b3 b2 b1 b0) 0 = b0 ∧ extract8 (joinBytes b3 b2 b1 b0) 1 = b1 ∧
    extract8 (joinBytes b3 b2 b1 b0) 2 = b2 ∧ extract8 (joinBytes b3 b2 b1 b0) 3 = b3 := by
  have h3 := b3.isLt; have h2 := b2.isLt; have h1 := b1.isLt; have h0 := b0.isLt
  refine ⟨?_, ?_, ?_, ?_⟩ <;> apply BitVec.eq_of_toNat_eq <;> rw [extract8_toNat, joinBytes_toNat] <;> omega

theorem mask8_getLsbD (j : Nat) : (255#32).getLsbD j = decide (j < 8) := by
  by_cases hj : j < 32
  · have := (by decide : ∀ j : Fin 32, (255#32).getLsbD j.val = decide (j.val < 8)) ⟨j, hj⟩
    simpa using this
  · rw [BitVec.getLsbD_of_ge _ _ (by omega)]
    simp; omega

theorem mask16_getLsbD (j : Nat) : (65535#32).getLsbD j = decide (j < 16) := by
  by_cases hj : j < 32
  · have := (by decide : ∀ j : Fin 32, (65535#32).getLsbD j.val = decide (j.val < 16)) ⟨j, hj⟩
    simpa using this
  · rw [BitVec.getLsbD_of_ge _ _ (by omega)]
    simp; omega

theorem extract8_getLsbD (r : Reg) (k j : Nat) :
    (extract8 r k).getLsbD j = (decide (j < 8) && r.getLsbD (8 * k + j)) := by
  simp only [extract8, BitVec.getLsbD_setWidth, BitVec.getLsbD_and, BitVec.getLsbD_ushiftRight, mask8_getLsbD]
  by_cases hj : j < 8 <;> simp [hj]

/-- Bit `n` of a register with lane `k` replaced. -/
theorem insert8_getLsbD (r : Reg) (k : Nat) (b : Byte) (n : Nat) (hn : n < 32) :
    (insert8 r k b).getLsbD n = if 8 * k ≤ n ∧ n < 8 * k + 8 then b.getLsbD (n - 8 * k) else r.getLsbD n := by
  simp only [insert8, BitVec.getLsbD_or, BitVec.getLsbD_and, BitVec.getLsbD_not, BitVec.getLsbD_shiftLeft,
    mask8_getLsbD, BitVec.getLsbD_setWidth]
  by_cases h1 : n < 8 * k
  · have : ¬ (8 * k ≤ n) := by omega
    simp [h1, hn, this]
  · by_cases h2 : n < 8 * k + 8
    · have e1 : n - 8 * k < 8 := by omega
      have e2 : 8 * k ≤ n := by omega
      have e3 : n - 8 * k < 32 := by omega
      simp [h1, hn, h2, e1, e2, e3]
    · have e1 : ¬ (n - 8 * k < 8) := by omega
      have e3 : n - 8 * k < 32 := by omega
      simp [h1, hn, h2, e1, e3, BitVec.getLsbD_of_ge b (n - 8 * k) (by omega)]

theorem insert16_getLsbD (r : Reg) (h : Nat) (w : Half) (n : Nat) (hn : n < 32) :
    (insert16 r h w).getLsbD n = if 8 * h ≤ n ∧ n < 8 * h + 16 then w.getLsbD (n - 8 * h) else r.getLsbD n := by
  simp only [insert16, BitVec.getLsbD_or, BitVec.getLsbD_and, BitVec.getLsbD_not, BitVec.getLsbD_shiftLeft,
    mask16_getLsbD, BitVec.getLsbD_setWidth]
  by_cases h1 : n < 8 * h
  · have : ¬ (8 * h ≤ n) := by omega
    simp [h1, hn, this]
  · by_cases h2 : n < 8 * h + 16
    · have e1 : n - 8 * h < 16 := by omega
      have e2 : 8 * h ≤ n := by omega
      have e3 : n - 8 * h < 32 := by omega
      simp [h1, hn, h2, e1, e2, e3]
    · have e1 : ¬ (n - 8 * h < 16) := by omega
      have e3 : n - 8 * h < 32 := by omega
      simp [h1, hn, h2, e1, e3, BitVec.getLsbD_of_ge w (n - 8 * h) (by omega)]

/-- R102: replacing lane `k` sets that lane and keeps the other three. -/
theorem extract8_insert8 (r : Reg) (k j : Nat) (b : Byte) (hk : k < 4) (hj : j < 4) :
    extract8 (insert8 r k b) j = if j = k then b else extract8 r j := by
  apply BitVec.eq_of_getLsbD_eq
  intro i hi
  rw [extract8_getLsbD, insert8_getLsbD _ _ _ _ (by omega)]
  split
  · next h =>
    have : j = k := by omega
    subst this
    simp [hi]
  · next h =>
    have : j ≠ k := by omega
    simp [this, extract8_getLsbD]

/-- R102: replacing a half sets its two lanes and keeps the other two. -/
theorem extract8_insert16 (r : Reg) (h j : Nat) (w : Half) (hh : h = 0 ∨ h = 2) (hj : j < 4) :
    extract8 (insert16 r h w) j =
      if j = h then w.setWidth 8 else if j = h + 1 then (w >>> 8).setWidth 8 else extract8 r j := by
  apply BitVec.eq_of_getLsbD_eq
  intro i hi
  rw [extract8_getLsbD, insert16_getLsbD _ _ _ _ (by omega)]
  by_cases h1 : j = h
  · subst h1
    simp [hi, show i < 16 by omega]
  · by_cases h2 : j = h + 1
    · subst h2
      have e1 : 8 * h ≤ 8 * (h + 1) + i := by omega
      have e2 : 8 * (h + 1) + i < 8 * h + 16 := by omega
      have e3 : 8 * (h + 1) + i - 8 * h = 8 + i := by omega
      simp [hi, e1, e2, e3]
    · have : ¬ (8 * h ≤ 8 * j + i ∧ 8 * j + i < 8 * h + 16) := by omega
      simp [h1, h2, this, extract8_getLsbD]

theorem extract16_insert16 (r : Reg) (h : Nat) (w : Half) (hh : h = 0 ∨ h = 2) :
    extract16 (insert16 r h w) h = w := by
  apply BitVec.eq_of_getLsbD_eq
  intro i hi
  simp only [extract16, BitVec.getLsbD_setWidth, BitVec.getLsbD_and, BitVec.getLsbD_ushiftRight, mask16_getLsbD]
  rw [insert16_getLsbD _ _ _ _ (by omega)]
  have e1 : 8 * h + i < 8 * h + 16 := by omega
  simp [hi, e1]

/-- R102: replacing a half keeps the other half. -/
theorem extract16_insert16_other (r : Reg) (h g : Nat) (w : Half) (hh : h = 0 ∧ g = 2 ∨ h = 2 ∧ g = 0) :
    extract16 (insert16 r h w) g = extract16 r g := by
  apply BitVec.eq_of_getLsbD_eq
  intro i hi
  simp only [extract16, BitVec.getLsbD_setWidth, BitVec.getLsbD_and, BitVec.getLsbD_ushiftRight, mask16_getLsbD]
  rw [insert16_getLsbD _ _ _ _ (by omega)]
  have : ¬ (8 * h ≤ 8 * g + i ∧ 8 * g + i < 8 * h + 16) := by omega
  simp [this]

end Sys2Proof.Machine
end

