-- ==== Sys2Proof/Laws/Memory.lean ====
section
/-! SUPPORT. The memory keeps its canonical form; a read after a write gives the value written at that place and
what was there at every other; a register is its four bytes. -/

namespace Sys2Proof.Machine

theorem Mem.read_nil (a : Nat) : Mem.read [] a = unlisted := rfl

theorem Mem.read_cons (x : Nat) (y : Byte) (m : Mem) (a : Nat) :
    Mem.read ((x, y) :: m) a = if a = x then y else Mem.read m a := rfl

theorem Mem.wfFrom_cons (lo x : Nat) (y : Byte) (m : Mem) :
    Mem.wfFrom lo ((x, y) :: m) = true ↔ lo ≤ x ∧ y ≠ unlisted ∧ Mem.wfFrom (x + 1) m = true := by
  simp [Mem.wfFrom, and_assoc]

theorem Mem.wfFrom_mono {lo lo' : Nat} (h : lo' ≤ lo) : ∀ {m : Mem}, Mem.wfFrom lo m = true → Mem.wfFrom lo' m = true
  | [], _ => rfl
  | (x, y) :: m, hm => by
    rw [Mem.wfFrom_cons] at hm ⊢
    exact ⟨Nat.le_trans h hm.1, hm.2⟩

/-- An offset below all listed ones reads as unlisted. -/
theorem Mem.read_of_lt : ∀ {m : Mem} {lo a : Nat}, Mem.wfFrom lo m = true → a < lo → m.read a = unlisted
  | [], _, _, _, _ => rfl
  | (x, y) :: m, lo, a, hm, ha => by
    rw [Mem.wfFrom_cons] at hm
    rw [Mem.read_cons, if_neg (by omega)]
    exact Mem.read_of_lt hm.2.2 (by omega)

theorem Mem.read_entry_append (a c : Nat) (b : Byte) (m : Mem) :
    Mem.read (Mem.entry a b ++ m) c = if c = a ∧ b ≠ unlisted then b else Mem.read m c := by
  unfold Mem.entry
  split
  · next h => simp [h]
  · next h => simp [Mem.read_cons, h]

theorem Mem.read_write_same : ∀ {m : Mem} {lo : Nat} (a : Nat) (b : Byte),
    Mem.wfFrom lo m = true → (m.write a b).read a = b
  | [], _, a, b, _ => by
    unfold Mem.write Mem.entry
    split
    · next h => rw [h]; rfl
    · simp [Mem.read_cons]
  | (x, y) :: m, lo, a, b, hm => by
    rw [Mem.wfFrom_cons] at hm
    unfold Mem.write
    split
    · next h =>
      rw [Mem.read_entry_append, Mem.read_cons, if_neg (by omega : ¬ a = x),
        Mem.read_of_lt hm.2.2 (by omega)]
      by_cases hb : b = unlisted <;> simp [hb]
    · split
      · next h =>
        subst h
        rw [Mem.read_entry_append, Mem.read_of_lt hm.2.2 (by omega)]
        by_cases hb : b = unlisted <;> simp [hb]
      · next h =>
        rw [Mem.read_cons, if_neg h]
        exact Mem.read_write_same a b hm.2.2

theorem Mem.read_write_other : ∀ (m : Mem) (a : Nat) (b : Byte) {c : Nat}, c ≠ a → (m.write a b).read c = m.read c
  | [], a, b, c, hc => by
    unfold Mem.write Mem.entry
    split
    · rfl
    · simp [Mem.read_cons, hc]
  | (x, y) :: m, a, b, c, hc => by
    unfold Mem.write
    split
    · rw [Mem.read_entry_append]; simp [hc]
    · split
      · next h =>
        rw [Mem.read_entry_append, Mem.read_cons, ← h]
        simp [hc]
      · rw [Mem.read_cons, Mem.read_cons, Mem.read_write_other m a b hc]

/-- Every write keeps the canonical form. -/
theorem Mem.wfFrom_write : ∀ {m : Mem} {lo : Nat} (a : Nat) (b : Byte),
    lo ≤ a → Mem.wfFrom lo m = true → Mem.wfFrom lo (m.write a b) = true
  | [], lo, a, b, ha, _ => by
    unfold Mem.write Mem.entry
    split
    · rfl
    · next h => rw [Mem.wfFrom_cons]; exact ⟨ha, h, rfl⟩
  | (x, y) :: m, lo, a, b, ha, hm => by
    have hm' := hm
    rw [Mem.wfFrom_cons] at hm
    unfold Mem.write
    split
    · next h =>
      unfold Mem.entry
      split
      · exact hm'
      · next hb =>
        rw [List.cons_append, List.nil_append, Mem.wfFrom_cons, Mem.wfFrom_cons]
        exact ⟨ha, hb, by omega, hm.2⟩
    · split
      · next h =>
        subst h
        unfold Mem.entry
        split
        · exact Mem.wfFrom_mono (by omega) hm.2.2
        · next hb =>
          rw [List.cons_append, List.nil_append, Mem.wfFrom_cons]
          exact ⟨ha, hb, hm.2.2⟩
      · next h1 h2 =>
        rw [Mem.wfFrom_cons]
        exact ⟨hm.1, hm.2.1, Mem.wfFrom_write a b (by omega) hm.2.2⟩

theorem Mem.wf_write {m : Mem} (a : Nat) (b : Byte) (h : m.wf = true) : (m.write a b).wf = true :=
  Mem.wfFrom_write a b (Nat.zero_le a) h

theorem Mem.below_cons (n x : Nat) (y : Byte) (m : Mem) :
    Mem.below n ((x, y) :: m) = true ↔ x < n ∧ Mem.below n m = true := by simp [Mem.below]

theorem Mem.below_entry_append {n a : Nat} (b : Byte) {m : Mem} (ha : a < n) (hm : m.below n = true) :
    Mem.below n (Mem.entry a b ++ m) = true := by
  unfold Mem.entry
  split
  · exact hm
  · rw [List.cons_append, List.nil_append, Mem.below_cons]; exact ⟨ha, hm⟩

theorem Mem.below_write {n a : Nat} (b : Byte) (ha : a < n) :
    ∀ {m : Mem}, m.below n = true → (m.write a b).below n = true
  | [], _ => by
    unfold Mem.write
    simpa using Mem.below_entry_append b ha (m := []) rfl
  | (x, y) :: m, hm => by
    have hm' := (Mem.below_cons _ _ _ _).1 hm
    unfold Mem.write
    split
    · exact Mem.below_entry_append b ha hm
    · split
      · exact Mem.below_entry_append b ha hm'.2
      · rw [Mem.below_cons]; exact ⟨hm'.1, Mem.below_write b ha hm'.2⟩

theorem Mem.wfFrom_ext : ∀ {m m' : Mem} {lo : Nat}, Mem.wfFrom lo m = true → Mem.wfFrom lo m' = true →
    (∀ a, m.read a = m'.read a) → m = m'
  | [], [], _, _, _, _ => rfl
  | [], (x, y) :: m', _, _, h', h => by
    rw [Mem.wfFrom_cons] at h'
    have := h x
    rw [Mem.read_nil, Mem.read_cons, if_pos rfl] at this
    exact absurd this.symm h'.2.1
  | (x, y) :: m, [], _, h', _, h => by
    rw [Mem.wfFrom_cons] at h'
    have := h x
    rw [Mem.read_nil, Mem.read_cons, if_pos rfl] at this
    exact absurd this h'.2.1
  | (x, y) :: m, (x', y') :: m', lo, hm, hm', h => by
    rw [Mem.wfFrom_cons] at hm hm'
    have hx : x = x' := by
      rcases Nat.lt_trichotomy x x' with hlt | heq | hgt
      · have := h x
        rw [Mem.read_cons, if_pos rfl, Mem.read_cons, if_neg (by omega),
          Mem.read_of_lt hm'.2.2 (by omega)] at this
        exact absurd this hm.2.1
      · exact heq
      · have := h x'
        rw [Mem.read_cons, if_neg (by omega), Mem.read_of_lt hm.2.2 (by omega), Mem.read_cons, if_pos rfl] at this
        exact absurd this.symm hm'.2.1
    subst hx
    have hy : y = y' := by simpa [Mem.read_cons] using h x
    subst hy
    have ht : m = m' := by
      refine Mem.wfFrom_ext hm.2.2 hm'.2.2 fun a => ?_
      by_cases ha : a = x
      · subst ha
        rw [Mem.read_of_lt hm.2.2 (by omega), Mem.read_of_lt hm'.2.2 (by omega)]
      · simpa [Mem.read_cons, ha] using h a
    rw [ht]

/-- Two memories in canonical form that read the same everywhere are the same data. -/
theorem Mem.ext_of_wf {m m' : Mem} (hm : m.wf = true) (hm' : m'.wf = true) (h : ∀ a, m.read a = m'.read a) :
    m = m' := Mem.wfFrom_ext hm hm' h

/-- R40: lane `k` of register `i` is the byte at `4 * i + k`. -/
theorem Mem.extract8_readReg (m : Mem) (i k : Nat) (hk : k < 4) :
    extract8 (m.readReg i) k = m.read (4 * i + k) := by
  have h := extract8_joinBytes (m.read (4 * i + 3)) (m.read (4 * i + 2)) (m.read (4 * i + 1)) (m.read (4 * i))
  unfold Mem.readReg
  rcases (by omega : k = 0 ∨ k = 1 ∨ k = 2 ∨ k = 3) with rfl | rfl | rfl | rfl
  · exact h.1
  · exact h.2.1
  · exact h.2.2.1
  · exact h.2.2.2

theorem Mem.readReg_toNat (m : Mem) (i : Nat) :
    (m.readReg i).toNat = (m.read (4 * i + 3)).toNat * 2 ^ 24 + (m.read (4 * i + 2)).toNat * 2 ^ 16 +
      (m.read (4 * i + 1)).toNat * 2 ^ 8 + (m.read (4 * i)).toNat := joinBytes_toNat _ _ _ _

theorem Mem.readReg_congr {m m' : Mem} {i : Nat} (h : ∀ k, k < 4 → m.read (4 * i + k) = m'.read (4 * i + k)) :
    m.readReg i = m'.readReg i := by
  have h0 := h 0 (by omega); have h1 := h 1 (by omega); have h2 := h 2 (by omega); have h3 := h 3 (by omega)
  simp only [Nat.add_zero] at h0
  simp only [Mem.readReg, h0, h1, h2, h3]

theorem Mem.wf_writeReg {m : Mem} (i : Nat) (v : Reg) (h : m.wf = true) : (m.writeReg i v).wf = true :=
  Mem.wf_write _ _ (Mem.wf_write _ _ (Mem.wf_write _ _ (Mem.wf_write _ _ h)))

theorem Mem.below_writeReg {m : Mem} {n i : Nat} (v : Reg) (hi : i < n) (h : m.below (4 * n) = true) :
    (m.writeReg i v).below (4 * n) = true :=
  Mem.below_write _ (by omega) (Mem.below_write _ (by omega) (Mem.below_write _ (by omega)
    (Mem.below_write _ (by omega) h)))

/-- The bytes of a register after it is written. -/
theorem Mem.read_writeReg_lane {m : Mem} (i : Nat) (v : Reg) (hm : m.wf = true) (k : Nat) (hk : k < 4) :
    (m.writeReg i v).read (4 * i + k) = extract8 v k := by
  have h0 := Mem.wf_write (4 * i) (extract8 v 0) hm
  have h1 := Mem.wf_write (4 * i + 1) (extract8 v 1) h0
  have h2 := Mem.wf_write (4 * i + 2) (extract8 v 2) h1
  unfold Mem.writeReg
  rcases (by omega : k = 0 ∨ k = 1 ∨ k = 2 ∨ k = 3) with rfl | rfl | rfl | rfl
  · rw [Mem.read_write_other _ _ _ (by omega), Mem.read_write_other _ _ _ (by omega),
      Mem.read_write_other _ _ _ (by omega)]
    exact Mem.read_write_same _ _ hm
  · rw [Mem.read_write_other _ _ _ (by omega), Mem.read_write_other _ _ _ (by omega)]
    exact Mem.read_write_same _ _ h0
  · rw [Mem.read_write_other _ _ _ (by omega)]
    exact Mem.read_write_same _ _ h1
  · exact Mem.read_write_same _ _ h2

/-- Every byte outside a register is as before it is written. -/
theorem Mem.read_writeReg_outside (m : Mem) (i : Nat) (v : Reg) {a : Nat} (ha : a < 4 * i ∨ 4 * i + 4 ≤ a) :
    (m.writeReg i v).read a = m.read a := by
  unfold Mem.writeReg
  rw [Mem.read_write_other _ _ _ (by omega), Mem.read_write_other _ _ _ (by omega),
    Mem.read_write_other _ _ _ (by omega), Mem.read_write_other _ _ _ (by omega)]

theorem Mem.readReg_writeReg_same {m : Mem} (i : Nat) (v : Reg) (hm : m.wf = true) :
    (m.writeReg i v).readReg i = v := by
  have e := fun k hk => Mem.read_writeReg_lane i v hm k hk
  have e0 := e 0 (by omega)
  rw [Nat.add_zero] at e0
  unfold Mem.readReg
  rw [e0, e 1 (by omega), e 2 (by omega), e 3 (by omega)]
  exact joinBytes_extract8 v

theorem Mem.readReg_writeReg_other (m : Mem) {i j : Nat} (v : Reg) (h : j ≠ i) :
    (m.writeReg i v).readReg j = m.readReg j :=
  Mem.readReg_congr fun k hk => Mem.read_writeReg_outside m i v (by omega)

theorem Mem.wf_ofRegs : ∀ (i : Nat) (vs : List Reg), (Mem.ofRegs i vs).wf = true
  | _, [] => rfl
  | i, _ :: vs => Mem.wf_writeReg _ _ (Mem.wf_ofRegs (i + 1) vs)

theorem Mem.below_ofRegs : ∀ (i n : Nat) (vs : List Reg), i + vs.length ≤ n → (Mem.ofRegs i vs).below (4 * n) = true
  | _, _, [], _ => rfl
  | i, n, _ :: vs, h => by
    rw [List.length_cons] at h
    exact Mem.below_writeReg _ (by omega) (Mem.below_ofRegs (i + 1) n vs (by omega))

/-- Register `i + j` of a store made from a list is the list's entry `j`. -/
theorem Mem.readReg_ofRegs : ∀ (vs : List Reg) (i j : Nat) (h : j < vs.length),
    (Mem.ofRegs i vs).readReg (i + j) = vs[j]
  | [], _, j, h => absurd h (by simp)
  | v :: vs, i, 0, _ => Mem.readReg_writeReg_same i v (Mem.wf_ofRegs (i + 1) vs)
  | v :: vs, i, j + 1, h => by
    have h' : j < vs.length := by simpa using h
    have := Mem.readReg_ofRegs vs (i + 1) j h'
    unfold Mem.ofRegs
    rw [Mem.readReg_writeReg_other _ _ (by omega), show i + (j + 1) = i + 1 + j by omega, this]
    rfl

end Sys2Proof.Machine
end

