-- ==== Sys2Proof/Laws/State.lean ====
section
/-! SUPPORT. One lemma per field per update of the state. -/

namespace Sys2Proof.Machine

@[simp] theorem respond_params (s : State) (r : Response) : (s.respond r).params = s.params := rfl
@[simp] theorem respond_mem (s : State) (r : Response) : (s.respond r).mem = s.mem := rfl
@[simp] theorem respond_trace (s : State) (r : Response) : (s.respond r).trace = s.trace := rfl
@[simp] theorem respond_slots (s : State) (r : Response) : (s.respond r).slots = s.slots := rfl
@[simp] theorem respond_rom (s : State) (r : Response) : (s.respond r).rom = s.rom := rfl
@[simp] theorem respond_resp (s : State) (r : Response) : (s.respond r).resp = some r := rfl
@[simp] theorem respond_commands (s : State) (r : Response) : (s.respond r).commands = s.commands := rfl
@[simp] theorem respond_now (s : State) (r : Response) : (s.respond r).now = s.now := rfl
@[simp] theorem respond_slotAt (s : State) (r : Response) (k : Nat) : (s.respond r).slotAt k = s.slotAt k := rfl

@[simp] theorem noteRead_params (s : State) (i : Nat) : (s.noteRead i).params = s.params := rfl
@[simp] theorem noteRead_mem (s : State) (i : Nat) : (s.noteRead i).mem = s.mem := rfl
@[simp] theorem noteRead_trace (s : State) (i : Nat) : (s.noteRead i).trace = .read i :: s.trace := rfl
@[simp] theorem noteRead_slots (s : State) (i : Nat) : (s.noteRead i).slots = s.slots := rfl
@[simp] theorem noteRead_rom (s : State) (i : Nat) : (s.noteRead i).rom = s.rom := rfl
@[simp] theorem noteRead_resp (s : State) (i : Nat) : (s.noteRead i).resp = s.resp := rfl
@[simp] theorem noteRead_commands (s : State) (i : Nat) : (s.noteRead i).commands = s.commands := rfl
@[simp] theorem noteRead_now (s : State) (i : Nat) : (s.noteRead i).now = s.now := rfl

@[simp] theorem putReg_params (s : State) (i : Nat) (v : Reg) : (s.putReg i v).params = s.params := by
  unfold State.putReg; split <;> rfl
@[simp] theorem putReg_trace (s : State) (i : Nat) (v : Reg) : (s.putReg i v).trace = .write i v :: s.trace := by
  unfold State.putReg; split <;> rfl
@[simp] theorem putReg_slots (s : State) (i : Nat) (v : Reg) : (s.putReg i v).slots = s.slots := by
  unfold State.putReg; split <;> rfl
@[simp] theorem putReg_rom (s : State) (i : Nat) (v : Reg) : (s.putReg i v).rom = s.rom := by
  unfold State.putReg; split <;> rfl
@[simp] theorem putReg_resp (s : State) (i : Nat) (v : Reg) : (s.putReg i v).resp = s.resp := by
  unfold State.putReg; split <;> rfl
@[simp] theorem putReg_commands (s : State) (i : Nat) (v : Reg) : (s.putReg i v).commands = s.commands := by
  unfold State.putReg; split <;> rfl
@[simp] theorem putReg_now (s : State) (i : Nat) (v : Reg) : (s.putReg i v).now = s.now := by
  unfold State.putReg; split <;> rfl
theorem putReg_mem_plain {s : State} (i : Nat) (v : Reg) (h : s.params.store = .plain) :
    (s.putReg i v).mem = s.mem.writeReg i v := by unfold State.putReg; rw [h]
theorem putReg_mem_device {s : State} (i : Nat) (v : Reg) (h : s.params.store ≠ .plain) :
    (s.putReg i v).mem = s.mem := by
  unfold State.putReg
  split
  · next hp => exact absurd hp h
  · rfl

/-- Whether `INIT_REGS` stand depends on the accesses and the slot table alone. -/
theorem initStands_congr {s t : State} (readEffects : Bool) (ht : t.trace = s.trace) (hs : t.slots = s.slots)
    (hr : t.rom = s.rom) : t.initStands readEffects = s.initStands readEffects := by
  unfold State.initStands; rw [ht, hs, hr]

/-- `INIT_REGS` stand exactly where no access may have changed them and there is no BAR to commit. -/
theorem initStands_iff {s : State} {readEffects : Bool} : s.initStands readEffects = true ↔
    (∀ a ∈ s.trace, accessHasEffect readEffects a = false) ∧ (∀ v ∈ s.slots, v = .empty) ∧ s.rom = .empty := by
  simp [State.initStands, and_assoc]

@[simp] theorem setSlot_params (s : State) (k : Nat) (v : Slot) : (s.setSlot k v).params = s.params := rfl
@[simp] theorem setSlot_mem (s : State) (k : Nat) (v : Slot) : (s.setSlot k v).mem = s.mem := rfl
@[simp] theorem setSlot_trace (s : State) (k : Nat) (v : Slot) : (s.setSlot k v).trace = s.trace := rfl
@[simp] theorem setSlot_slots (s : State) (k : Nat) (v : Slot) : (s.setSlot k v).slots = s.slots.set k v := rfl
@[simp] theorem setSlot_rom (s : State) (k : Nat) (v : Slot) : (s.setSlot k v).rom = s.rom := rfl
@[simp] theorem setSlot_resp (s : State) (k : Nat) (v : Slot) : (s.setSlot k v).resp = s.resp := rfl
@[simp] theorem setSlot_commands (s : State) (k : Nat) (v : Slot) : (s.setSlot k v).commands = s.commands := rfl
@[simp] theorem setSlot_now (s : State) (k : Nat) (v : Slot) : (s.setSlot k v).now = s.now := rfl

@[simp] theorem place_params (s : State) (k : Nat) (r : Region) (p : Bool) : (s.place k r p).params = s.params := by
  unfold State.place; split <;> rfl
@[simp] theorem place_mem (s : State) (k : Nat) (r : Region) (p : Bool) : (s.place k r p).mem = s.mem := by
  unfold State.place; split <;> rfl
@[simp] theorem place_trace (s : State) (k : Nat) (r : Region) (p : Bool) : (s.place k r p).trace = s.trace := by
  unfold State.place; split <;> rfl
@[simp] theorem place_rom (s : State) (k : Nat) (r : Region) (p : Bool) : (s.place k r p).rom = s.rom := by
  unfold State.place; split <;> rfl
@[simp] theorem place_resp (s : State) (k : Nat) (r : Region) (p : Bool) : (s.place k r p).resp = s.resp := by
  unfold State.place; split <;> rfl
@[simp] theorem place_commands (s : State) (k : Nat) (r : Region) (p : Bool) :
    (s.place k r p).commands = s.commands := by unfold State.place; split <;> rfl
@[simp] theorem place_now (s : State) (k : Nat) (r : Region) (p : Bool) : (s.place k r p).now = s.now := by
  unfold State.place; split <;> rfl
@[simp] theorem place_slots_length (s : State) (k : Nat) (r : Region) (p : Bool) :
    (s.place k r p).slots.length = s.slots.length := by unfold State.place; split <;> simp

@[simp] theorem setRom_params (s : State) (v : RomSlot) : (s.setRom v).params = s.params := rfl
@[simp] theorem setRom_mem (s : State) (v : RomSlot) : (s.setRom v).mem = s.mem := rfl
@[simp] theorem setRom_trace (s : State) (v : RomSlot) : (s.setRom v).trace = s.trace := rfl
@[simp] theorem setRom_slots (s : State) (v : RomSlot) : (s.setRom v).slots = s.slots := rfl
@[simp] theorem setRom_rom (s : State) (v : RomSlot) : (s.setRom v).rom = v := rfl
@[simp] theorem setRom_resp (s : State) (v : RomSlot) : (s.setRom v).resp = s.resp := rfl
@[simp] theorem setRom_commands (s : State) (v : RomSlot) : (s.setRom v).commands = s.commands := rfl
@[simp] theorem setRom_now (s : State) (v : RomSlot) : (s.setRom v).now = s.now := rfl

@[simp] theorem tick_params (s : State) : s.tick.params = s.params := rfl
@[simp] theorem tick_mem (s : State) : s.tick.mem = s.mem := rfl
@[simp] theorem tick_trace (s : State) : s.tick.trace = s.trace := rfl
@[simp] theorem tick_slots (s : State) : s.tick.slots = s.slots := rfl
@[simp] theorem tick_rom (s : State) : s.tick.rom = s.rom := rfl
@[simp] theorem tick_resp (s : State) : s.tick.resp = s.resp := rfl
@[simp] theorem tick_commands (s : State) : s.tick.commands = s.commands := rfl
@[simp] theorem tick_now (s : State) : s.tick.now = s.now + 1 := rfl

@[simp] theorem withCommands_params (s : State) (cs : List Command) : (s.withCommands cs).params = s.params := rfl
@[simp] theorem withCommands_mem (s : State) (cs : List Command) : (s.withCommands cs).mem = s.mem := rfl
@[simp] theorem withCommands_trace (s : State) (cs : List Command) : (s.withCommands cs).trace = s.trace := rfl
@[simp] theorem withCommands_slots (s : State) (cs : List Command) : (s.withCommands cs).slots = s.slots := rfl
@[simp] theorem withCommands_rom (s : State) (cs : List Command) : (s.withCommands cs).rom = s.rom := rfl
@[simp] theorem withCommands_resp (s : State) (cs : List Command) : (s.withCommands cs).resp = s.resp := rfl
@[simp] theorem withCommands_commands (s : State) (cs : List Command) : (s.withCommands cs).commands = cs := rfl
@[simp] theorem withCommands_now (s : State) (cs : List Command) : (s.withCommands cs).now = s.now := rfl

end Sys2Proof.Machine
end

