-- ==== Sys2Proof/Laws/Ops.lean ====
section
/-! SUPPORT. One lemma per case of each shared operation. -/

namespace Sys2Proof.Machine

theorem storeRead_inside {i : Nat} {s : State} (h : i < s.params.cfgRegs) :
    storeRead i s = some (s.regValue i, s.noteRead i) := if_pos h

theorem storeRead_outside {i : Nat} {s : State} (h : s.params.cfgRegs ≤ i) : storeRead i s = none :=
  if_neg (Nat.not_lt.2 h)

theorem storeWrite_inside {i : Nat} {s : State} (v : Reg) (h : i < s.params.cfgRegs) :
    storeWrite i v s = some (s.putReg i v) := if_pos h

theorem storeWrite_outside {i : Nat} {s : State} (v : Reg) (h : s.params.cfgRegs ≤ i) : storeWrite i v s = none :=
  if_neg (Nat.not_lt.2 h)

theorem regValue_plain {s : State} (i : Nat) (h : s.params.store = .plain) : s.regValue i = s.mem.readReg i := by
  unfold State.regValue; rw [h]

/-- A device's own store gives `INIT_REGS` while they stand. -/
theorem regValue_init {s : State} {readEffects : Bool} (i : Nat) (h : s.params.store = .device readEffects)
    (hi : s.initStands readEffects = true) : s.regValue i = s.mem.readReg i := by
  simp [State.regValue, h, hi]

/-- A device's own store gives a free value once they do not. -/
theorem regValue_free {s : State} {readEffects : Bool} (i : Nat) (h : s.params.store = .device readEffects)
    (hi : s.initStands readEffects = false) : s.regValue i = Config.deviceRead s.view i := by
  simp [State.regValue, h, hi]

theorem finishWrite_inside {i : Nat} {s : State} (v : Reg) (h : i < s.params.cfgRegs) :
    finishWrite i v s = done (s.putReg i v) := by unfold finishWrite; rw [storeWrite_inside v h]

theorem dwordMisaligned_iff (a : Nat) : dwordMisaligned a = true ↔ a % 4 ≠ 0 := by simp [dwordMisaligned]

theorem wordMisaligned_iff (offset : Wide) : wordMisaligned offset = true ↔ offset.toNat % 2 ≠ 0 := by
  simp only [wordMisaligned, byteIdx, Bool.or_eq_true, beq_iff_eq]
  omega

theorem wordAligned_iff (offset : Wide) :
    wordMisaligned offset = false ↔ byteIdx offset = 0 ∨ byteIdx offset = 2 := by
  simp only [wordMisaligned, byteIdx, Bool.or_eq_false_iff, beq_eq_false_iff_ne]
  omega

theorem registerOf_byteIdx (offset : Wide) : offset.toNat = 4 * registerOf offset + byteIdx offset := by
  unfold registerOf byteIdx; omega

theorem byteIdx_lt (offset : Wide) : byteIdx offset < 4 := Nat.mod_lt _ (by decide)

theorem byteRead_inside {offset : Wide} {s : State} (h : registerOf offset < s.params.cfgRegs) :
    byteRead offset s = returnData ((extract8 (s.regValue (registerOf offset)) (byteIdx offset)).setWidth 32)
      (s.noteRead (registerOf offset)) := by unfold byteRead; rw [storeRead_inside h]

theorem byteRead_outside {offset : Wide} {s : State} (h : s.params.cfgRegs ≤ registerOf offset) :
    byteRead offset s = raise .offsetOutOfBounds s := by unfold byteRead; rw [storeRead_outside h]

theorem byteWrite_inside {offset : Wide} {s : State} (b : Byte) (h : registerOf offset < s.params.cfgRegs) :
    byteWrite offset b s = done ((s.noteRead (registerOf offset)).putReg (registerOf offset)
      (insert8 (s.regValue (registerOf offset)) (byteIdx offset) b)) := by
  unfold byteWrite; rw [storeRead_inside h]; exact finishWrite_inside _ h

theorem byteWrite_outside {offset : Wide} {s : State} (b : Byte) (h : s.params.cfgRegs ≤ registerOf offset) :
    byteWrite offset b s = raise .offsetOutOfBounds s := by unfold byteWrite; rw [storeRead_outside h]

theorem wordRead_inside {offset : Wide} {s : State} (ha : wordMisaligned offset = false)
    (h : registerOf offset < s.params.cfgRegs) :
    wordRead offset s = returnData ((extract16 (s.regValue (registerOf offset)) (byteIdx offset)).setWidth 32)
      (s.noteRead (registerOf offset)) := by
  unfold wordRead; rw [storeRead_inside h, ha]; cases s.params.wordOrder <;> rfl

theorem wordRead_outside {offset : Wide} {s : State} (ha : wordMisaligned offset = false)
    (h : s.params.cfgRegs ≤ registerOf offset) : wordRead offset s = raise .offsetOutOfBounds s := by
  unfold wordRead; rw [storeRead_outside h, ha]; cases s.params.wordOrder <;> rfl

theorem wordRead_misaligned_alignFirst {offset : Wide} {s : State} (ho : s.params.wordOrder = .alignFirst)
    (ha : wordMisaligned offset = true) : wordRead offset s = raise .unalignedAccess s := by
  unfold wordRead; rw [ho]; simp [ha]

theorem wordRead_misaligned_readFirst {offset : Wide} {s : State} (ho : s.params.wordOrder = .readFirst)
    (ha : wordMisaligned offset = true) (h : registerOf offset < s.params.cfgRegs) :
    wordRead offset s = raise .unalignedAccess (s.noteRead (registerOf offset)) := by
  unfold wordRead; rw [ho, storeRead_inside h]; simp [ha]

theorem wordRead_outside_readFirst {offset : Wide} {s : State} (ho : s.params.wordOrder = .readFirst)
    (h : s.params.cfgRegs ≤ registerOf offset) : wordRead offset s = raise .offsetOutOfBounds s := by
  unfold wordRead; rw [ho, storeRead_outside h]

theorem wordWrite_inside {offset : Wide} {s : State} (w : Half) (ha : wordMisaligned offset = false)
    (h : registerOf offset < s.params.cfgRegs) :
    wordWrite offset w s = done ((s.noteRead (registerOf offset)).putReg (registerOf offset)
      (insert16 (s.regValue (registerOf offset)) (byteIdx offset) w)) := by
  have e := finishWrite_inside (s := s.noteRead (registerOf offset))
    (insert16 (s.regValue (registerOf offset)) (byteIdx offset) w) h
  unfold wordWrite; rw [storeRead_inside h, ha]; cases s.params.wordOrder <;> exact e

theorem wordWrite_outside {offset : Wide} {s : State} (w : Half) (ha : wordMisaligned offset = false)
    (h : s.params.cfgRegs ≤ registerOf offset) : wordWrite offset w s = raise .offsetOutOfBounds s := by
  unfold wordWrite; rw [storeRead_outside h, ha]; cases s.params.wordOrder <;> rfl

theorem wordWrite_misaligned_alignFirst {offset : Wide} {s : State} (w : Half)
    (ho : s.params.wordOrder = .alignFirst) (ha : wordMisaligned offset = true) :
    wordWrite offset w s = raise .unalignedAccess s := by
  unfold wordWrite; rw [ho]; simp [ha]

theorem wordWrite_misaligned_readFirst {offset : Wide} {s : State} (w : Half)
    (ho : s.params.wordOrder = .readFirst) (ha : wordMisaligned offset = true)
    (h : registerOf offset < s.params.cfgRegs) :
    wordWrite offset w s = raise .unalignedAccess (s.noteRead (registerOf offset)) := by
  unfold wordWrite; rw [ho, storeRead_inside h]; simp [ha]

theorem wordWrite_outside_readFirst {offset : Wide} {s : State} (w : Half)
    (ho : s.params.wordOrder = .readFirst) (h : s.params.cfgRegs ≤ registerOf offset) :
    wordWrite offset w s = raise .offsetOutOfBounds s := by
  unfold wordWrite; rw [ho, storeRead_outside h]

theorem checkedAdd_none {w : Nat} {a b : BitVec w} (h : 2 ^ w ≤ a.toNat + b.toNat) : checkedAdd a b = none :=
  if_neg (by omega)

theorem checkedAdd_some {w : Nat} {a b : BitVec w} (h : a.toNat + b.toNat < 2 ^ w) :
    checkedAdd a b = some (a.toNat + b.toNat) := if_pos (by omega)

theorem construct_overflow {w : Nat} (f : BitVec w → BitVec w → Region) {a l : BitVec w} (s : State)
    (h : 2 ^ w ≤ a.toNat + l.toNat) :
    construct f a l s = raise (.addressInvalid (a.setWidth 64) (l.setWidth 64)) s := by
  unfold construct; rw [checkedAdd_none h]

theorem construct_misaligned {w : Nat} (f : BitVec w → BitVec w → Region) {a l : BitVec w} (s : State)
    (h : a.toNat + l.toNat < 2 ^ w) (ha : a.toNat % 4 ≠ 0) : construct f a l s = raise .unalignedAccess s := by
  unfold construct; rw [checkedAdd_some h]; simp [dwordMisaligned, ha]

theorem construct_ok {w : Nat} (f : BitVec w → BitVec w → Region) {a l : BitVec w} (s : State)
    (h : a.toNat + l.toNat < 2 ^ w) (ha : a.toNat % 4 = 0) : construct f a l s = returnRegion (f a l) s := by
  unfold construct; rw [checkedAdd_some h]; simp [dwordMisaligned, ha]

theorem operandsConstructible_iff {w : Nat} (a l : BitVec w) :
    operandsConstructible a l = true ↔ a.toNat + l.toNat < 2 ^ w ∧ a.toNat % 4 = 0 := by
  have : 0 < 2 ^ w := Nat.two_pow_pos w
  unfold operandsConstructible checkedAdd
  rw [Bool.and_eq_true, decide_eq_true_iff]
  refine and_congr_left fun _ => ?_
  split <;> simp <;> omega

theorem slotAt_setSlot (s : State) (k j : Nat) (v : Slot) :
    (s.setSlot k v).slotAt j = if j = k ∧ k < s.slots.length then v else s.slotAt j := by
  unfold State.slotAt State.setSlot
  simp only [List.getD_eq_getElem?_getD, List.getElem?_set]
  by_cases h : k = j
  · subst h
    by_cases hl : k < s.slots.length <;> simp [hl]
  · simp [h, Ne.symm h]

theorem slotAt_place (s : State) (k j : Nat) (r : Region) (p : Bool) :
    (s.place k r p).slotAt j =
      if j = k ∧ k < s.slots.length then .bar r p
      else if isMemory64 r = true ∧ j = k + 1 ∧ k + 1 < s.slots.length then .upper64 k
      else s.slotAt j := by
  unfold State.place
  split
  · next h =>
    rw [slotAt_setSlot, slotAt_setSlot]
    simp only [setSlot_slots, List.length_set, h, true_and]
    by_cases h1 : j = k
    · subst h1; simp
    · simp [h1]
  · next h =>
    rw [slotAt_setSlot]
    simp [h]

theorem slotAt_of_ge {s : State} {k : Nat} (h : s.slots.length ≤ k) : s.slotAt k = .empty := by
  simp [State.slotAt, List.getD_eq_getElem?_getD, List.getElem?_eq_none h]

theorem occupiedError_none {v : Slot} : occupiedError v = none ↔ v = .empty := by
  cases v with
  | empty => simp [occupiedError]
  | upper64 _ => simp [occupiedError]
  | bar r p => simp only [occupiedError]; split <;> simp

end Sys2Proof.Machine
end

