-- ==== Sys2Proof/Laws/Exec.lean ====
section
/-! SUPPORT. Everything a command can do to the state, said once: if `exec` answers a next state, one of the cases of
`Effect` holds, and the response is written over it. -/

namespace Sys2Proof.Machine

/-- What command `i` can do to `s` beside answering: nothing, one store read, one store write, a read and then a
write of the same register, a BAR placed, a ROM BAR placed. The four that change something answer OK. -/
inductive Effect (i : Instr) (s : State) : Response → State → Prop
  | answer (r : Response) : Effect i s r s
  | read (r : Response) (k : Nat) : k < s.params.cfgRegs → Effect i s r (s.noteRead k)
  | write (k : Nat) (v : Reg) : k < s.params.cfgRegs → Effect i s okResponse (s.putReg k v)
  | readWrite (k : Nat) (v : Reg) : k < s.params.cfgRegs → Effect i s okResponse ((s.noteRead k).putReg k v)
  | place (index : BitVec 32) (r : Region) (p : Bool) : i = .addBar index r p →
      slotNumber index < s.params.barSlots → s.slotAt (slotNumber index) = .empty →
      s.hasRoom (slotNumber index) r = true → Effect i s okResponse (s.place (slotNumber index) r p)
  | setRom (r : Region) (e : Bool) : i = .addRomBar r e → s.rom = .empty →
      Effect i s okResponse (s.setRom (.rom r e))

/-- An outcome whose next state, where there is one, is an effect of `i` with its response. -/
def Effects (i : Instr) (s : State) (o : Result) : Prop :=
  ∀ t, o = .next t → ∃ r u, Effect i s r u ∧ t = u.respond r

section
variable {i : Instr} {s : State}

theorem effects_respond {r : Response} {u : State} (h : Effect i s r u) : Effects i s (.next (u.respond r)) := by
  intro t ht
  injection ht with ht
  exact ⟨r, u, h, ht.symm⟩

theorem effects_raise (c : Cause) : Effects i s (raise c s) := effects_respond (.answer _)

theorem effects_refused (why : Refusal) : Effects i s (.refused why) := by intro t ht; cases ht

theorem effects_byteRead (offset : Wide) : Effects i s (byteRead offset s) := by
  by_cases h : registerOf offset < s.params.cfgRegs
  · rw [byteRead_inside h]; exact effects_respond (.read _ _ h)
  · rw [byteRead_outside (Nat.not_lt.1 h)]; exact effects_raise _

theorem effects_byteWrite (offset : Wide) (b : Byte) : Effects i s (byteWrite offset b s) := by
  by_cases h : registerOf offset < s.params.cfgRegs
  · rw [byteWrite_inside b h]; exact effects_respond (.readWrite _ _ h)
  · rw [byteWrite_outside b (Nat.not_lt.1 h)]; exact effects_raise _

theorem effects_wordRead (offset : Wide) : Effects i s (wordRead offset s) := by
  by_cases h : registerOf offset < s.params.cfgRegs
  · cases ha : wordMisaligned offset
    · rw [wordRead_inside ha h]; exact effects_respond (.read _ _ h)
    · cases ho : s.params.wordOrder
      · rw [wordRead_misaligned_alignFirst ho ha]; exact effects_raise _
      · rw [wordRead_misaligned_readFirst ho ha h]; exact effects_respond (.read _ _ h)
  · have h' := Nat.not_lt.1 h
    cases ha : wordMisaligned offset
    · rw [wordRead_outside ha h']; exact effects_raise _
    · cases ho : s.params.wordOrder
      · rw [wordRead_misaligned_alignFirst ho ha]; exact effects_raise _
      · rw [wordRead_outside_readFirst ho h']; exact effects_raise _

theorem effects_wordWrite (offset : Wide) (w : Half) : Effects i s (wordWrite offset w s) := by
  by_cases h : registerOf offset < s.params.cfgRegs
  · cases ha : wordMisaligned offset
    · rw [wordWrite_inside w ha h]; exact effects_respond (.readWrite _ _ h)
    · cases ho : s.params.wordOrder
      · rw [wordWrite_misaligned_alignFirst w ho ha]; exact effects_raise _
      · rw [wordWrite_misaligned_readFirst w ho ha h]; exact effects_respond (.read _ _ h)
  · have h' := Nat.not_lt.1 h
    cases ha : wordMisaligned offset
    · rw [wordWrite_outside w ha h']; exact effects_raise _
    · cases ho : s.params.wordOrder
      · rw [wordWrite_misaligned_alignFirst w ho ha]; exact effects_raise _
      · rw [wordWrite_outside_readFirst w ho h']; exact effects_raise _

theorem effects_construct {w : Nat} (f : BitVec w → BitVec w → Region) (a l : BitVec w) :
    Effects i s (construct f a l s) := by
  unfold construct
  split
  · exact effects_raise _
  · split
    · exact effects_raise _
    · exact effects_respond (.answer _)

theorem effects_answerValue (which : TaxonomyId) (t : Taxonomy) (tag : Byte) :
    Effects i s (answerValue which t tag s) := by
  unfold answerValue
  split
  · exact effects_respond (.answer _)
  · exact effects_refused _

theorem effects_addBar (index : BitVec 32) (r : Region) (p : Bool) :
    Effects (.addBar index r p) s (execAddBar index r p s) := by
  unfold execAddBar addBarReference addBarDevice
  split
  · split
    · exact effects_raise _
    · next hk =>
      split
      · exact effects_raise _
      · next he =>
        split
        · next hm =>
          split
          · exact effects_raise _
          · next hk1 =>
            split
            · exact effects_raise _
            · next he1 =>
              refine effects_respond (.place index r p rfl (by omega) (occupiedError_none.1 he) ?_)
              simp [State.hasRoom, hm, occupiedError_none.1 he1]
              omega
        · next hm =>
          refine effects_respond (.place index r p rfl (by omega) (occupiedError_none.1 he) ?_)
          simp [State.hasRoom, hm]
  · simp only []
    split
    · exact effects_raise _
    · split
      · exact effects_raise _
      · next hk he =>
        split
        · next hr =>
          split
          · exact effects_raise _
          · exact effects_respond (.place index r p rfl (by omega) (by simpa using he) hr)
        · exact effects_raise _

theorem effects_addRomBar (r : Region) (e : Bool) : Effects (.addRomBar r e) s (execAddRomBar r e s) := by
  unfold execAddRomBar addRomBarReference addRomBarDevice
  split
  · split
    · exact effects_raise _
    · next h => exact effects_respond (.setRom r e rfl h)
  · split
    · exact effects_raise _
    · next h =>
      split
      · exact effects_raise _
      · exact effects_respond (.setRom r e rfl h)

theorem effects_barAddress (index : BitVec 32) : Effects i s (execBarAddress index s) := by
  unfold execBarAddress barAddressReference barAddressDevice
  split
  · split
    · exact effects_raise _
    · split
      · exact effects_raise _
      · exact effects_raise _
      · exact effects_respond (.answer _)
  · simp only []
    split
    · exact effects_raise _
    · split
      · exact effects_raise _
      · split
        · split
          · exact effects_respond (.answer _)
          · exact effects_raise _
        · exact effects_raise _
        · exact effects_raise _
      · exact effects_respond (.answer _)

end

/-- Every command's next state is one of its effects with the response written over it. -/
theorem exec_effects (i : Instr) (s : State) : Effects i s (exec i s) := by
  cases i
  case validateAlign a =>
    show Effects _ s (execValidateAlign a s)
    unfold execValidateAlign
    split
    · exact effects_raise _
    · exact effects_respond (.answer _)
  case readDword a =>
    show Effects _ s (execReadDword a s)
    unfold execReadDword
    split
    · exact effects_raise _
    · by_cases h : registerOf a < s.params.cfgRegs
      · rw [storeRead_inside h]; exact effects_respond (.read _ _ h)
      · rw [storeRead_outside (Nat.not_lt.1 h)]; exact effects_raise _
  case writeDword a v =>
    show Effects _ s (execWriteDword a v s)
    unfold execWriteDword
    split
    · exact effects_raise _
    · by_cases h : registerOf a < s.params.cfgRegs
      · rw [storeWrite_inside v h]; exact effects_respond (.write _ _ h)
      · rw [storeWrite_outside v (Nat.not_lt.1 h)]; exact effects_raise _
  case readWord a => exact effects_wordRead a
  case writeWord a w => exact effects_wordWrite a w
  case readByte a => exact effects_byteRead a
  case writeByte a b => exact effects_byteWrite a b
  case readVendorId => exact effects_wordRead _
  case readDeviceId => exact effects_wordRead _
  case readCommand => exact effects_wordRead _
  case readStatus => exact effects_wordRead _
  case readRevisionId => exact effects_byteRead _
  case readProgIf => exact effects_byteRead _
  case readSubclass => exact effects_byteRead _
  case readClassCode => exact effects_byteRead _
  case readCacheLineSize => exact effects_byteRead _
  case readLatencyTimer => exact effects_byteRead _
  case readHeaderType => exact effects_byteRead _
  case readBist => exact effects_byteRead _
  case newIoRegion a l => exact effects_construct Region.io a l
  case newMem32Region a l => exact effects_construct Region.memory32 a l
  case newMem64Region a l => exact effects_construct Region.memory64 a l
  case regionEq a b => exact effects_respond (.answer _)
  case classFrom b => exact effects_respond (.answer _)
  case classValue t => exact effects_answerValue _ _ t
  case bridgeSubclassFrom b => exact effects_respond (.answer _)
  case bridgeSubclassValue t => exact effects_answerValue _ _ t
  case capidFrom b => exact effects_respond (.answer _)
  case capidValue t => exact effects_answerValue _ _ t
  case hdrtypeFrom b => exact effects_respond (.answer _)
  case hdrtypeValue t => exact effects_answerValue _ _ t
  case addBar k r p => exact effects_addBar k r p
  case addRomBar r e => exact effects_addRomBar r e
  case barAddress k => exact effects_barAddress k
  case romBarAddress =>
    show Effects _ s (execRomBarAddress s)
    unfold execRomBarAddress
    split
    · exact effects_raise _
    · exact effects_respond (.answer _)

end Sys2Proof.Machine
end

