-- ==== Sys2Proof/Laws/Answers.lean ====
section
/-! SUPPORT. What each command answers, when it answers: which causes it can raise, and the shape of its success. -/

namespace Sys2Proof.Machine

theorem answer_eq {t : State} {x r : Response} {u : State}
    (h : Host.Outcome.next (State.respond u x) = (Host.Outcome.next t : Result)) (hr : t.resp = some r) : r = x := by
  injection h with h; subst h; injection hr with hr; exact hr.symm

theorem wordRead_answer {o : Wide} {s t : State} {r : Response}
    (h : wordRead o s = .next t) (hr : t.resp = some r) :
    r = errorResponse .unalignedAccess ∧ o.toNat % 2 ≠ 0 ∨ r = errorResponse .offsetOutOfBounds ∨
      ∃ v, r = dataResponse v := by
  unfold wordRead at h
  simp only [raise, returnData] at h
  split at h
  · split at h
    · next hm => exact .inl ⟨answer_eq h hr, (wordMisaligned_iff o).1 hm⟩
    · split at h
      · exact .inr (.inl (answer_eq h hr))
      · exact .inr (.inr ⟨_, answer_eq h hr⟩)
  · split at h
    · exact .inr (.inl (answer_eq h hr))
    · split at h
      · next hm => exact .inl ⟨answer_eq h hr, (wordMisaligned_iff o).1 hm⟩
      · exact .inr (.inr ⟨_, answer_eq h hr⟩)

theorem finishWrite_answer {i : Nat} {v : Reg} {s t : State} {r : Response}
    (h : finishWrite i v s = .next t) (hr : t.resp = some r) :
    r = errorResponse .offsetOutOfBounds ∨ r = okResponse := by
  unfold finishWrite at h
  simp only [raise, done] at h
  split at h
  · exact .inl (answer_eq h hr)
  · exact .inr (answer_eq h hr)

theorem wordWrite_answer {o : Wide} {w : Half} {s t : State} {r : Response}
    (h : wordWrite o w s = .next t) (hr : t.resp = some r) :
    r = errorResponse .unalignedAccess ∨ r = errorResponse .offsetOutOfBounds ∨ r = okResponse := by
  unfold wordWrite at h
  simp only [raise] at h
  split at h
  · split at h
    · exact .inl (answer_eq h hr)
    · split at h
      · exact .inr (.inl (answer_eq h hr))
      · exact .inr (finishWrite_answer h hr)
  · split at h
    · exact .inr (.inl (answer_eq h hr))
    · split at h
      · exact .inl (answer_eq h hr)
      · exact .inr (finishWrite_answer h hr)

theorem byteRead_answer {o : Wide} {s t : State} {r : Response}
    (h : byteRead o s = .next t) (hr : t.resp = some r) :
    r = errorResponse .offsetOutOfBounds ∨ ∃ v, r = dataResponse v := by
  unfold byteRead at h
  simp only [raise, returnData] at h
  split at h
  · exact .inl (answer_eq h hr)
  · exact .inr ⟨_, answer_eq h hr⟩

theorem byteWrite_answer {o : Wide} {w : Byte} {s t : State} {r : Response}
    (h : byteWrite o w s = .next t) (hr : t.resp = some r) :
    r = errorResponse .offsetOutOfBounds ∨ r = okResponse := by
  unfold byteWrite at h
  simp only [raise] at h
  split at h
  · exact .inl (answer_eq h hr)
  · exact (finishWrite_answer h hr)

theorem construct_answer {w : Nat} {f : BitVec w → BitVec w → Region} {a l : BitVec w} {s t : State}
    {r : Response}
    (h : construct f a l s = .next t) (hr : t.resp = some r) :
    r = errorResponse .unalignedAccess ∨ (∃ x y, r = errorResponse (.addressInvalid x y)) ∨
      ∃ v, r = regionResponse v := by
  unfold construct at h
  simp only [raise, returnRegion] at h
  split at h
  · exact .inr (.inl ⟨_, _, answer_eq h hr⟩)
  · split at h
    · exact .inl (answer_eq h hr)
    · exact .inr (.inr ⟨_, answer_eq h hr⟩)

theorem answerValue_answer {which : TaxonomyId} {ta : Taxonomy} {tag : Byte} {s t : State} {r : Response}
    (h : answerValue which ta tag s = .next t) (hr : t.resp = some r) :
    ∃ v, r = dataResponse v := by
  unfold answerValue at h
  split at h
  · exact ⟨_, answer_eq h hr⟩
  · cases h

theorem answerFrom_answer {ta : Taxonomy} {tag : Byte} {s t : State} {r : Response}
    (h : answerFrom ta tag s = .next t) (hr : t.resp = some r) :
    ∃ v, r = dataResponse v :=
   ⟨_, answer_eq h hr⟩

theorem addBar_answer {k : BitVec 32} {r : Region} {p : Bool} {s t : State} {x : Response}
    (h : execAddBar k r p s = .next t) (hr : t.resp = some x) :
    (∃ c, x = errorResponse c ∧ (s.params.slotImpl = .reference → c = .barIndex ∨ c = .barInUse ∨ c = .barInUse64)) ∨
      x = okResponse := by
  have occ : ∀ {v c}, occupiedError v = some c → c = .barIndex ∨ c = .barInUse ∨ c = .barInUse64 := by
    intro v c h; cases v <;> simp only [occupiedError] at h
    · cases h
    · split at h <;> cases h <;> simp
    · cases h; simp
  unfold execAddBar addBarReference addBarDevice at h
  simp only [raise, done] at h
  split at h
  · split at h
    · exact .inl ⟨_, answer_eq h hr, by simp⟩
    · split at h
      · next ho => exact .inl ⟨_, answer_eq h hr, fun _ => occ ho⟩
      · split at h
        · split at h
          · exact .inl ⟨_, answer_eq h hr, by simp⟩
          · split at h
            · next ho => exact .inl ⟨_, answer_eq h hr, fun _ => occ ho⟩
            · exact .inr (answer_eq h hr)
        · exact .inr (answer_eq h hr)
  · next hd =>
    repeat' split at h
    all_goals first | exact .inl ⟨_, answer_eq h hr, by simp [hd]⟩ | exact .inr (answer_eq h hr)

theorem addRomBar_answer {r : Region} {p : Bool} {s t : State} {x : Response}
    (h : execAddRomBar r p s = .next t) (hr : t.resp = some x) :
    (∃ c, x = errorResponse c ∧ (s.params.slotImpl = .reference → c = .romBarInUse)) ∨ x = okResponse := by
  unfold execAddRomBar addRomBarReference addRomBarDevice at h
  simp only [raise, done] at h
  split at h
  · repeat' split at h
    all_goals first | exact .inl ⟨_, answer_eq h hr, by simp⟩ | exact .inr (answer_eq h hr)
  · next hd =>
    repeat' split at h
    all_goals first | exact .inl ⟨_, answer_eq h hr, by simp [hd]⟩ | exact .inr (answer_eq h hr)

theorem barAddress_answer {k : BitVec 32} {s t : State} {x : Response}
    (h : execBarAddress k s = .next t) (hr : t.resp = some x) :
    (∃ c, x = errorResponse c ∧ (c = .barIndex ∨ c = .barInvalid ∨ c = .barInvalid64)) ∨
      ∃ r, x = regionResponse r := by
  unfold execBarAddress barAddressReference barAddressDevice at h
  simp only [raise, returnRegion] at h
  repeat' split at h
  all_goals first | exact .inl ⟨_, answer_eq h hr, by simp⟩ | exact .inr ⟨_, answer_eq h hr⟩

theorem romBarAddress_answer {s t : State} {x : Response}
    (h : execRomBarAddress s = .next t) (hr : t.resp = some x) :
    x = errorResponse .romBarInvalid ∨ ∃ r, x = regionResponse r := by
  unfold execRomBarAddress at h
  simp only [raise, returnRegion] at h
  repeat' split at h
  all_goals first | exact .inl (answer_eq h hr) | exact .inr ⟨_, answer_eq h hr⟩

theorem validateAlign_answer {o : Wide} {s t : State} {x : Response}
    (h : execValidateAlign o s = .next t) (hr : t.resp = some x) :
    x = errorResponse .unalignedAccess ∨ x = okResponse := by
  unfold execValidateAlign at h
  simp only [raise, done] at h
  repeat' split at h
  all_goals first | exact .inl (answer_eq h hr) | exact .inr (answer_eq h hr)

theorem readDword_answer {o : Wide} {s t : State} {x : Response}
    (h : execReadDword o s = .next t) (hr : t.resp = some x) :
    x = errorResponse .unalignedAccess ∨ x = errorResponse .offsetOutOfBounds ∨ ∃ v, x = dataResponse v := by
  unfold execReadDword at h
  simp only [raise, returnData] at h
  repeat' split at h
  all_goals first | exact .inl (answer_eq h hr) | exact .inr (.inl (answer_eq h hr)) |
    exact .inr (.inr ⟨_, answer_eq h hr⟩)

theorem writeDword_answer {o : Wide} {v : Reg} {s t : State} {x : Response}
    (h : execWriteDword o v s = .next t) (hr : t.resp = some x) :
    x = errorResponse .unalignedAccess ∨ x = errorResponse .offsetOutOfBounds ∨ x = okResponse := by
  unfold execWriteDword at h
  simp only [raise, done] at h
  repeat' split at h
  all_goals first | exact .inl (answer_eq h hr) | exact .inr (.inl (answer_eq h hr)) |
    exact .inr (.inr (answer_eq h hr))

/-- R220: the causes a command can raise (the contracts by the reference design). -/
def Raises (i : Instr) (c : Cause) : Prop :=
  match i with
  | .validateAlign _ => c = .unalignedAccess
  | .readDword _ | .writeDword _ _ | .readWord _ | .writeWord _ _ => c = .unalignedAccess ∨ c = .offsetOutOfBounds
  | .readByte _ | .writeByte _ _ | .readVendorId | .readDeviceId | .readCommand | .readStatus | .readRevisionId
  | .readProgIf | .readSubclass | .readClassCode | .readCacheLineSize | .readLatencyTimer | .readHeaderType
  | .readBist => c = .offsetOutOfBounds
  | .newIoRegion _ _ | .newMem32Region _ _ | .newMem64Region _ _ =>
    c = .unalignedAccess ∨ ∃ x y, c = .addressInvalid x y
  | .regionEq _ _ | .classFrom _ | .classValue _ | .bridgeSubclassFrom _ | .bridgeSubclassValue _ | .capidFrom _
  | .capidValue _ | .hdrtypeFrom _ | .hdrtypeValue _ => False
  | .addBar _ _ _ => c = .barIndex ∨ c = .barInUse ∨ c = .barInUse64
  | .addRomBar _ _ => c = .romBarInUse
  | .barAddress _ => c = .barIndex ∨ c = .barInvalid ∨ c = .barInvalid64
  | .romBarAddress => c = .romBarInvalid

/-- R62: the response of a command that succeeds. -/
def Returns (i : Instr) (r : Response) : Prop :=
  match i with
  | .readDword _ | .readWord _ | .readByte _ | .readVendorId | .readDeviceId | .readCommand | .readStatus
  | .readRevisionId | .readProgIf | .readSubclass | .readClassCode | .readCacheLineSize | .readLatencyTimer
  | .readHeaderType | .readBist | .classFrom _ | .classValue _ | .bridgeSubclassFrom _
  | .bridgeSubclassValue _ | .capidFrom _ | .capidValue _ | .hdrtypeFrom _ | .hdrtypeValue _ =>
    ∃ v, r = dataResponse v
  | .newIoRegion _ _ | .newMem32Region _ _ | .newMem64Region _ _ | .barAddress _ | .romBarAddress =>
    ∃ v, r = regionResponse v
  | .regionEq _ _ => ∃ v, r = boolResponse v
  | .validateAlign _ | .writeDword _ _ | .writeWord _ _ | .writeByte _ _ | .addBar _ _ _ | .addRomBar _ _ =>
    r = okResponse

/-- A response is an error the command can raise, or its success. -/
theorem exec_answer {i : Instr} {s t : State} {r : Response}
    (h : exec i s = .next t) (hr : t.resp = some r) :
    (∃ c, r = errorResponse c ∧ (s.params.slotImpl = .reference → Raises i c)) ∨ Returns i r := by
  cases i
  case validateAlign =>
    rcases validateAlign_answer h hr with rfl|rfl
    · exact .inl ⟨_, rfl, fun _ => rfl⟩
    · exact .inr rfl
  case readDword =>
    rcases readDword_answer h hr with rfl|rfl|h
    · exact .inl ⟨_, rfl, fun _ => .inl rfl⟩
    · exact .inl ⟨_, rfl, fun _ => .inr rfl⟩
    · exact .inr h
  case writeDword =>
    rcases writeDword_answer h hr with rfl|rfl|h
    · exact .inl ⟨_, rfl, fun _ => .inl rfl⟩
    · exact .inl ⟨_, rfl, fun _ => .inr rfl⟩
    · exact .inr h
  case readWord =>
    rcases wordRead_answer h hr with ⟨rfl, _⟩|rfl|h
    · exact .inl ⟨_, rfl, fun _ => .inl rfl⟩
    · exact .inl ⟨_, rfl, fun _ => .inr rfl⟩
    · exact .inr h
  case writeWord =>
    rcases wordWrite_answer h hr with rfl|rfl|h
    · exact .inl ⟨_, rfl, fun _ => .inl rfl⟩
    · exact .inl ⟨_, rfl, fun _ => .inr rfl⟩
    · exact .inr h
  case readByte =>
    rcases byteRead_answer h hr with rfl|h
    · exact .inl ⟨_, rfl, fun _ => rfl⟩
    · exact .inr h
  case writeByte =>
    rcases byteWrite_answer h hr with rfl|h
    · exact .inl ⟨_, rfl, fun _ => rfl⟩
    · exact .inr h
  case readVendorId =>
    rcases wordRead_answer h hr with ⟨rfl, e⟩|rfl|h
    · exact absurd rfl e
    · exact .inl ⟨_, rfl, fun _ => rfl⟩
    · exact .inr h
  case readDeviceId =>
    rcases wordRead_answer h hr with ⟨rfl, e⟩|rfl|h
    · exact absurd rfl e
    · exact .inl ⟨_, rfl, fun _ => rfl⟩
    · exact .inr h
  case readCommand =>
    rcases wordRead_answer h hr with ⟨rfl, e⟩|rfl|h
    · exact absurd rfl e
    · exact .inl ⟨_, rfl, fun _ => rfl⟩
    · exact .inr h
  case readStatus =>
    rcases wordRead_answer h hr with ⟨rfl, e⟩|rfl|h
    · exact absurd rfl e
    · exact .inl ⟨_, rfl, fun _ => rfl⟩
    · exact .inr h
  case readRevisionId =>
    rcases byteRead_answer h hr with rfl|h
    · exact .inl ⟨_, rfl, fun _ => rfl⟩
    · exact .inr h
  case readProgIf =>
    rcases byteRead_answer h hr with rfl|h
    · exact .inl ⟨_, rfl, fun _ => rfl⟩
    · exact .inr h
  case readSubclass =>
    rcases byteRead_answer h hr with rfl|h
    · exact .inl ⟨_, rfl, fun _ => rfl⟩
    · exact .inr h
  case readClassCode =>
    rcases byteRead_answer h hr with rfl|h
    · exact .inl ⟨_, rfl, fun _ => rfl⟩
    · exact .inr h
  case readCacheLineSize =>
    rcases byteRead_answer h hr with rfl|h
    · exact .inl ⟨_, rfl, fun _ => rfl⟩
    · exact .inr h
  case readLatencyTimer =>
    rcases byteRead_answer h hr with rfl|h
    · exact .inl ⟨_, rfl, fun _ => rfl⟩
    · exact .inr h
  case readHeaderType =>
    rcases byteRead_answer h hr with rfl|h
    · exact .inl ⟨_, rfl, fun _ => rfl⟩
    · exact .inr h
  case readBist =>
    rcases byteRead_answer h hr with rfl|h
    · exact .inl ⟨_, rfl, fun _ => rfl⟩
    · exact .inr h
  case newIoRegion =>
    rcases construct_answer (f := Region.io) h hr with rfl|⟨x,y,rfl⟩|h
    · exact .inl ⟨_, rfl, fun _ => .inl rfl⟩
    · exact .inl ⟨_, rfl, fun _ => .inr ⟨_,_,rfl⟩⟩
    · exact .inr h
  case newMem32Region =>
    rcases construct_answer (f := Region.memory32) h hr with rfl|⟨x,y,rfl⟩|h
    · exact .inl ⟨_, rfl, fun _ => .inl rfl⟩
    · exact .inl ⟨_, rfl, fun _ => .inr ⟨_,_,rfl⟩⟩
    · exact .inr h
  case newMem64Region =>
    rcases construct_answer (f := Region.memory64) h hr with rfl|⟨x,y,rfl⟩|h
    · exact .inl ⟨_, rfl, fun _ => .inl rfl⟩
    · exact .inl ⟨_, rfl, fun _ => .inr ⟨_,_,rfl⟩⟩
    · exact .inr h
  case regionEq => exact .inr ⟨_, answer_eq h hr⟩
  case classFrom => exact .inr (answerFrom_answer h hr)
  case bridgeSubclassFrom => exact .inr (answerFrom_answer h hr)
  case capidFrom => exact .inr (answerFrom_answer h hr)
  case hdrtypeFrom => exact .inr (answerFrom_answer h hr)
  case classValue => exact .inr (answerValue_answer h hr)
  case bridgeSubclassValue => exact .inr (answerValue_answer h hr)
  case capidValue => exact .inr (answerValue_answer h hr)
  case hdrtypeValue => exact .inr (answerValue_answer h hr)
  case addBar =>
    rcases addBar_answer h hr with h|h
    · exact .inl h
    · exact .inr h
  case addRomBar =>
    rcases addRomBar_answer h hr with h|h
    · exact .inl h
    · exact .inr h
  case barAddress =>
    rcases barAddress_answer h hr with ⟨c,h,h'⟩|h
    · exact .inl ⟨c,h,fun _ => h'⟩
    · exact .inr h
  case romBarAddress =>
    rcases romBarAddress_answer h hr with rfl|h
    · exact .inl ⟨_, rfl, fun _ => rfl⟩
    · exact .inr h

theorem errorResponse_status (c : Cause) : (errorResponse c).status ≠ .ok := by
  cases c <;> simp [errorResponse, causeStatus]

theorem errorResponse_cause (c : Cause) : (errorResponse c).cause = some c := by cases c <;> rfl

end Sys2Proof.Machine
end

