-- ==== Sys2Proof/Laws/Assembler.lean ====
section
/-! SUPPORT. The names of the assembly form, and the numbers and regions on the ports. -/

namespace Sys2Proof.Machine

theorem namedOpcode_mnemonic (o : Opcode) : namedOpcode (mnemonic o).toList = some o := by
  cases o <;> decide

theorem portValue_toNat {w : Nat} (b : BitVec w) : portValue w b.toNat = some b := by
  unfold portValue; rw [if_pos b.isLt]; simp

theorem portRegion_toNat (p : RegionPort) : portRegion p.kind p.addr.toNat p.len.toNat = some p := by
  unfold portRegion; rw [portValue_toNat, portValue_toNat]

theorem assembleParts_mnemonic (o : Opcode) (operands : List AsmOperand) :
    assembleParts (mnemonic o).toList operands = setPorts (Command.bare o) (writtenPorts o) operands := by
  unfold assembleParts; rw [namedOpcode_mnemonic]

/-- A pseudo-instruction's name is no mnemonic, so its command is the write it stands for. -/
theorem assembleParts_pseudo {name : List Char} {o : Opcode} {offset : Nat} (hn : namedOpcode name = none)
    (hp : pseudoWrite name = some (o, offset)) (operands : List AsmOperand) :
    assembleParts name operands = setPorts (Command.bare o) (writtenPorts o) (.number offset :: operands) := by
  unfold assembleParts; rw [hn, hp]

end Sys2Proof.Machine
end

