-- ==== Sys2Proof/Laws/Decode.lean ====
section
/-! SUPPORT. The decoder and the encoder, operand by operand. -/

namespace Sys2Proof

open Machine

theorem Opcode.ofCode_code (o : Opcode) : Opcode.ofCode o.code = some o := by cases o <;> rfl

theorem Opcode.code_of_ofCode {op : Byte} {o : Opcode} (h : Opcode.ofCode op = some o) : o.code = op := by
  have := List.find?_some h
  simpa using this

theorem decode_of_op {c : Command} {o : Opcode} (h : c.op = o.code) : decode c = decodeOperands o c := by
  unfold decode; rw [h, Opcode.ofCode_code]

theorem decode_ok {c : Command} {i : Instr} (h : decode c = .ok i) :
    ∃ o, c.op = Opcode.code o ∧ decodeOperands o c = .ok i := by
  unfold decode at h
  split at h
  · cases h
  · next o ho => exact ⟨o, (Opcode.code_of_ofCode ho).symm, h⟩

theorem dataOperand_ok {w : Nat} {d : Reg} (h : d.toNat < 2 ^ w) : dataOperand w d = .ok (d.setWidth w) := if_pos h

theorem dataOperand_error {w : Nat} {d : Reg} (h : 2 ^ w ≤ d.toNat) : dataOperand w d = .error (.dataTooWide d) :=
  if_neg (Nat.not_lt.2 h)

theorem narrowOperand_ok {v : Wide} (h : v.toNat < 2 ^ 32) : narrowOperand v = .ok (v.setWidth 32) := if_pos h

theorem narrowOperand_error {v : Wide} (h : 2 ^ 32 ≤ v.toNat) : narrowOperand v = .error (.operandTooWide v) :=
  if_neg (Nat.not_lt.2 h)

theorem dataOperand_setWidth {w : Nat} (hw : w ≤ 32) (b : BitVec w) : dataOperand w (b.setWidth 32) = .ok b := by
  have hb : (b.setWidth 32).toNat = b.toNat := by
    rw [BitVec.toNat_setWidth]
    exact Nat.mod_eq_of_lt (Nat.lt_of_lt_of_le b.isLt (Nat.pow_le_pow_right (by decide) hw))
  rw [dataOperand_ok (by rw [hb]; exact b.isLt)]
  congr 1
  apply BitVec.eq_of_toNat_eq
  rw [BitVec.toNat_setWidth, hb]
  exact Nat.mod_eq_of_lt b.isLt

theorem narrowOperand_setWidth (a : Reg) : narrowOperand (a.setWidth 64) = .ok a := by
  have hb : (a.setWidth 64).toNat = a.toNat := by
    rw [BitVec.toNat_setWidth]
    exact Nat.mod_eq_of_lt (Nat.lt_of_lt_of_le a.isLt (by decide))
  rw [narrowOperand_ok (by rw [hb]; exact a.isLt)]
  congr 1
  apply BitVec.eq_of_toNat_eq
  rw [BitVec.toNat_setWidth, hb]
  exact Nat.mod_eq_of_lt a.isLt

theorem setWidth_setWidth_of_lt {v w : Nat} (x : BitVec v) (h : x.toNat < 2 ^ w) : (x.setWidth w).setWidth v = x := by
  apply BitVec.eq_of_toNat_eq
  rw [BitVec.toNat_setWidth, BitVec.toNat_setWidth, Nat.mod_eq_of_lt h, Nat.mod_eq_of_lt x.isLt]

theorem typedRegion_regionPort (r : Region) : typedRegion (regionPort r) = some r := by
  cases r with
  | memory64 a l => rfl
  | io a l =>
    have ha := a.isLt; have hl := l.isLt
    simp [typedRegion, regionPort, kindCode, BitVec.toNat_setWidth]
    exact ⟨by omega, by omega⟩
  | memory32 a l =>
    have ha := a.isLt; have hl := l.isLt
    simp [typedRegion, regionPort, kindCode, BitVec.toNat_setWidth]
    exact ⟨by omega, by omega⟩

theorem regionPort_of_typedRegion {p : RegionPort} {r : Region} (h : typedRegion p = some r) : regionPort r = p := by
  unfold typedRegion at h
  obtain ⟨k, a, l⟩ := p
  split at h
  · next hk => cases h; simp only at hk; subst hk; rfl
  · split at h
    · next hal =>
      split at h
      · next hk =>
        cases h; simp only at hk hal; subst hk
        simp only [regionPort, kindCode, setWidth_setWidth_of_lt _ hal.1, setWidth_setWidth_of_lt _ hal.2]
      · split at h
        · next hk =>
          cases h; simp only at hk hal; subst hk
          simp only [regionPort, kindCode, setWidth_setWidth_of_lt _ hal.1, setWidth_setWidth_of_lt _ hal.2]
        · cases h
    · cases h

theorem regionPort_injective {a b : Region} (h : regionPort a = regionPort b) : a = b := by
  have := typedRegion_regionPort a
  rw [h, typedRegion_regionPort] at this
  exact (Option.some.inj this).symm

theorem regionOperand_ok_iff {p : RegionPort} {r : Region} :
    regionOperand p = .ok r ↔ p = regionPort r ∧ constructible r = true := by
  constructor
  · intro h
    unfold regionOperand at h
    split at h
    · cases h
    · next q hq =>
      split at h
      · next hc => cases h; exact ⟨(regionPort_of_typedRegion hq).symm, hc⟩
      · cases h
  · rintro ⟨rfl, hc⟩
    unfold regionOperand
    rw [typedRegion_regionPort]
    simp [hc]

theorem regionOperand_error {p : RegionPort} {e : DecodeRefusal} (h : regionOperand p = .error e) :
    e = .noSuchRegion p := by
  unfold regionOperand at h
  split at h
  · cases h; rfl
  · split at h
    · cases h
    · cases h; rfl

end Sys2Proof
end

