-- ==== Sys2Proof/Laws/PerInstr.lean ====
section
/-! SUPPORT. One lemma per constructor: the op of an encoded command selects that command (30_encoding.md R69). -/

namespace Sys2Proof.Laws

/-- The op on the ports of the encoded command selects the command, and is the row's op. -/
def OpcodeOf.Statement (i : Instr) : Prop :=
  (encode i).op = i.opcode.code ∧ Opcode.ofCode (encode i).op = some i.opcode

theorem OpcodeOf.validateAlign (a : Wide) : OpcodeOf.Statement (.validateAlign a) := ⟨rfl, rfl⟩
theorem OpcodeOf.readDword (a : Wide) : OpcodeOf.Statement (.readDword a) := ⟨rfl, rfl⟩
theorem OpcodeOf.writeDword (a : Wide) (d : Reg) : OpcodeOf.Statement (.writeDword a d) := ⟨rfl, rfl⟩
theorem OpcodeOf.readWord (a : Wide) : OpcodeOf.Statement (.readWord a) := ⟨rfl, rfl⟩
theorem OpcodeOf.writeWord (a : Wide) (d : Half) : OpcodeOf.Statement (.writeWord a d) := ⟨rfl, rfl⟩
theorem OpcodeOf.readByte (a : Wide) : OpcodeOf.Statement (.readByte a) := ⟨rfl, rfl⟩
theorem OpcodeOf.writeByte (a : Wide) (d : Byte) : OpcodeOf.Statement (.writeByte a d) := ⟨rfl, rfl⟩
theorem OpcodeOf.readVendorId : OpcodeOf.Statement .readVendorId := ⟨rfl, rfl⟩
theorem OpcodeOf.readDeviceId : OpcodeOf.Statement .readDeviceId := ⟨rfl, rfl⟩
theorem OpcodeOf.readCommand : OpcodeOf.Statement .readCommand := ⟨rfl, rfl⟩
theorem OpcodeOf.readStatus : OpcodeOf.Statement .readStatus := ⟨rfl, rfl⟩
theorem OpcodeOf.readRevisionId : OpcodeOf.Statement .readRevisionId := ⟨rfl, rfl⟩
theorem OpcodeOf.readProgIf : OpcodeOf.Statement .readProgIf := ⟨rfl, rfl⟩
theorem OpcodeOf.readSubclass : OpcodeOf.Statement .readSubclass := ⟨rfl, rfl⟩
theorem OpcodeOf.readClassCode : OpcodeOf.Statement .readClassCode := ⟨rfl, rfl⟩
theorem OpcodeOf.readCacheLineSize : OpcodeOf.Statement .readCacheLineSize := ⟨rfl, rfl⟩
theorem OpcodeOf.readLatencyTimer : OpcodeOf.Statement .readLatencyTimer := ⟨rfl, rfl⟩
theorem OpcodeOf.readHeaderType : OpcodeOf.Statement .readHeaderType := ⟨rfl, rfl⟩
theorem OpcodeOf.readBist : OpcodeOf.Statement .readBist := ⟨rfl, rfl⟩
theorem OpcodeOf.newIoRegion (a l : Reg) : OpcodeOf.Statement (.newIoRegion a l) := ⟨rfl, rfl⟩
theorem OpcodeOf.newMem32Region (a l : Reg) : OpcodeOf.Statement (.newMem32Region a l) := ⟨rfl, rfl⟩
theorem OpcodeOf.newMem64Region (a l : Wide) : OpcodeOf.Statement (.newMem64Region a l) := ⟨rfl, rfl⟩
theorem OpcodeOf.regionEq (rA rB : Region) : OpcodeOf.Statement (.regionEq rA rB) := ⟨rfl, rfl⟩
theorem OpcodeOf.classFrom (b : Byte) : OpcodeOf.Statement (.classFrom b) := ⟨rfl, rfl⟩
theorem OpcodeOf.classValue (t : Byte) : OpcodeOf.Statement (.classValue t) := ⟨rfl, rfl⟩
theorem OpcodeOf.bridgeSubclassFrom (b : Byte) : OpcodeOf.Statement (.bridgeSubclassFrom b) := ⟨rfl, rfl⟩
theorem OpcodeOf.bridgeSubclassValue (t : Byte) : OpcodeOf.Statement (.bridgeSubclassValue t) := ⟨rfl, rfl⟩
theorem OpcodeOf.capidFrom (b : Byte) : OpcodeOf.Statement (.capidFrom b) := ⟨rfl, rfl⟩
theorem OpcodeOf.capidValue (t : Byte) : OpcodeOf.Statement (.capidValue t) := ⟨rfl, rfl⟩
theorem OpcodeOf.hdrtypeFrom (b : Byte) : OpcodeOf.Statement (.hdrtypeFrom b) := ⟨rfl, rfl⟩
theorem OpcodeOf.hdrtypeValue (t : Byte) : OpcodeOf.Statement (.hdrtypeValue t) := ⟨rfl, rfl⟩
theorem OpcodeOf.addBar (k : BitVec 32) (r : Region) (p : Bool) : OpcodeOf.Statement (.addBar k r p) := ⟨rfl, rfl⟩
theorem OpcodeOf.addRomBar (r : Region) (e : Bool) : OpcodeOf.Statement (.addRomBar r e) := ⟨rfl, rfl⟩
theorem OpcodeOf.barAddress (k : BitVec 32) : OpcodeOf.Statement (.barAddress k) := ⟨rfl, rfl⟩
theorem OpcodeOf.romBarAddress : OpcodeOf.Statement .romBarAddress := ⟨rfl, rfl⟩

end Sys2Proof.Laws
end

