-- ==== Sys2Proof/Laws/Step.lean ====
section
/-! SUPPORT. What a step that goes on has done: nothing, or one effect of the decoded command. -/

namespace Sys2Proof.Machine

theorem step_cases {s t : State} (h : step s = .next t) :
    (s.commands = [] ∧ t = s.tick) ∨
    ∃ c rest i r u, s.commands = c :: rest ∧ decode c = .ok i ∧
      Effect i (s.tick.withCommands rest) r u ∧ t = u.respond r := by
  unfold step at h
  split at h
  · next hc => injection h with h; exact .inl ⟨hc, h.symm⟩
  · next c rest hc =>
    split at h
    · cases h
    · next i hi =>
      obtain ⟨r, u, he, ht⟩ := exec_effects _ _ _ h
      exact .inr ⟨c, rest, i, r, u, hc, hi, he, ht⟩

/-- No effect touches the parameters, the waiting commands or the counter. -/
theorem Effect.kept {i : Instr} {s u : State} {r : Response} (h : Effect i s r u) :
    u.params = s.params ∧ u.commands = s.commands ∧ u.now = s.now := by
  cases h <;> simp

/-- What an effect does to what `INIT_REGS` stand on: accesses are only added, a slot table with nothing in it was so
before, and `mem` changes only with a store write. -/
theorem Effect.quiet {i : Instr} {s u : State} {r : Response} (h : Effect i s r u) :
    (∃ p, u.trace = p ++ s.trace) ∧ ((∀ v ∈ u.slots, v = Slot.empty) → u.slots = s.slots) ∧
    (u.rom = .empty → s.rom = .empty) ∧ ((∀ k v, StoreAccess.write k v ∉ u.trace) → u.mem = s.mem) := by
  cases h with
  | answer => exact ⟨⟨[], rfl⟩, fun _ => rfl, id, fun _ => rfl⟩
  | read r k hk => exact ⟨⟨[_], rfl⟩, fun _ => rfl, id, fun _ => rfl⟩
  | write k v hk => exact ⟨⟨[.write k v], by simp⟩, fun _ => by simp, by simp, fun h => absurd (by simp) (h k v)⟩
  | readWrite k v hk =>
    exact ⟨⟨[.write k v, .read k], by simp⟩, fun _ => by simp, by simp, fun h => absurd (by simp) (h k v)⟩
  | setRom r e hx hr => exact ⟨⟨[], by simp⟩, fun _ => by simp, by simp, fun _ => by simp⟩
  | place index r p hi hk he hr =>
    refine ⟨⟨[], by simp⟩, fun h => ?_, by simp, fun _ => by simp⟩
    by_cases hl : slotNumber index < s.slots.length
    · have h2 := slotAt_place s (slotNumber index) (slotNumber index) r p
      have hl' : slotNumber index < (s.place (slotNumber index) r p).slots.length := by simpa using hl
      rw [if_pos ⟨rfl, hl⟩, State.slotAt, List.getD_eq_getElem?_getD, List.getElem?_eq_getElem hl',
        Option.getD_some, h _ (List.getElem_mem hl')] at h2
      cases h2
    · have hge := Nat.le_of_not_lt hl
      unfold State.place
      split <;> simp [State.setSlot, List.set_eq_of_length_le, hge, Nat.le_succ_of_le hge]

theorem putReg_respond (s : State) (i : Nat) (v : Reg) (r : Response) :
    (s.putReg i v).respond r =
      { s with mem := (s.putReg i v).mem, trace := .write i v :: s.trace, resp := some r } := by
  unfold State.putReg; cases s.params.store <;> rfl

end Sys2Proof.Machine
end

