-- ==== Sys2Proof/Laws/Taxonomies.lean ====
section
/-! SUPPORT. Decode and encode over any table, and that an other member's OPEN value lies outside the table. -/

namespace Sys2Proof.Machine

theorem taxonomyFrom_eq (t : Taxonomy) (b : Byte) : taxonomyFrom t b = if b ∈ t.codes then b else otherTag := by
  unfold taxonomyFrom
  by_cases h : b ∈ t.codes <;> simp [h]

theorem mem_allBytes (b : Byte) : b ∈ allBytes := by
  unfold allBytes
  rw [List.mem_map]
  exact ⟨b.toNat, List.mem_range.2 b.isLt, by simp⟩

theorem unusedByte_not_mem {codes : List Byte} (pick : Nat) (h : otherTag ∉ codes) : unusedByte codes pick ∉ codes := by
  unfold unusedByte
  have hne : otherTag ∈ allBytes.filter fun b => !codes.contains b := by
    rw [List.mem_filter]; exact ⟨mem_allBytes _, by simpa using h⟩
  simp only []
  have hlt := Nat.mod_lt pick (List.length_pos_of_mem hne)
  rw [List.getD_eq_getElem?_getD, List.getElem?_eq_getElem hlt]
  have := List.getElem_mem hlt
  rw [List.mem_filter] at this
  simpa using this.2

theorem otherValue_not_mem {which : TaxonomyId} {t : Taxonomy} (h : Taxonomy.wf t) : otherValue which t ∉ t.codes := by
  unfold otherValue
  cases ho : t.other with
  | some b => exact h.2 b ho
  | none => exact unusedByte_not_mem _ h.1

theorem answerFrom_known {t : Taxonomy} {b : Byte} (s : State) (h : b ∈ t.codes) :
    answerFrom t b s = returnData (b.setWidth 32) s := by unfold answerFrom; rw [taxonomyFrom_eq, if_pos h]

theorem answerFrom_unknown {t : Taxonomy} {b : Byte} (s : State) (h : b ∉ t.codes) :
    answerFrom t b s = returnData (otherTag.setWidth 32) s := by unfold answerFrom; rw [taxonomyFrom_eq, if_neg h]

theorem answerValue_other (which : TaxonomyId) (t : Taxonomy) (s : State) :
    answerValue which t otherTag s = returnData ((otherValue which t).setWidth 32) s := rfl

theorem answerValue_known (which : TaxonomyId) {t : Taxonomy} {tag : Byte} (s : State) (h : tag ≠ otherTag)
    (hm : tag ∈ t.codes) : answerValue which t tag s = returnData (tag.setWidth 32) s := by
  unfold answerValue taxonomyValue; rw [if_neg h]; simp [hm]

theorem answerValue_unknown (which : TaxonomyId) {t : Taxonomy} {tag : Byte} (s : State) (h : tag ≠ otherTag)
    (hm : tag ∉ t.codes) : answerValue which t tag s = .refused (.noSuchMember which tag) := by
  unfold answerValue taxonomyValue; rw [if_neg h]; simp [hm]

end Sys2Proof.Machine
end

