-- ==== Sys2Proof/Tests/Slice0.lean ====
section
/-! SUPPORT. The model's own tests. Expected values are the spec's worked examples and vectors (95_test_vectors.md: W1
to W10, D-V1 to D-S24) or are worked by hand from the numbered rules; then one witness for the hypotheses of each
statement of Certificates/Slice0/Obligations.lean. -/

namespace Sys2Proof.Tests

open Machine

/-! ## Ill-formed instructions are refused (30_encoding.md R66) -/

theorem test_wellFormed_boundary :
    (Instr.regionEq (.io 0xFFFFFFFC#32 3#32) (.memory64 0#64 0xFFFFFFFFFFFFFFFF#64)).wellFormed = true := by decide
theorem test_illFormed_io_overflow : (Instr.addRomBar (.io 0xFFFFFFFC#32 4#32) true).wellFormed = false := by decide
theorem test_illFormed_mem32_overflow :
    (Instr.addBar 0#32 (.memory32 0xE0000000#32 0x20000000#32) false).wellFormed = false := by decide
theorem test_illFormed_mem64_overflow :
    (Instr.addBar 0#32 (.memory64 0xFFFFFFFFFFFFF000#64 0x1000#64) false).wellFormed = false := by decide
theorem test_illFormed_io_misaligned : (Instr.addRomBar (.io 0x1002#32 0#32) true).wellFormed = false := by decide
theorem test_illFormed_mem32_misaligned :
    (Instr.addBar 0#32 (.memory32 0x1001#32 0#32) false).wellFormed = false := by decide
theorem test_illFormed_mem64_misaligned :
    (Instr.addBar 0#32 (.memory64 0x1003#64 0#64) false).wellFormed = false := by decide
theorem test_illFormed_rA : (Instr.regionEq (.io 0x1002#32 0#32) (.io 0#32 0#32)).wellFormed = false := by decide
theorem test_illFormed_rB : (Instr.regionEq (.io 0#32 0#32) (.io 0x1002#32 0#32)).wellFormed = false := by decide

/-! ## Decoding: every command from its ports, `op` written out from R69 -/

/-- The instruction on the ports, where there is one. -/
def decoded (c : Command) : Option Instr := (decode c).toOption

/-- A command with nothing on its operand ports. -/
def ports (op : Byte) : Command :=
  { op := op, offset := 0, data := 0, addr := 0, len := 0, rA := ⟨0, 0, 0⟩, rB := ⟨0, 0, 0⟩, index := 0, flag := false }

theorem test_decode_codec :
    decoded { ports 0b00000000#8 with offset := 0x12#64 } = some (.validateAlign 0x12#64) ∧
    decoded { ports 0b00000001#8 with offset := 0x10#64 } = some (.readDword 0x10#64) ∧
    decoded { ports 0b00000010#8 with offset := 4#64, data := 0x00100007#32 } = some (.writeDword 4#64 0x00100007#32) ∧
    decoded { ports 0b00000011#8 with offset := 2#64 } = some (.readWord 2#64) ∧
    decoded { ports 0b00000100#8 with offset := 6#64, data := 0xFFFF#32 } = some (.writeWord 6#64 0xFFFF#16) ∧
    decoded { ports 0b00000101#8 with offset := 0xFF#64 } = some (.readByte 0xFF#64) ∧
    decoded { ports 0b00000110#8 with offset := 0xB#64, data := 0x82#32 } = some (.writeByte 0xB#64 0x82#8) := by decide
theorem test_decode_named_words :
    decoded (ports 0b00010000#8) = some .readVendorId ∧ decoded (ports 0b00010001#8) = some .readDeviceId ∧
    decoded (ports 0b00010010#8) = some .readCommand ∧ decoded (ports 0b00010011#8) = some .readStatus := by decide
theorem test_decode_named_bytes :
    decoded (ports 0b00010100#8) = some .readRevisionId ∧ decoded (ports 0b00010101#8) = some .readProgIf ∧
    decoded (ports 0b00010110#8) = some .readSubclass ∧ decoded (ports 0b00010111#8) = some .readClassCode ∧
    decoded (ports 0b00011000#8) = some .readCacheLineSize ∧ decoded (ports 0b00011001#8) = some .readLatencyTimer ∧
    decoded (ports 0b00011010#8) = some .readHeaderType ∧ decoded (ports 0b00011011#8) = some .readBist := by decide
theorem test_decode_regions :
    decoded { ports 0b00100000#8 with addr := 0xC000#64, len := 0x40#64 } = some (.newIoRegion 0xC000#32 0x40#32) ∧
    decoded { ports 0b00100001#8 with addr := 0xFFFFFFFF#64, len := 1#64 } =
      some (.newMem32Region 0xFFFFFFFF#32 1#32) ∧
    decoded { ports 0b00100010#8 with addr := 0x8000000000#64, len := 0x100000#64 } =
      some (.newMem64Region 0x8000000000#64 0x100000#64) ∧
    decoded { ports 0b00100011#8 with rA := ⟨0b00#2, 0x1000#64, 4096#64⟩, rB := ⟨0b01#2, 0x1000#64, 4095#64⟩ } =
      some (.regionEq (.io 0x1000#32 4096#32) (.memory32 0x1000#32 4095#32)) := by decide
theorem test_decode_taxonomies :
    decoded { ports 0b00110000#8 with data := 0x02#32 } = some (.classFrom 0x02#8) ∧
    decoded { ports 0b00110001#8 with data := 0xFF#32 } = some (.classValue 0xFF#8) ∧
    decoded { ports 0b00110010#8 with data := 0x80#32 } = some (.bridgeSubclassFrom 0x80#8) ∧
    decoded { ports 0b00110011#8 with data := 0x04#32 } = some (.bridgeSubclassValue 0x04#8) ∧
    decoded { ports 0b00110100#8 with data := 0x7F#32 } = some (.capidFrom 0x7F#8) ∧
    decoded { ports 0b00110101#8 with data := 0x05#32 } = some (.capidValue 0x05#8) ∧
    decoded { ports 0b00110110#8 with data := 0x81#32 } = some (.hdrtypeFrom 0x81#8) ∧
    decoded { ports 0b00110111#8 with data := 0x01#32 } = some (.hdrtypeValue 0x01#8) := by decide
theorem test_decode_contracts :
    decoded { ports 0b01000000#8 with index := 2#32, rA := ⟨0b10#2, 0x8000000000#64, 0x100000#64⟩, flag := true } =
      some (.addBar 2#32 (.memory64 0x8000000000#64 0x100000#64) true) ∧
    decoded { ports 0b01000001#8 with rA := ⟨0b01#2, 0xFEB80000#64, 0x40000#64⟩ } =
      some (.addRomBar (.memory32 0xFEB80000#32 0x40000#32) false) ∧
    decoded { ports 0b01000010#8 with index := 0xFFFFFFFF#32 } = some (.barAddress 0xFFFFFFFF#32) ∧
    decoded (ports 0b01000011#8) = some .romBarAddress := by decide

/-- 30_encoding.md R73, R64 (D-W15, D-B13, D-T16), R65 (D-R13), R66 (D-R22, D-R23). -/
theorem test_decode_refusals :
    decoded (ports 0b00000111#8) = none ∧ decoded (ports 0b11111111#8) = none ∧
    decoded { ports 0x04#8 with data := 0x00010000#32 } = none ∧ decoded { ports 0x06#8 with data := 0x100#32 } = none ∧
    decoded { ports 0x34#8 with data := 0x105#32 } = none ∧
    decoded { ports 0x21#8 with addr := 0x100000000#64 } = none ∧
    decoded { ports 0x23#8 with rA := ⟨3#2, 0, 0⟩ } = none ∧
    decoded { ports 0x23#8 with rA := ⟨0#2, 0x1002#64, 0⟩ } = none ∧
    decoded { ports 0x41#8 with rA := ⟨1#2, 0x100000000#64, 0⟩ } = none := by decide

/-- The number layout of log 16: from `op`, the widths of R61's ports. -/
theorem test_decode_tableWord :
    decodeTableWord 72 (0x03 + 2 * 2 ^ 8) = some (.readWord 2#64) ∧
    decodeTableWord 104 (0x02 + 0x1C * 2 ^ 8 + 0xDEADBEEF * 2 ^ 72) = some (.writeDword 0x1C#64 0xDEADBEEF#32) ∧
    decodeTableWord 232 (0x22 + 0x1000 * 2 ^ 104 + 0x40 * 2 ^ 168) = some (.newMem64Region 0x1000#64 0x40#64) := by
  decide
/-- The same on a command that uses four ports: op, rA (kind 2, addr 4, len 8), index 3, flag. -/
theorem test_decode_tableWord_region :
    decoded (Command.ofNat (0x40 + 2 ^ 232 * (2 + 2 ^ 2 * (4 + 2 ^ 64 * (8 + 2 ^ 194 * (3 + 2 ^ 32)))))) =
      some (.addBar 3#32 (.memory64 4#64 8#64) true) := by decide

/-! ## States the tests start from -/

/-- A plain store of 64 registers whose first ones are listed (AlignFirst, Device, default tables). -/
def device (regs : List Reg) : State := State.launch resetParams regs

/-- The same under ReadFirst. -/
def readFirst (regs : List Reg) : State := State.launch { resetParams with wordOrder := .readFirst } regs

/-- The same with 1024 registers. -/
def express (regs : List Reg) : State := State.launch { resetParams with size := .regs1024 } regs

/-- A bridge. -/
def bridge : State := State.launch { resetParams with hdrKind := .bridge } []

/-- A store of the device's own, whose reads have side effects or not. -/
def ownStore (readEffects : Bool) : State :=
  State.launch { resetParams with store := .device readEffects } [0x12345678#32, 0x02900006#32]

/-- A device that keeps its own slots. -/
def ownSlots : State := State.launch { resetParams with slotImpl := .deviceDefined } []

/-- 95_test_vectors.md section 2.8: A, B and C. -/
def regionA : Region := .memory64 0x8000000000#64 0x100000#64
def regionB : Region := .io 0xC000#32 0x40#32
def regionC : Region := .memory32 0xE0000000#32 0x1000#32

/-- The slots after D-S2 and D-S5, by those vectors. -/
def filled : State :=
  { device [] with slots := [.bar regionA true, .upper64 0, .bar regionB false, .empty, .empty, .empty] }

/-- D-S22's slots after its first command. -/
def bridgeFilled : State := { bridge with slots := [.bar regionA false, .upper64 0] }

/-- The ROM slot after D-S18. -/
def withRom : State := { device [] with rom := .rom (.memory32 0xFEB80000#32 0x40000#32) false }

/-- The registers of section 2.5. -/
def namedRegs : List Reg := [0x10411AF4#32, 0x00100007#32, 0x02000001#32, 0x00800010#32]

/-- What a command answers. -/
def answer (i : Instr) (s : State) : Option Response := responseOf (exec i s)

/-- A register of the plain store after a command. -/
def regAfter (i : Instr) (s : State) (k : Nat) : Option Reg := (nextState (exec i s)).map fun t => t.mem.readReg k

/-- The slots after a command. -/
def slotsAfter (i : Instr) (s : State) : Option (List Slot) := (nextState (exec i s)).map State.slots

/-- An error without a payload. -/
def failed (e : Status) : Option Response := some { status := e }

/-- OK with data. -/
def gives (v : Reg) : Option Response := some { status := .ok, rdata := some v }

/-- OK with a region triple. -/
def givesRegion (k : BitVec 2) (a l : Wide) : Option Response := some { status := .ok, rregion := some ⟨k, a, l⟩ }

/-! ## Codec (section 2.1 to 2.4) -/

theorem test_validateAlign : answer (.validateAlign 0x1000#64) (device []) = failed .ok ∧
    answer (.validateAlign 0xFFFFFFFFFFFFFFFF#64) (device []) = failed .unalignedAccess := by decide
theorem test_readDword : answer (.readDword 0#64) (device [0xDEADBEEF#32]) = gives 0xDEADBEEF#32 ∧
    answer (.readDword 0xFC#64) (device [0xDEADBEEF#32]) = gives 0#32 := by decide
theorem test_readDword_errors : answer (.readDword 0x100#64) (device []) = failed .offsetOutOfBounds ∧
    answer (.readDword 0x101#64) (device []) = failed .unalignedAccess ∧
    answer (.readDword 0xFFC#64) (express []) = gives 0#32 ∧
    answer (.readDword 0x1000#64) (express []) = failed .offsetOutOfBounds := by decide
theorem test_writeDword : regAfter (.writeDword 4#64 0x00100007#32) (device [0xDEADBEEF#32]) 1 = some 0x00100007#32 ∧
    regAfter (.writeDword 4#64 0x00100007#32) (device [0xDEADBEEF#32]) 0 = some 0xDEADBEEF#32 := by decide
theorem test_writeDword_errors : answer (.writeDword 6#64 1#32) (device []) = failed .unalignedAccess ∧
    answer (.writeDword 0x100#64 1#32) (device []) = failed .offsetOutOfBounds ∧
    regAfter (.writeDword 6#64 1#32) (device [1#32, 2#32]) 1 = some 2#32 := by decide
theorem test_readWord : answer (.readWord 0#64) (device [0xDEADBEEF#32]) = gives 0xBEEF#32 ∧
    answer (.readWord 2#64) (device [0xDEADBEEF#32]) = gives 0xDEAD#32 ∧
    answer (.readWord 1#64) (device [0xDEADBEEF#32]) = failed .unalignedAccess := by decide
theorem test_readWord_order : answer (.readWord 0x101#64) (device []) = failed .unalignedAccess ∧
    answer (.readWord 0x101#64) (readFirst []) = failed .offsetOutOfBounds ∧
    answer (.readWord 0xFF#64) (readFirst []) = failed .unalignedAccess := by decide
theorem test_writeWord : regAfter (.writeWord 0#64 0xAAAA#16) (device [0x11223344#32]) 0 = some 0x1122AAAA#32 ∧
    regAfter (.writeWord 2#64 0x5555#16) (readFirst [0x11223344#32]) 0 = some 0x55553344#32 ∧
    regAfter (.writeWord 0#64 0#16) (device [0x11223344#32]) 0 = some 0x11220000#32 := by decide
/-- D-W10: no store access under AlignFirst, one read and no write under ReadFirst. -/
theorem test_writeWord_misaligned :
    (nextState (exec (.writeWord 1#64 0xFFFF#16) (device [0x11223344#32]))).map State.trace = some [] ∧
    (nextState (exec (.writeWord 1#64 0xFFFF#16) (readFirst [0x11223344#32]))).map State.trace = some [.read 0] ∧
    regAfter (.writeWord 1#64 0xFFFF#16) (readFirst [0x11223344#32]) 0 = some 0x11223344#32 ∧
    answer (.writeWord 0x102#64 1#16) (device []) = failed .offsetOutOfBounds := by decide
theorem test_readByte : answer (.readByte 1#64) (device [0xDEADBEEF#32]) = gives 0xBE#32 ∧
    answer (.readByte 3#64) (device [0xDEADBEEF#32]) = gives 0xDE#32 ∧
    answer (.readByte 0x100#64) (device []) = failed .offsetOutOfBounds := by decide
theorem test_writeByte : regAfter (.writeByte 1#64 0xEE#8) (device [0x11223344#32]) 0 = some 0x1122EE44#32 ∧
    regAfter (.writeByte 3#64 0xEE#8) (device [0x11223344#32]) 0 = some 0xEE223344#32 ∧
    answer (.writeByte 0x100#64 1#8) (device []) = failed .offsetOutOfBounds := by decide
/-- R44: a byte write reads the register and writes the merged one. -/
theorem test_writeByte_trace :
    (nextState (exec (.writeByte 0#64 0xEE#8) (device [0x11223344#32]))).map State.trace =
      some [.write 0 0x112233EE#32, .read 0] := by decide

/-- R250, R251: a store of the device's own holds its INIT_REGS too; without read side effects a later read still finds
them (worked by hand from those rules). -/
theorem test_device_store_holds_init :
    answer (.readDword 4#64) (ownStore true) = gives 0x02900006#32 ∧
    answer (.readWord 2#64) (ownStore false) = gives 0x1234#32 ∧
    ((nextState (exec (.readDword 0#64) (ownStore false))).bind fun t => answer .readStatus t) = gives 0x0290#32 := by
  decide

/-! ## Named fields (section 2.5) -/

theorem test_named_words : answer .readVendorId (device namedRegs) = gives 0x1AF4#32 ∧
    answer .readDeviceId (device namedRegs) = gives 0x1041#32 ∧ answer .readCommand (device namedRegs) = gives 7#32 ∧
    answer .readStatus (device namedRegs) = gives 0x10#32 := by decide
theorem test_named_bytes : answer .readRevisionId (device namedRegs) = gives 1#32 ∧
    answer .readProgIf (device namedRegs) = gives 0#32 ∧ answer .readSubclass (device namedRegs) = gives 0#32 ∧
    answer .readClassCode (device namedRegs) = gives 2#32 ∧
    answer .readCacheLineSize (device namedRegs) = gives 0x10#32 ∧
    answer .readLatencyTimer (device namedRegs) = gives 0#32 ∧
    answer .readHeaderType (device namedRegs) = gives 0x80#32 ∧ answer .readBist (device namedRegs) = gives 0#32 := by
  decide
/-- By R25, registers 2 and 3 with eight different bytes: each read has a lane of its own. -/
theorem test_named_lanes :
    let s := device [0#32, 0#32, 0x14131211#32, 0x18171615#32]
    answer .readRevisionId s = gives 0x11#32 ∧ answer .readProgIf s = gives 0x12#32 ∧
    answer .readSubclass s = gives 0x13#32 ∧ answer .readClassCode s = gives 0x14#32 ∧
    answer .readCacheLineSize s = gives 0x15#32 ∧ answer .readLatencyTimer s = gives 0x16#32 ∧
    answer .readHeaderType s = gives 0x17#32 ∧ answer .readBist s = gives 0x18#32 := by decide

/-! ## Regions (section 2.6) -/

theorem test_newIoRegion :
    answer (.newIoRegion 0xFFFFFFFC#32 3#32) (device []) = givesRegion 0#2 0xFFFFFFFC#64 3#64 ∧
    answer (.newIoRegion 0#32 0#32) (device []) = givesRegion 0#2 0#64 0#64 ∧
    answer (.newIoRegion 0x1002#32 0x10#32) (device []) = failed .unalignedAccess := by decide
/-- D-R8: overflow wins over misalignment. -/
theorem test_newIoRegion_overflow : answer (.newIoRegion 0xFFFFFFFF#32 1#32) (device []) =
    some { status := .addressInvalid, errAddr := some 0xFFFFFFFF#64, errLen := some 1#64 } := by decide
theorem test_newMem32Region :
    answer (.newMem32Region 0xE0000000#32 0x1FFFFFFF#32) (device []) =
      givesRegion 1#2 0xE0000000#64 0x1FFFFFFF#64 ∧
    answer (.newMem32Region 0xFFFFFFFF#32 0#32) (device []) = failed .unalignedAccess := by decide
theorem test_newMem32Region_overflow : answer (.newMem32Region 0xE0000000#32 0x20000000#32) (device []) =
    some { status := .addressInvalid, errAddr := some 0xE0000000#64, errLen := some 0x20000000#64 } := by decide
theorem test_newMem64Region :
    answer (.newMem64Region 0x100000000#64 0x1000#64) (device []) = givesRegion 2#2 0x100000000#64 0x1000#64 ∧
    answer (.newMem64Region 0xFFFFFFFFFFFFFFFF#64 0#64) (device []) = failed .unalignedAccess := by decide
theorem test_newMem64Region_overflow : answer (.newMem64Region 0xFFFFFFFFFFFFF000#64 0x1000#64) (device []) =
    some { status := .addressInvalid, errAddr := some 0xFFFFFFFFFFFFF000#64, errLen := some 0x1000#64 } := by decide
/-- W8, D-R19 to D-R21. -/
theorem test_regionEq :
    answer (.regionEq (.io 0x1000#32 4096#32) (.memory32 0x1000#32 4096#32)) (device []) =
      some { status := .ok, rbool := some false } ∧
    answer (.regionEq (.memory32 0x1000#32 4096#32) (.memory64 0x1000#64 4096#64)) (device []) =
      some { status := .ok, rbool := some false } ∧
    answer (.regionEq (.io 0x1000#32 4096#32) (.io 0x1000#32 4095#32)) (device []) =
      some { status := .ok, rbool := some false } ∧
    answer (.regionEq (.io 0x1000#32 4096#32) (.io 0x1000#32 4096#32)) (device []) =
      some { status := .ok, rbool := some true } := by decide

/-! ## Taxonomies (section 2.7) -/

theorem test_class : answer (.classFrom 0x13#8) (device []) = gives 0x13#32 ∧
    answer (.classFrom 0x14#8) (device []) = gives 0xFF#32 ∧ answer (.classValue 0xFF#8) (device []) = gives 0xFF#32 ∧
    answer (.classValue 0x40#8) (device []) = none := by decide
theorem test_bridgeSubclass : answer (.bridgeSubclassFrom 0x04#8) (device []) = gives 0x04#32 ∧
    answer (.bridgeSubclassFrom 0x07#8) (device []) = gives 0xFF#32 ∧
    answer (.bridgeSubclassValue 0xFF#8) (device []) = gives 0x80#32 ∧
    answer (.bridgeSubclassValue 0x02#8) (device []) = none := by decide
theorem test_capid : answer (.capidFrom 0x14#8) (device []) = gives 0x14#32 ∧
    answer (.capidFrom 0x15#8) (device []) = gives 0xFF#32 ∧ answer (.capidFrom 0x7F#8) (device []) = gives 0xFF#32 ∧
    answer (.capidValue 0x05#8) (device []) = gives 0x05#32 := by decide
theorem test_hdrtype : answer (.hdrtypeFrom 0x02#8) (device []) = gives 0x02#32 ∧
    answer (.hdrtypeFrom 0x80#8) (device []) = gives 0xFF#32 ∧
    answer (.hdrtypeFrom 0x03#8) (device []) = gives 0xFF#32 ∧
    answer (.hdrtypeValue 0x00#8) (device []) = gives 0#32 := by decide
/-- R184: the refusal is of the tag, by the table it is not in. -/
theorem test_hdrtypeValue_refused :
    exec (.hdrtypeValue 0x03#8) (device []) = .refused (.noSuchMember .headerType 0x03#8) := by rfl
/-- D-T13: the value of Other is given, whatever it is. -/
theorem test_capidValue_other : (answer (.capidValue 0xFF#8) (device [])).map Response.status = some .ok := by rfl

/-! ## Contracts (section 2.8) -/

/-- D-S2, D-S7, D-S8, D-S10. -/
theorem test_addBar :
    slotsAfter (.addBar 0#32 regionA true) (device []) =
      some [.bar regionA true, .upper64 0, .empty, .empty, .empty, .empty] ∧
    slotsAfter (.addBar 3#32 regionA false) filled =
      some [.bar regionA true, .upper64 0, .bar regionB false, .bar regionA false, .upper64 3, .empty] ∧
    answer (.addBar 5#32 regionA false) filled = failed .barIndex ∧
    answer (.addBar 6#32 regionC false) filled = failed .barIndex := by decide
/-- D-S3, D-S4, D-S6, D-S9, D-S24, D-S21, D-S22. -/
theorem test_addBar_errors :
    answer (.addBar 1#32 regionC false) filled = failed .barInUse64 ∧
    answer (.addBar 0#32 regionC false) filled = failed .barInUse64 ∧
    answer (.addBar 2#32 regionC false) filled = failed .barInUse ∧
    answer (.addBar 1#32 regionA false) filled = failed .barInUse64 ∧
    answer (.addBar 1#32 regionA false) { device [] with slots := [.empty, .empty, .bar regionB false, .empty, .empty,
      .empty] } = failed .barInUse ∧
    answer (.addBar 1#32 regionA false) bridge = failed .barIndex ∧
    answer (.addBar 1#32 regionB false) bridgeFilled = failed .barInUse64 := by decide
/-- D-S13 to D-S16, D-S1. -/
theorem test_barAddress : answer (.barAddress 0#32) filled = givesRegion 2#2 0x8000000000#64 0x100000#64 ∧
    answer (.barAddress 1#32) filled = failed .barInvalid64 ∧
    answer (.barAddress 2#32) filled = givesRegion 0#2 0xC000#64 0x40#64 ∧
    answer (.barAddress 6#32) filled = failed .barIndex ∧ answer (.barAddress 0#32) (device []) = failed .barInvalid := by
  decide
/-- D-S17 to D-S20. -/
theorem test_rom : answer .romBarAddress (device []) = failed .romBarInvalid ∧
    (nextState (exec (.addRomBar (.memory32 0xFEB80000#32 0x40000#32) false) (device []))).map State.rom =
      some withRom.rom ∧
    answer (.addRomBar (.memory32 0xFEB80000#32 0x40000#32) true) withRom = failed .romBarInUse ∧
    answer .romBarAddress withRom = givesRegion 1#2 0xFEB80000#64 0x40000#64 := by decide

/-! ## Errors, the step and the fetched word -/

/-- R220, R221: a region command's UnalignedAccess is the region layer's, wrapping the access layer's. -/
theorem test_layers :
    (Response.layered { status := .unalignedAccess } .newIoRegion) = some (.region (.access .unalignedAccess)) ∧
    (Response.layered { status := .unalignedAccess } .readDword) = some (.access .unalignedAccess) ∧
    (Response.layered { status := .barInUse64 } .addBar) = some (.device .barInUse64) ∧
    Status.code .romBarInvalid = 0x0A#8 := by decide
/-- Program P1, its first row: op 0x02, offset 0, data 0x10411AF4. -/
theorem test_step_runs :
    (nextState (step ((device []).withCommands [{ ports 0x02#8 with data := 0x10411AF4#32 }]))).map
      (fun t => (t.mem.readReg 0, t.commands, t.resp)) = some (0x10411AF4#32, [], failed .ok) := by decide
theorem test_step_fetchWord : (nextState (step (State.reset.withFetchWord 8 0x10))).bind State.resp = gives 0#32 ∧
    (nextState (step (State.reset.withFetchWord 8 0x43))).bind State.resp = failed .romBarInvalid := by decide
theorem test_step_refuses :
    step (State.reset.withFetchWord 8 0x44) = .refused (.undecodable (.reservedOp 0x44#8)) := by rfl
theorem test_reset_mem_wf : State.reset.mem.wf = true ∧ (device namedRegs).mem.wf = true := by decide

/-! ## Assembly (30_encoding.md R76, R77) -/

theorem test_assemble_numbers :
    assemble "write_dword 0x04, 0xdead_beef".toList =
      some { ports 0x02#8 with offset := 4#64, data := 0xDEADBEEF#32 } ∧
    assemble "new_io_region 0x1000, 4096".toList = some { ports 0x20#8 with addr := 0x1000#64, len := 0x1000#64 } ∧
    assemble "rom_bar_address".toList = some (ports 0x43#8) := by decide
theorem test_assemble_regions :
    assemble "add_bar 2, mem64(0x8000000000, 0x100000), 1".toList = some { ports 0x40#8 with
      index := 2#32, rA := ⟨2#2, 0x8000000000#64, 0x100000#64⟩, flag := true } ∧
    assemble "region_eq io(0x1000, 4096), mem32(0xc000, 0x40)".toList = some { ports 0x23#8 with
      rA := ⟨0#2, 0x1000#64, 0x1000#64⟩, rB := ⟨1#2, 0xC000#64, 0x40#64⟩ } := by decide
theorem test_assemble_pseudo :
    assemble "write_header_type 0x81".toList = some { ports 0x06#8 with offset := 0xE#64, data := 0x81#32 } ∧
    assemble "write_status 16".toList = some { ports 0x04#8 with offset := 6#64, data := 0x10#32 } ∧
    assemble "add_bar 0, io(0, 4), 2".toList = none ∧ assemble "read_dword".toList = none := by decide

/-! ## Header layouts (10_state.md R25, R26, R32, R33) -/

theorem test_header_offsets : barOffset 5 = 0x24 ∧ romBarOffset .bridge = 0x38 ∧ capabilitiesPointerOffset = 0x34 := by
  decide
/-- R32: the type-0 fields fill 64 bytes with no gap and no overlap. -/
theorem test_device_header_is_dense :
    (headerFields .device).foldl (fun o f => if o = some f.offset then some (f.offset + f.bytes) else none) (some 0) =
      some 0x40 := by decide

/-! ## Witnesses: states and operands that meet the hypotheses of each statement, clause by clause -/

theorem witness_DecodeOfEncodeIsTheInstruction :
    (Instr.addBar 0xFFFFFFFF#32 (.memory64 0xFFFFFFFFFFFFFFFC#64 3#64) true).wellFormed = true := by decide
theorem witness_EncodeOfDecodedIsTheListedPorts :
    decode { ports 0x05#8 with offset := 3#64, data := 0xFFFFFFFF#32, flag := true } = .ok (.readByte 3#64) := by rfl
theorem witness_UnlistedPortsAreIgnored :
    let c := { ports 0x10#8 with offset := 3#64, index := 7#32 }
    c.listedOnly = (ports 0x10#8).listedOnly ∧ c ≠ ports 0x10#8 := by decide
/-- R73: the ends of each reserved range, and the listed values beside them. -/
theorem witness_ReservedOpsAreRefused :
    (∀ op ∈ [0x07#8, 0x0F#8, 0x1C#8, 0x1F#8, 0x24#8, 0x2F#8, 0x38#8, 0x3F#8, 0x44#8, 0xFF#8],
      step ((device []).withCommands [ports op]) = .refused (.undecodable (.reservedOp op))) ∧
    (∀ op ∈ [0x06#8, 0x10#8, 0x1B#8, 0x20#8, 0x22#8, 0x23#8, 0x30#8, 0x37#8, 0x40#8, 0x43#8],
      decoded (ports op) ≠ none) := by
  constructor
  · intro op h
    simp only [List.mem_cons, List.not_mem_nil, or_false] at h
    rcases h with rfl | rfl | rfl | rfl | rfl | rfl | rfl | rfl | rfl | rfl <;> rfl
  · decide
theorem witness_DataOperandsHaveTheirTypes :
    decoded { ports 0x02#8 with data := 0xFFFFFFFF#32 } = some (.writeDword 0 0xFFFFFFFF#32) ∧
    decoded { ports 0x04#8 with data := 0x10000#32 } = none ∧
    decoded { ports 0x04#8 with data := 0xFFFF#32 } = some (.writeWord 0 0xFFFF#16) ∧
    decoded { ports 0x06#8 with data := 0x100#32 } = none ∧
    decoded { ports 0x06#8 with data := 0xFF#32 } = some (.writeByte 0 0xFF#8) ∧
    (∀ op ∈ [0x30#8, 0x32#8, 0x34#8, 0x36#8], decoded { ports op with data := 0x100#32 } = none ∧
      decoded { ports op with data := 0xFF#32 } ≠ none) := by decide
theorem witness_ConstructorOperandsHaveTheirTypes :
    decoded { ports 0x20#8 with addr := 0x100000000#64 } = none ∧
    decoded { ports 0x21#8 with len := 0x100000000#64 } = none ∧
    decoded { ports 0x20#8 with addr := 0xFFFFFFFF#64, len := 0xFFFFFFFF#64 } =
      some (.newIoRegion 0xFFFFFFFF#32 0xFFFFFFFF#32) ∧
    decoded { ports 0x21#8 with addr := 0xFFFFFFFF#64 } = some (.newMem32Region 0xFFFFFFFF#32 0) ∧
    decoded { ports 0x22#8 with addr := 0x100000000#64 } = some (.newMem64Region 0x100000000#64 0) := by decide
theorem witness_RegionOperandsAreChecked :
    (regionOperand ⟨0#2, 0xFFFFFFFC#64, 3#64⟩).toOption = some (.io 0xFFFFFFFC#32 3#32) ∧
    (regionOperand ⟨1#2, 0#64, 0xFFFFFFFF#64⟩).toOption = some (.memory32 0 0xFFFFFFFF#32) ∧
    (regionOperand ⟨2#2, 0xFFFFFFFFFFFFFFFC#64, 3#64⟩).toOption = some (.memory64 0xFFFFFFFFFFFFFFFC#64 3#64) ∧
    (regionOperand ⟨3#2, 0, 0⟩).toOption = none ∧ (regionOperand ⟨0#2, 0xFFFFFFFC#64, 4#64⟩).toOption = none ∧
    (regionOperand ⟨1#2, 0, 0x100000000#64⟩).toOption = none ∧
    (regionOperand ⟨2#2, 0xFFFFFFFFFFFFFFFC#64, 4#64⟩).toOption = none ∧
    decoded { ports 0x23#8 with rB := ⟨1#2, 2#64, 0⟩ } = none ∧ decoded { ports 0x40#8 with rA := ⟨3#2, 0, 0⟩ } = none ∧
    decoded { ports 0x41#8 with rA := ⟨3#2, 0, 0⟩ } = none := by decide
theorem witness_IndexAndFlagAreTakenAsTheyAre :
    regionOperand ⟨0#2, 0, 0⟩ = .ok (.io 0 0) ∧
    decoded { ports 0x40#8 with index := 0xFFFFFFFF#32, flag := true } = some (.addBar 0xFFFFFFFF#32 (.io 0 0) true) ∧
    decoded { ports 0x41#8 with flag := true } = some (.addRomBar (.io 0 0) true) ∧
    decoded { ports 0x42#8 with index := 6#32 } = some (.barAddress 6#32) := by
  refine ⟨rfl, ?_⟩; decide
theorem witness_StepRunsTheDecodedCommand :
    ((device []).withCommands [ports 0x10#8]).commands = ports 0x10#8 :: [] ∧
    decode (ports 0x10#8) = .ok .readVendorId := ⟨rfl, rfl⟩
theorem witness_UndecodableCommandIsRefused :
    ((device []).withCommands [ports 0x07#8]).commands = ports 0x07#8 :: [] ∧
    decode (ports 0x07#8) = .error (.reservedOp 0x07#8) := ⟨rfl, rfl⟩
theorem witness_NoCommandNoEffect : State.reset.commands = [] := rfl
/-- A step that writes; then, clause by clause, a step that meets the premises: on the plain store and on a device's own
a dword read with no BAR, and where reads have side effects a step that makes no access. -/
theorem witness_ParametersNeverChange :
    (∃ t, step ((device []).withCommands [{ ports 0x02#8 with data := 1#32 }]) = .next t ∧ t.mem = [(0, 1#8)]) ∧
    (∃ t, step ((device namedRegs).withCommands [ports 0x01#8]) = .next t ∧ t.trace = [.read 0]) ∧
    (∃ t, step ((ownStore false).withCommands [ports 0x01#8]) = .next t ∧ t.trace = [.read 0] ∧
      t.slots.all (fun v => decide (v = .empty)) = true ∧ t.rom = .empty) ∧
    (∃ t, step ((ownStore true).withCommands [ports 0x00#8]) = .next t ∧ t.trace = [] ∧
      t.slots.all (fun v => decide (v = .empty)) = true ∧ t.rom = .empty) :=
  ⟨⟨_, rfl, by decide⟩, ⟨_, rfl, by decide⟩, ⟨_, rfl, by decide⟩, ⟨_, rfl, by decide⟩⟩
/-- Both kinds of command of the statement: one that answers, and one whose tag names no member. -/
theorem witness_EveryCommandAnswers : (∃ t, exec .readBist (device []) = .next t ∧ t.resp.isSome) ∧
    exec (.classValue 0x40#8) (device []) = .refused (.noSuchMember .classCode 0x40#8) := ⟨⟨_, rfl, rfl⟩, rfl⟩
theorem witness_ConfigurationSpaceIsLittleEndian : (device []).params.store = .plain ∧
    (0xFE#64).toNat % 2 = 0 ∧ (0xFE#64).toNat / 4 < (device []).params.cfgRegs ∧ (0xFE#64).toNat % 4 = 2 ∧
    (0xFC#64).toNat % 4 = 0 ∧ (0xFC#64).toNat / 4 < (device []).params.cfgRegs ∧
    (0xFF#64).toNat / 4 < (device []).params.cfgRegs := by decide
theorem witness_PlainStoreIsAnArrayOfRegisters : (device namedRegs).params.store = .plain ∧
    (device namedRegs).mem.wf = true ∧ 63 < (device namedRegs).params.cfgRegs ∧
    (device namedRegs).params.cfgRegs ≤ 64 := by decide
theorem witness_MixedWidthViewsAgree : (device []).params.store = .plain ∧ (0xFC#64).toNat % 4 = 0 ∧
    (0xFC#64).toNat / 4 < (device []).params.cfgRegs := by decide
/-- One command for each row of R44's table. -/
theorem witness_StoreAccessesOfEachCommand :
    (∀ i ∈ [Instr.readDword 0xFC#64, .readWord 0xFE#64, .readByte 0xFF#64, .readVendorId, .readStatus, .readSubclass,
        .readBist, .writeDword 0#64 1#32, .writeWord 2#64 1#16, .writeByte 3#64 1#8, .validateAlign 0#64,
        .newMem64Region 0#64 0#64, .regionEq regionA regionB, .classFrom 1#8, .hdrtypeValue 1#8,
        .addBar 5#32 regionC false, .addRomBar regionC true, .barAddress 0#32],
      (answer i filled).map Response.status = some .ok) ∧
    (answer .romBarAddress withRom).map Response.status = some .ok := by decide
theorem witness_CommandsThatDoNotWriteTheStore :
    (∃ t, exec (.readByte 0#64) (device namedRegs) = .next t) ∧ (∃ t, exec (.addBar 0#32 regionA true) filled = .next t) ∧
    ∃ t, exec (.writeByte 0#64 1#8) filled = .next t := ⟨⟨_, rfl⟩, ⟨_, rfl⟩, ⟨_, rfl⟩⟩
theorem witness_ValidateAlignChecksTheOffset :
    (0xFFFFFFFFFFFFFFFC#64).toNat % 4 = 0 ∧ (0xFFFFFFFFFFFFFFFF#64).toNat % 4 ≠ 0 := by decide
/-- Of READ_DWORD and of WRITE_DWORD: misaligned inside and outside the store, the first offset outside, the last
inside. -/
theorem witness_ReadDwordReturnsTheRegister : (0xFD#64).toNat % 4 ≠ 0 ∧ (0x101#64).toNat % 4 ≠ 0 ∧
    (0x100#64).toNat % 4 = 0 ∧ (device []).params.cfgRegs ≤ (0x100#64).toNat / 4 ∧
    (0xFC#64).toNat % 4 = 0 ∧ (0xFC#64).toNat / 4 < (device []).params.cfgRegs := by decide
theorem witness_WriteDwordReplacesTheRegister : (0xFD#64).toNat % 4 ≠ 0 ∧
    (0x1000#64).toNat % 4 = 0 ∧ (express []).params.cfgRegs ≤ (0x1000#64).toNat / 4 ∧
    (0xFFC#64).toNat % 4 = 0 ∧ (0xFFC#64).toNat / 4 < (express []).params.cfgRegs ∧
    (express []).params.store = .plain ∧ (express []).mem.wf = true ∧ (ownStore false).params.store ≠ .plain := by decide
/-- Of READ_WORD and of WRITE_WORD: each clause of both orders. -/
theorem witness_ReadWordReturnsTheHalf :
    ((0xFE#64).toNat % 2 = 0 ∧ (0xFE#64).toNat / 4 < (device []).params.cfgRegs) ∧
    ((0x100#64).toNat % 2 = 0 ∧ (device []).params.cfgRegs ≤ (0x100#64).toNat / 4) ∧
    ((0xFF#64).toNat % 2 ≠ 0 ∧ (device []).params.wordOrder = .alignFirst) ∧
    ((0xFF#64).toNat % 2 ≠ 0 ∧ (readFirst []).params.wordOrder = .readFirst ∧
      (0xFF#64).toNat / 4 < (readFirst []).params.cfgRegs) ∧
    ((0x101#64).toNat % 2 ≠ 0 ∧ (readFirst []).params.wordOrder = .readFirst ∧
      (readFirst []).params.cfgRegs ≤ (0x101#64).toNat / 4) := by decide
theorem witness_WriteWordReplacesTheHalf :
    ((0xFE#64).toNat % 2 = 0 ∧ (0xFE#64).toNat / 4 < (device []).params.cfgRegs ∧
      (device []).params.store = .plain ∧ (device []).mem.wf = true ∧ (ownStore false).params.store ≠ .plain) ∧
    ((0x102#64).toNat % 2 = 0 ∧ (device []).params.cfgRegs ≤ (0x102#64).toNat / 4) ∧
    ((0x103#64).toNat % 2 ≠ 0 ∧ (device []).params.wordOrder = .alignFirst) ∧
    ((0xFD#64).toNat % 2 ≠ 0 ∧ (readFirst []).params.wordOrder = .readFirst ∧
      (0xFD#64).toNat / 4 < (readFirst []).params.cfgRegs) ∧
    ((0x103#64).toNat % 2 ≠ 0 ∧ (readFirst []).params.wordOrder = .readFirst ∧
      (readFirst []).params.cfgRegs ≤ (0x103#64).toNat / 4) := by decide
theorem witness_ReadByteReturnsTheLane : (0xFF#64).toNat / 4 < (device []).params.cfgRegs ∧
    (device []).params.cfgRegs ≤ (0x100#64).toNat / 4 := by decide
theorem witness_WriteByteReplacesTheLane : (0xFFF#64).toNat / 4 < (express []).params.cfgRegs ∧
    (express []).params.cfgRegs ≤ (0x1000#64).toNat / 4 ∧ (express []).params.store = .plain ∧
    (express []).mem.wf = true ∧ (ownStore false).params.store ≠ .plain := by decide
theorem witness_WordCheckOrderShowsOnlyWhenMisaligned :
    (∃ t, exec (.readWord 0xFE#64) (device namedRegs) = .next t) ∧
    (∃ t, exec (.writeWord 0x100#64 1#16) (device namedRegs) = .next t) ∧
    (device namedRegs).params = { (device namedRegs).params with wordOrder := .alignFirst } :=
  ⟨⟨_, rfl⟩, ⟨_, rfl⟩, rfl⟩
theorem witness_SubWordWritesAreNeverPartial :
    answer (.writeWord 1#64 0#16) (device []) = failed .unalignedAccess ∧
    answer (.writeByte 0x100#64 0#8) (device []) = failed .offsetOutOfBounds ∧
    answer (.writeWord 2#64 0#16) (device []) = failed .ok ∧ answer (.writeByte 3#64 0#8) (device []) = failed .ok ∧
    storeRead 63 (device []) = some (0#32, (device []).noteRead 63) := by decide
theorem witness_WrittenValuesReadBack : (device namedRegs).params.store = .plain ∧ (device namedRegs).mem.wf = true ∧
    (0xFC#64).toNat / 4 < (device namedRegs).params.cfgRegs ∧ (0xFC#64).toNat % 4 = 0 ∧ (0xFC#64).toNat % 2 = 0 := by
  decide
theorem witness_DeviceStoreGetsTheOtherLanesAsRead :
    (ownStore true).params.store = .device true ∧ (ownStore false).params.store = .device false ∧
    (0xFF#64).toNat / 4 < (ownStore true).params.cfgRegs ∧ (ownStore true).initStands true = true ∧
    ((ownStore false).putReg 0 0#32).initStands false = false := by decide
theorem witness_NarrowConstructorsFollowTheirLaws :
    0xFFFFFFFF < (0xFFFFFFFC#32).toNat + (4#32).toNat ∧
    ((0xFFFFFFFF#32).toNat + (0#32).toNat ≤ 0xFFFFFFFF ∧ (0xFFFFFFFF#32).toNat % 4 ≠ 0) ∧
    ((0xFFFFFFFC#32).toNat + (3#32).toNat ≤ 0xFFFFFFFF ∧ (0xFFFFFFFC#32).toNat % 4 = 0) := by decide
theorem witness_WideConstructorFollowsItsLaws :
    2 ^ 64 - 1 < (0xFFFFFFFFFFFFFFFC#64).toNat + (4#64).toNat ∧
    ((0xFFFFFFFFFFFFFFFF#64).toNat + (0#64).toNat ≤ 2 ^ 64 - 1 ∧ (0xFFFFFFFFFFFFFFFF#64).toNat % 4 ≠ 0) ∧
    ((0xFFFFFFFFFFFFFFFC#64).toNat + (3#64).toNat ≤ 2 ^ 64 - 1 ∧ (0xFFFFFFFFFFFFFFFC#64).toNat % 4 = 0) := by decide
theorem witness_CommandsHoldNoState :
    (device namedRegs).params = { device namedRegs with slots := filled.slots, now := 5 }.params ∧
    (device namedRegs).params.store = .plain ∧
    (device namedRegs).mem = { device namedRegs with slots := filled.slots, now := 5 }.mem ∧
    groupOf .newIoRegion = some .region ∧ groupOf .capidValue = some .taxonomy ∧ groupOf .writeByte = some .codec ∧
    groupOf .readBist = some .named := by decide
theorem witness_FromFollowsTheTable : 0x13#8 ∈ (device []).params.classTable.codes ∧
    0x14#8 ∉ (device []).params.classTable.codes ∧ 0x04#8 ∈ (device []).params.bridgeTable.codes ∧
    0x14#8 ∈ (device []).params.capidTable.codes ∧ 0x03#8 ∉ (device []).params.hdrtypeTable.codes := by decide
theorem witness_ValueFollowsTheTable :
    (0x13#8 ≠ 0xFF#8 ∧ 0x13#8 ∈ (device []).params.classTable.codes) ∧
    (0xFE#8 ≠ 0xFF#8 ∧ 0xFE#8 ∉ (device []).params.capidTable.codes) ∧
    (device []).params.bridgeTable.other = some 0x80#8 ∧ (device []).params.capidTable.other = none := by decide
theorem witness_TagsOnThePorts :
    (0x31#8, TaxonomyId.classCode, (device []).params.classTable) ∈
      [(0x31#8, .classCode, (device []).params.classTable), (0x33#8, .bridgeSubclass, (device []).params.bridgeTable),
       (0x35#8, .capabilityId, (device []).params.capidTable), (0x37#8, .headerType, (device []).params.hdrtypeTable)] ∧
    2 ^ 8 ≤ (0x100#32).toNat ∧
    ((0x14#32).toNat < 2 ^ 8 ∧ (0x14#32).setWidth 8 ∉ (device []).params.classTable.codes) ∧
    ((0x13#32).toNat < 2 ^ 8 ∧ (0x13#32).setWidth 8 ∈ (device []).params.classTable.codes) := by decide
theorem witness_TaxonomyLaws : Params.tablesWf (device []).params :=
  ⟨⟨by decide, by intro b h; cases h; decide⟩, ⟨by decide, by intro b h; cases h; decide⟩,
    ⟨by decide, by intro b h; cases h⟩, ⟨by decide, by intro b h; cases h⟩⟩
theorem witness_DefaultTablesDecode : (device []).params.classTable = defaultClassTable ∧
    (device []).params.bridgeTable = defaultBridgeTable ∧ (device []).params.capidTable = defaultCapidTable ∧
    (device []).params.hdrtypeTable = defaultHdrtypeTable := by decide
/-- A state for each clause: index 6; slots 2, 0 and 1 held; a 64-bit BAR at 5, at 1 below an IO BAR, a 64-bit BAR and
an upper slot; and one that fits. -/
theorem witness_AddBarOfTheReference :
    filled.params.slotImpl = .reference ∧ filled.slots.length = filled.params.barSlots ∧
    filled.params.barSlots = 6 ∧ filled.slotAt 2 = .bar regionB false ∧ isMemory64 regionB = false ∧
    filled.slotAt 0 = .bar regionA true ∧ isMemory64 regionA = true ∧ filled.slotAt 1 = .upper64 0 ∧
    filled.slotAt 5 = .empty ∧ filled.slotAt 3 = .empty ∧ filled.slotAt 4 = .empty ∧
    (let below := fun x => { filled with slots := [.empty, x, .empty, .empty, .empty, .empty] }
     (below (.bar regionB false)).slotAt 0 = .empty ∧ (below (.bar regionA false)).slotAt 1 = .bar regionA false ∧
     (below (.upper64 0)).slotAt 1 = .upper64 0) := by decide
theorem witness_BarAddressOfTheReference : filled.params.slotImpl = .reference ∧
    filled.params.barSlots ≤ (6#32).toNat ∧ (5#32).toNat < filled.params.barSlots ∧ filled.slotAt 5 = .empty ∧
    filled.slotAt 1 = .upper64 0 ∧ filled.slotAt 2 = .bar regionB false ∧ bridge.params.barSlots ≤ (2#32).toNat := by
  decide
theorem witness_RomBarOfTheReference : (device []).params.slotImpl = .reference ∧ (device []).rom = .empty ∧
    withRom.params.slotImpl = .reference ∧ withRom.rom = .rom (.memory32 0xFEB80000#32 0x40000#32) false := by decide
theorem witness_EveryImplementationMeetsTheContract : ownSlots.slots.length = ownSlots.params.barSlots ∧
    ownSlots.params.slotImpl = .deviceDefined ∧ ownSlots.slotAt 5 = .empty ∧ ownSlots.rom = .empty ∧
    filled.slots.length = filled.params.barSlots ∧ filled.slotAt 1 ≠ .empty ∧ withRom.rom ≠ .empty ∧
    answer (.addBar 3#32 regionA true) filled = failed .ok := by decide
theorem witness_FilledSlotsStayFilled : filled.slotAt 1 ≠ .empty ∧ withRom.rom ≠ .empty ∧
    groupOf .addBar = some .contract ∧ answer (.addBar 3#32 regionA true) filled = failed .ok := by decide
theorem witness_SlotTableIsTheContractsAlone : filled.params.store = .plain ∧
    groupOf (Instr.writeByte 0#64 1#8).opcode ≠ some .contract ∧
    answer (.writeByte 0#64 1#8) filled = failed .ok := by decide
theorem witness_ErrorsArePrecise : answer (.readDword 1#64) filled = failed .unalignedAccess ∧
    (answer (.newIoRegion 0xFFFFFFFF#32 1#32) filled).map Response.status = some .addressInvalid ∧
    answer (.writeWord 1#64 1#16) (readFirst []) = failed .unalignedAccess := by decide
theorem witness_OnlyAddressInvalidReportsOperands : filled.params.slotImpl = .reference ∧
    (answer (.newMem64Region 0xFFFFFFFFFFFFFFFC#64 4#64) filled).map Response.status = some .addressInvalid := by decide
theorem witness_ResponsePortsOfEachCommand : answer .readBist (device []) = gives 0#32 ∧
    answer (.readByte 0x100#64) (device []) = failed .offsetOutOfBounds := by decide
theorem witness_StatusesOfEachCommand : filled.params.slotImpl = .reference ∧
    answer (.addBar 6#32 regionA false) filled = failed .barIndex ∧
    answer (.validateAlign 3#64) filled = failed .unalignedAccess := by decide
theorem witness_WrappedErrorIsFixedByTheGroup : filled.params.slotImpl = .reference ∧
    answer (.barAddress 1#32) filled = failed .barInvalid64 ∧
    layerError .region .unalignedAccess = some (.region (.access .unalignedAccess)) := by decide
theorem witness_LaunchHoldsTheGivenRegisters : 63 < (device namedRegs).params.cfgRegs ∧ 3 < namedRegs.length := by
  decide
theorem witness_LaunchMeetsTheInvariant : Params.tablesWf resetParams := witness_TaxonomyLaws

/-- A state that holds a 64-bit BAR, an IO BAR and a ROM BAR meets the invariant, and steps. -/
theorem witness_EveryStepKeepsTheInvariant :
    let s := { filled with rom := withRom.rom, commands := [{ ports 0x40#8 with index := 5#32 }] }
    s.Inv ∧ ∃ t, step s = .next t ∧ t.slotAt 5 = .bar (.io 0 0) false := by
  refine ⟨⟨by decide, by decide, by decide, ?_, ?_, ?_, witness_TaxonomyLaws⟩, _, rfl, by decide⟩
  · intro k j
    match k, j with
    | 0, j => simp [State.slotAt, filled]
    | 1, 0 => simp [State.slotAt, filled, isMemory64, regionA]
    | 1, j + 1 => simp [State.slotAt, filled]
    | 2, j => simp [State.slotAt, filled]; rintro rfl; simp
    | 3, j => simp [State.slotAt, filled]; rintro rfl; simp [isMemory64, regionB]
    | 4, j => simp [State.slotAt, filled]; rintro rfl; simp
    | 5, j => simp [State.slotAt, filled]; rintro rfl; simp
    | k + 6, j => simp [State.slotAt, filled]; rintro rfl; cases k <;> simp
  · intro k r p
    match k with
    | 0 => intro h; cases h; decide
    | 1 => intro h; cases h
    | 2 => intro h; cases h; decide
    | 3 => intro h; cases h
    | 4 => intro h; cases h
    | 5 => intro h; cases h
    | k + 6 => intro h; cases h
  · intro r e h; cases h; decide
theorem witness_PseudoWritesExpand :
    ("write_bist", "write_byte", 0x0F) ∈
      [("write_vendor_id", "write_word", 0x00), ("write_device_id", "write_word", 0x02),
       ("write_command", "write_word", 0x04), ("write_status", "write_word", 0x06),
       ("write_revision_id", "write_byte", 0x08), ("write_prog_if", "write_byte", 0x09),
       ("write_subclass", "write_byte", 0x0A), ("write_class_code", "write_byte", 0x0B),
       ("write_cache_line_size", "write_byte", 0x0C), ("write_latency_timer", "write_byte", 0x0D),
       ("write_header_type", "write_byte", 0x0E), ("write_bist", "write_byte", 0x0F)] ∧
    assembleParts "write_bist".toList [.number 0xFF] = some { ports 0x06#8 with offset := 0xF#64, data := 0xFF#32 } := by
  decide
theorem witness_WrittenCommandsAssemble : (Instr.regionEq regionA regionC).wellFormed = true ∧
    (Instr.readBist).wellFormed = true := by decide

end Sys2Proof.Tests
end

section
/-! SUPPORT. A new instance (10_state.md R31): its slots are empty, so `INIT_REGS` stand, and the store's registers are
theirs. -/

namespace Sys2Proof.Machine

@[simp] theorem launch_params (p : Params) (init : List Reg) : (State.launch p init).params = p := rfl
@[simp] theorem launch_mem (p : Params) (init : List Reg) :
    (State.launch p init).mem = Mem.ofRegs 0 (init.take p.cfgRegs) := rfl
@[simp] theorem launch_trace (p : Params) (init : List Reg) : (State.launch p init).trace = [] := rfl
@[simp] theorem launch_slots (p : Params) (init : List Reg) :
    (State.launch p init).slots = List.replicate p.barSlots .empty := rfl
@[simp] theorem launch_rom (p : Params) (init : List Reg) : (State.launch p init).rom = .empty := rfl

/-- Inside the table the slot is one of the replicated ones, outside it `slotAt` reads Empty. -/
@[simp] theorem launch_slotAt (p : Params) (init : List Reg) (k : Nat) : (State.launch p init).slotAt k = .empty := by
  rw [State.slotAt, launch_slots, List.getD_eq_getElem?_getD, List.getElem?_replicate]
  split
  · rfl
  · rfl

theorem launch_initStands (p : Params) (init : List Reg) (readEffects : Bool) :
    (State.launch p init).initStands readEffects = true := by
  have hslots : ∀ v ∈ (State.launch p init).slots, v = .empty := fun _ hv => List.eq_of_mem_replicate hv
  exact initStands_iff.2 ⟨by simp, hslots, launch_rom p init⟩

theorem launch_readReg {p : Params} {init : List Reg} {i : Nat} (hp : i < p.cfgRegs) (hi : i < init.length) :
    (State.launch p init).mem.readReg i = init[i] := by
  have hlisted : i < (init.take p.cfgRegs).length := by rw [List.length_take]; omega
  calc (State.launch p init).mem.readReg i
      = (init.take p.cfgRegs)[i] := by simpa using Mem.readReg_ofRegs (init.take p.cfgRegs) 0 i hlisted
    _ = init[i] := List.getElem_take

/-- A device's own store reads as the plain one at launch, since `INIT_REGS` stand (R251). -/
theorem launch_regValue (p : Params) (init : List Reg) (i : Nat) :
    (State.launch p init).regValue i = (State.launch p init).mem.readReg i := by
  cases hs : p.store with
  | plain => exact regValue_plain i hs
  | device readEffects => exact regValue_init i hs (launch_initStands p init readEffects)

/-- Settles O55: the store gives `INIT_REGS` whichever kind it is, and every slot starts Empty. -/
theorem launchHoldsTheGivenRegisters : Obligations.LaunchHoldsTheGivenRegisters := by
  intro p init
  have hregs : ∀ i, i < p.cfgRegs → (h : i < init.length) → (State.launch p init).regValue i = init[i] :=
    fun i hp hi => (launch_regValue p init i).trans (launch_readReg hp hi)
  have hcount : (State.launch p init).slots.length = p.barSlots := List.length_replicate
  exact ⟨hregs, launch_slotAt p init, hcount, launch_rom p init⟩

end Sys2Proof.Machine
end

section
/-! SUPPORT. Bytes and words of the store on the data port (20_memory.md R40): a word is its two lanes, the lower offset
the less significant one. -/

namespace Sys2Proof.Machine

/-- Zero extension to the data port keeps the value (R68). -/
theorem dataPort_toNat {w : Nat} (hw : w ≤ 32) (x : BitVec w) : (x.setWidth 32).toNat = x.toNat :=
  BitVec.toNat_setWidth_of_le hw

/-- R40: byte `o` of the store is lane `o mod 4` of register `o / 4`. -/
theorem Mem.read_eq_lane (m : Mem) (o : Nat) : m.read o = extract8 (m.readReg (o / 4)) (o % 4) := by
  rw [Mem.extract8_readReg m _ _ (Nat.mod_lt o (by decide)), Nat.div_add_mod]

theorem extract16_toNat_lanes (r : Reg) (h : Nat) :
    (extract16 r h).toNat = (extract8 r h).toNat + 256 * (extract8 r (h + 1)).toNat := by
  have hnext : r.toNat / 2 ^ (8 * (h + 1)) = r.toNat / 2 ^ (8 * h) / 256 := by
    rw [Nat.div_div_eq_div_mul, Nat.mul_succ, Nat.pow_add]
  rw [extract16_toNat, extract8_toNat, extract8_toNat, hnext]
  omega

theorem extract16_low_toNat (r : Reg) : (extract16 r 0).toNat = r.toNat % 2 ^ 16 := by
  rw [extract16_toNat]; simp

theorem extract16_high_toNat (r : Reg) : (extract16 r 2).toNat = r.toNat / 2 ^ 16 := by
  have := r.isLt
  rw [extract16_toNat]; omega

/-- The byte after an even offset lies in the same register, and the offset does not wrap. -/
theorem registerOf_succ {o : Wide} (h : o.toNat % 2 = 0) :
    registerOf (o + 1#64) = registerOf o ∧ byteIdx (o + 1#64) = byteIdx o + 1 := by
  have hlt := o.isLt
  have hsucc : (o + 1#64).toNat = o.toNat + 1 := BitVec.toNat_add_of_lt (by simp; omega)
  unfold registerOf byteIdx
  rw [hsucc]
  omega

theorem responseOf_readByte {o : Wide} {s : State} (h : registerOf o < s.params.cfgRegs) :
    responseOf (exec (.readByte o) s) =
      some (dataResponse ((extract8 (s.regValue (registerOf o)) (byteIdx o)).setWidth 32)) := by
  show responseOf (byteRead o s) = _
  rw [byteRead_inside h]; rfl

theorem responseOf_readWord {o : Wide} {s : State} (ha : o.toNat % 2 = 0) (h : registerOf o < s.params.cfgRegs) :
    responseOf (exec (.readWord o) s) =
      some (dataResponse ((extract16 (s.regValue (registerOf o)) (byteIdx o)).setWidth 32)) := by
  have haligned : wordMisaligned o = false := (wordAligned_iff o).2 (by unfold byteIdx; omega)
  show responseOf (wordRead o s) = _
  rw [wordRead_inside haligned h]; rfl

/-- Settles O16: bytes of `mem` are lanes of its registers, and a word read answers the lanes that the two byte reads
answer. -/
theorem configurationSpaceIsLittleEndian : Obligations.ConfigurationSpaceIsLittleEndian := by
  intro s
  refine ⟨fun hplain o => ?_, fun o hin => ?_, fun o heven hin => ?_⟩
  · rw [regValue_plain _ hplain, Mem.read_eq_lane, extract8_toNat]
  · refine ⟨_, responseOf_readByte hin, ?_⟩
    rw [dataPort_toNat (by decide), extract8_toNat]; rfl
  · obtain ⟨hreg, hidx⟩ := registerOf_succ heven
    refine ⟨_, _, _, responseOf_readWord heven hin, fun h0 => ?_, fun h2 => ?_, responseOf_readByte hin,
      responseOf_readByte (hreg ▸ hin), ?_⟩
    · rw [dataPort_toNat (by decide), show byteIdx o = 0 from h0, extract16_low_toNat]; rfl
    · rw [dataPort_toNat (by decide), show byteIdx o = 2 from h2, extract16_high_toNat]; rfl
    · rw [dataPort_toNat (by decide), dataPort_toNat (by decide), dataPort_toNat (by decide), hreg, hidx,
        extract16_toNat_lanes]

end Sys2Proof.Machine
end

section
/-! SUPPORT. READ_DWORD and WRITE_DWORD case by case (41_codec.md R103, R106), and that a word access at a misaligned
offset raises under both orders of the checks (R110). -/

namespace Sys2Proof.Machine

theorem dwordMisaligned_of_aligned {a : Nat} (h : a % 4 = 0) : dwordMisaligned a = false := by
  simp [dwordMisaligned, h]

theorem readDword_misaligned {o : Wide} (s : State) (h : o.toNat % 4 ≠ 0) :
    execReadDword o s = raise .unalignedAccess s := if_pos ((dwordMisaligned_iff _).2 h)

theorem readDword_outside {o : Wide} {s : State} (ha : o.toNat % 4 = 0) (h : s.params.cfgRegs ≤ registerOf o) :
    execReadDword o s = raise .offsetOutOfBounds s := by
  simp [execReadDword, dwordMisaligned_of_aligned ha, storeRead_outside h]

theorem readDword_inside {o : Wide} {s : State} (ha : o.toNat % 4 = 0) (h : registerOf o < s.params.cfgRegs) :
    execReadDword o s = returnData (s.regValue (registerOf o)) (s.noteRead (registerOf o)) := by
  simp [execReadDword, dwordMisaligned_of_aligned ha, storeRead_inside h]

theorem writeDword_misaligned {o : Wide} (v : Reg) (s : State) (h : o.toNat % 4 ≠ 0) :
    execWriteDword o v s = raise .unalignedAccess s := if_pos ((dwordMisaligned_iff _).2 h)

theorem writeDword_outside {o : Wide} {s : State} (v : Reg) (ha : o.toNat % 4 = 0)
    (h : s.params.cfgRegs ≤ registerOf o) : execWriteDword o v s = raise .offsetOutOfBounds s := by
  simp [execWriteDword, dwordMisaligned_of_aligned ha, storeWrite_outside v h]

theorem writeDword_inside {o : Wide} {s : State} (v : Reg) (ha : o.toNat % 4 = 0)
    (h : registerOf o < s.params.cfgRegs) : execWriteDword o v s = done (s.putReg (registerOf o) v) := by
  simp [execWriteDword, dwordMisaligned_of_aligned ha, storeWrite_inside v h]

theorem wordRead_misaligned_raises {o : Wide} (s : State) (ha : wordMisaligned o = true) :
    ∃ c u, wordRead o s = raise c u := by
  cases ho : s.params.wordOrder with
  | alignFirst => exact ⟨_, _, wordRead_misaligned_alignFirst ho ha⟩
  | readFirst =>
    rcases Nat.lt_or_ge (registerOf o) s.params.cfgRegs with h | h
    · exact ⟨_, _, wordRead_misaligned_readFirst ho ha h⟩
    · exact ⟨_, _, wordRead_outside_readFirst ho h⟩

theorem wordWrite_misaligned_raises {o : Wide} (w : Half) (s : State) (ha : wordMisaligned o = true) :
    ∃ c u, wordWrite o w s = raise c u := by
  cases ho : s.params.wordOrder with
  | alignFirst => exact ⟨_, _, wordWrite_misaligned_alignFirst w ho ha⟩
  | readFirst =>
    rcases Nat.lt_or_ge (registerOf o) s.params.cfgRegs with h | h
    · exact ⟨_, _, wordWrite_misaligned_readFirst w ho ha h⟩
    · exact ⟨_, _, wordWrite_outside_readFirst w ho h⟩

end Sys2Proof.Machine
end

section
/-! SUPPORT. The store accesses of a command that succeeds (20_memory.md R44): an outcome that raises has none to
account for, one that succeeds has exactly those of the state it answers in. -/

namespace Sys2Proof.Machine

/-- If `o` goes on and answers OK, the accesses noted by then, newest first, are `accesses`. -/
def SuccessTrace (o : Result) (accesses : List StoreAccess) : Prop :=
  ∀ t, o = .next t → t.resp.map Response.status = some .ok → t.trace = accesses

theorem successTrace_respond {s : State} {accesses : List StoreAccess} (r : Response) (h : s.trace = accesses) :
    SuccessTrace (.next (s.respond r)) accesses := by
  intro t ht _
  injection ht with ht
  rw [← ht, respond_trace, h]

section
variable {s : State} {accesses : List StoreAccess}

theorem successTrace_raise (c : Cause) : SuccessTrace (raise c s) accesses := by
  intro t ht hok
  injection ht with ht
  rw [← ht, respond_resp, Option.map_some, Option.some.injEq] at hok
  exact absurd hok (errorResponse_status c)

theorem successTrace_refused (why : Refusal) : SuccessTrace (.refused why) accesses := by intro t ht; cases ht

theorem successTrace_done (h : s.trace = accesses) : SuccessTrace (done s) accesses :=
  successTrace_respond _ h

theorem successTrace_returnData (v : Reg) (h : s.trace = accesses) : SuccessTrace (returnData v s) accesses :=
  successTrace_respond _ h

theorem successTrace_returnRegion (r : Region) (h : s.trace = accesses) :
    SuccessTrace (returnRegion r s) accesses := successTrace_respond _ h

end

section
variable (s : State)

/-! Reads and writes: misaligned and outside the store they raise, inside it the trace grows by their accesses. -/

theorem readDword_successTrace (o : Wide) : SuccessTrace (execReadDword o s) (.read (registerOf o) :: s.trace) := by
  by_cases ha : o.toNat % 4 = 0
  · rcases Nat.lt_or_ge (registerOf o) s.params.cfgRegs with h | h
    · rw [readDword_inside ha h]; exact successTrace_returnData _ rfl
    · rw [readDword_outside ha h]; exact successTrace_raise _
  · rw [readDword_misaligned s ha]; exact successTrace_raise _

theorem writeDword_successTrace (o : Wide) (v : Reg) :
    SuccessTrace (execWriteDword o v s) (.write (registerOf o) v :: s.trace) := by
  by_cases ha : o.toNat % 4 = 0
  · rcases Nat.lt_or_ge (registerOf o) s.params.cfgRegs with h | h
    · rw [writeDword_inside v ha h]; exact successTrace_done (by simp)
    · rw [writeDword_outside v ha h]; exact successTrace_raise _
  · rw [writeDword_misaligned v s ha]; exact successTrace_raise _

theorem wordRead_successTrace (o : Wide) : SuccessTrace (wordRead o s) (.read (registerOf o) :: s.trace) := by
  cases ha : wordMisaligned o with
  | true =>
    obtain ⟨c, u, hraise⟩ := wordRead_misaligned_raises s ha
    rw [hraise]; exact successTrace_raise _
  | false =>
    rcases Nat.lt_or_ge (registerOf o) s.params.cfgRegs with h | h
    · rw [wordRead_inside ha h]; exact successTrace_returnData _ rfl
    · rw [wordRead_outside ha h]; exact successTrace_raise _

theorem wordWrite_successTrace (o : Wide) (w : Half) :
    SuccessTrace (wordWrite o w s) (.write (registerOf o) (insert16 (s.regValue (registerOf o)) (byteIdx o) w) ::
      .read (registerOf o) :: s.trace) := by
  cases ha : wordMisaligned o with
  | true =>
    obtain ⟨c, u, hraise⟩ := wordWrite_misaligned_raises w s ha
    rw [hraise]; exact successTrace_raise _
  | false =>
    rcases Nat.lt_or_ge (registerOf o) s.params.cfgRegs with h | h
    · rw [wordWrite_inside w ha h]; exact successTrace_done (by simp)
    · rw [wordWrite_outside w ha h]; exact successTrace_raise _

theorem byteRead_successTrace (o : Wide) : SuccessTrace (byteRead o s) (.read (registerOf o) :: s.trace) := by
  rcases Nat.lt_or_ge (registerOf o) s.params.cfgRegs with h | h
  · rw [byteRead_inside h]; exact successTrace_returnData _ rfl
  · rw [byteRead_outside h]; exact successTrace_raise _

theorem byteWrite_successTrace (o : Wide) (b : Byte) :
    SuccessTrace (byteWrite o b s) (.write (registerOf o) (insert8 (s.regValue (registerOf o)) (byteIdx o) b) ::
      .read (registerOf o) :: s.trace) := by
  rcases Nat.lt_or_ge (registerOf o) s.params.cfgRegs with h | h
  · rw [byteWrite_inside b h]; exact successTrace_done (by simp)
  · rw [byteWrite_outside b h]; exact successTrace_raise _

/-! Commands that make no access: every branch raises or answers, and no update of the slots touches the trace. -/

theorem validateAlign_successTrace (o : Wide) : SuccessTrace (execValidateAlign o s) s.trace := by
  unfold execValidateAlign
  split
  · exact successTrace_raise _
  · exact successTrace_done rfl

theorem construct_successTrace {w : Nat} (f : BitVec w → BitVec w → Region) (a l : BitVec w) :
    SuccessTrace (construct f a l s) s.trace := by
  unfold construct
  split
  · exact successTrace_raise _
  · split
    · exact successTrace_raise _
    · exact successTrace_returnRegion _ rfl

theorem answerValue_successTrace (which : TaxonomyId) (t : Taxonomy) (tag : Byte) :
    SuccessTrace (answerValue which t tag s) s.trace := by
  unfold answerValue
  split
  · exact successTrace_returnData _ rfl
  · exact successTrace_refused _

theorem addBarReference_successTrace (k : Nat) (r : Region) (p : Bool) :
    SuccessTrace (addBarReference k r p s) s.trace := by
  unfold addBarReference
  split
  · exact successTrace_raise _
  · split
    · exact successTrace_raise _
    · split
      · split
        · exact successTrace_raise _
        · split
          · exact successTrace_raise _
          · exact successTrace_done (place_trace ..)
      · exact successTrace_done (place_trace ..)

theorem addBarDevice_successTrace (k : Nat) (r : Region) (p : Bool) :
    SuccessTrace (addBarDevice k r p s) s.trace := by
  simp only [addBarDevice]
  split
  · exact successTrace_raise _
  · split
    · exact successTrace_raise _
    · split
      · split
        · exact successTrace_raise _
        · exact successTrace_done (place_trace ..)
      · exact successTrace_raise _

theorem addBar_successTrace (index : BitVec 32) (r : Region) (p : Bool) :
    SuccessTrace (execAddBar index r p s) s.trace := by
  unfold execAddBar
  split
  · exact addBarReference_successTrace s _ r p
  · exact addBarDevice_successTrace s _ r p

theorem addRomBar_successTrace (r : Region) (e : Bool) : SuccessTrace (execAddRomBar r e s) s.trace := by
  unfold execAddRomBar addRomBarReference addRomBarDevice
  split
  · split
    · exact successTrace_raise _
    · exact successTrace_done rfl
  · split
    · exact successTrace_raise _
    · split
      · exact successTrace_raise _
      · exact successTrace_done rfl

theorem barAddressReference_successTrace (k : Nat) : SuccessTrace (barAddressReference k s) s.trace := by
  unfold barAddressReference
  split
  · exact successTrace_raise _
  · split
    · exact successTrace_raise _
    · exact successTrace_raise _
    · exact successTrace_returnRegion _ rfl

theorem barAddressDevice_successTrace (k : Nat) : SuccessTrace (barAddressDevice k s) s.trace := by
  simp only [barAddressDevice]
  split
  · exact successTrace_raise _
  · split
    · exact successTrace_raise _
    · split
      · split
        · exact successTrace_returnRegion _ rfl
        · exact successTrace_raise _
      · exact successTrace_raise _
      · exact successTrace_raise _
    · exact successTrace_returnRegion _ rfl

theorem barAddress_successTrace (index : BitVec 32) : SuccessTrace (execBarAddress index s) s.trace := by
  unfold execBarAddress
  split
  · exact barAddressReference_successTrace s _
  · exact barAddressDevice_successTrace s _

theorem romBarAddress_successTrace : SuccessTrace (execRomBarAddress s) s.trace := by
  unfold execRomBarAddress
  split
  · exact successTrace_raise _
  · exact successTrace_returnRegion _ rfl

end

/-- Settles O19: command by command, by the accesses of the operation that is its meaning. -/
theorem storeAccessesOfEachCommand : Obligations.StoreAccessesOfEachCommand := by
  intro i s t h hok
  cases i
  case readDword o => exact readDword_successTrace s o t h hok
  case writeDword o v => exact writeDword_successTrace s o v t h hok
  case writeWord o w => exact ⟨_, wordWrite_successTrace s o w t h hok⟩
  case writeByte o b => exact ⟨_, byteWrite_successTrace s o b t h hok⟩
  case readWord | readVendorId | readDeviceId | readCommand | readStatus =>
    exact wordRead_successTrace s _ t h hok
  case readByte | readRevisionId | readProgIf | readSubclass | readClassCode | readCacheLineSize | readLatencyTimer
      | readHeaderType | readBist =>
    exact byteRead_successTrace s _ t h hok
  case validateAlign o => exact validateAlign_successTrace s o t h hok
  case newIoRegion a l => exact construct_successTrace s Region.io a l t h hok
  case newMem32Region a l => exact construct_successTrace s Region.memory32 a l t h hok
  case newMem64Region a l => exact construct_successTrace s Region.memory64 a l t h hok
  case regionEq | classFrom | bridgeSubclassFrom | capidFrom | hdrtypeFrom =>
    exact successTrace_respond _ rfl t h hok
  case classValue | bridgeSubclassValue | capidValue | hdrtypeValue =>
    exact answerValue_successTrace s _ _ _ t h hok
  case addBar k r p => exact addBar_successTrace s k r p t h hok
  case addRomBar r e => exact addRomBar_successTrace s r e t h hok
  case barAddress k => exact barAddress_successTrace s k t h hok
  case romBarAddress => exact romBarAddress_successTrace s t h hok

end Sys2Proof.Machine
end

section
/-! SUPPORT. The command on the ports: how a step answers a decoded and an undecodable command (30_encoding.md R74), and
that decoding reads the listed ports alone (R61). -/

namespace Sys2Proof.Machine

theorem step_decoded (s : State) {c : Command} (rest : List Command) {i : Instr} (h : decode c = .ok i) :
    step (s.withCommands (c :: rest)) = exec i (s.tick.withCommands rest) := by
  simp only [step, withCommands_commands, h]; rfl

theorem step_undecodable (s : State) {c : Command} (rest : List Command) {why : DecodeRefusal}
    (h : decode c = .error why) : step (s.withCommands (c :: rest)) = .refused (.undecodable why) := by
  simp only [step, withCommands_commands, h]

theorem decodeOperands_listedOnly {o : Opcode} {c : Command} (h : c.op = o.code) :
    decodeOperands o c.listedOnly = decodeOperands o c := by
  cases o <;> simp [decodeOperands, Command.listedOnly, h, Opcode.code]

/-- R61: the ports an `op` does not list take no part in decoding. -/
theorem decode_listedOnly (c : Command) : decode c.listedOnly = decode c := by
  cases ho : Opcode.ofCode c.op with
  | none => simp only [decode, show c.listedOnly.op = c.op from rfl, ho]
  | some o =>
    have hop : c.op = o.code := (Opcode.code_of_ofCode ho).symm
    rw [decode_of_op (c := c.listedOnly) hop, decode_of_op hop, decodeOperands_listedOnly hop]

/-- Settles O3: the two commands decode alike, so they run alike or are refused for the same reason. -/
theorem unlistedPortsAreIgnored : Obligations.UnlistedPortsAreIgnored := by
  intro s c d rest h
  have hdecode : decode c = decode d := by rw [← decode_listedOnly c, h, decode_listedOnly d]
  cases hd : decode d with
  | ok i => rw [step_decoded s rest hd, step_decoded s rest (hdecode.trans hd)]
  | error why => rw [step_undecodable s rest hd, step_undecodable s rest (hdecode.trans hd)]

end Sys2Proof.Machine
end

section
/-! SUPPORT. The reserved values of `op` (30_encoding.md R73), and that no operand is refused as a reserved op. -/

namespace Sys2Proof.Machine

/-- R73: the five ranges. -/
abbrev ReservedOp (op : Byte) : Prop :=
  (0x07 ≤ op.toNat ∧ op.toNat ≤ 0x0F) ∨ (0x1C ≤ op.toNat ∧ op.toNat ≤ 0x1F) ∨
  (0x24 ≤ op.toNat ∧ op.toNat ≤ 0x2F) ∨ (0x38 ≤ op.toNat ∧ op.toNat ≤ 0x3F) ∨ 0x44 ≤ op.toNat

theorem ofCode_eq_none_iff : ∀ op : Byte, Opcode.ofCode op = none ↔ ReservedOp op := by decide

section
variable {ε α β : Type} {e : ε} {x : Except ε α}

theorem except_map_ne_error (f : α → β) (h : x ≠ .error e) : x.map f ≠ .error e := by
  cases x with
  | ok a => exact nofun
  | error e' => exact fun he => h (by injection he with he; rw [he])

theorem except_bind_ne_error {f : α → Except ε β} (h : x ≠ .error e) (hf : ∀ a, f a ≠ .error e) :
    x.bind f ≠ .error e := by
  cases x with
  | ok a => exact hf a
  | error e' => exact fun he => h (by injection he with he; rw [he])

end

theorem dataOperand_ne_reserved (w : Nat) (data : Reg) (op : Byte) :
    dataOperand w data ≠ .error (.reservedOp op) := by
  unfold dataOperand
  split
  · exact nofun
  · exact nofun

theorem narrowOperand_ne_reserved (v : Wide) (op : Byte) : narrowOperand v ≠ .error (.reservedOp op) := by
  unfold narrowOperand
  split
  · exact nofun
  · exact nofun

theorem regionOperand_ne_reserved (p : RegionPort) (op : Byte) : regionOperand p ≠ .error (.reservedOp op) :=
  fun h => nomatch regionOperand_error h

theorem decodeOperands_ne_reserved (o : Opcode) (c : Command) (op : Byte) :
    decodeOperands o c ≠ .error (.reservedOp op) := by
  cases o
  case writeWord | writeByte | classFrom | classValue | bridgeSubclassFrom | bridgeSubclassValue | capidFrom
      | capidValue | hdrtypeFrom | hdrtypeValue =>
    exact except_map_ne_error _ (dataOperand_ne_reserved _ _ op)
  case newIoRegion | newMem32Region =>
    exact except_bind_ne_error (narrowOperand_ne_reserved _ op)
      fun _ => except_map_ne_error _ (narrowOperand_ne_reserved _ op)
  case regionEq =>
    exact except_bind_ne_error (regionOperand_ne_reserved _ op)
      fun _ => except_map_ne_error _ (regionOperand_ne_reserved _ op)
  case addBar | addRomBar => exact except_map_ne_error _ (regionOperand_ne_reserved _ op)
  all_goals exact nofun

/-- Settles O4: a reserved `op` selects no command; any other selects one, and its operands are refused for other
reasons. -/
theorem reservedOpsAreRefused : Obligations.ReservedOpsAreRefused := by
  intro s c rest
  refine ⟨fun hres => step_undecodable s rest ?_, fun hres => ?_⟩
  · simp only [decode, (ofCode_eq_none_iff c.op).2 hres]
  · obtain ⟨o, ho⟩ := Option.ne_none_iff_exists'.1 (mt (ofCode_eq_none_iff c.op).1 hres)
    rw [decode_of_op (Opcode.code_of_ofCode ho).symm]
    exact decodeOperands_ne_reserved o c c.op

end Sys2Proof.Machine
end

section
/-! SUPPORT. Data operands, constructor operands, slot indices and flags on the ports (30_encoding.md R64, R65, R67). -/

namespace Sys2Proof.Machine

/-- A value with nothing above its low `w` bits keeps its number at that width. -/
theorem toNat_setWidth_of_toNat_lt {v w : Nat} {x : BitVec v} (h : x.toNat < 2 ^ w) :
    (x.setWidth w).toNat = x.toNat := by
  rw [BitVec.toNat_setWidth, Nat.mod_eq_of_lt h]

section
variable {o : Opcode} {c : Command} {w : Nat} {mk : BitVec w → Instr}

/-- A command whose one typed operand is its data takes the low bits where nothing stands above them. -/
theorem decode_data_ok (hop : c.op = o.code) (ho : decodeOperands o c = (dataOperand w c.data).map mk)
    (h : c.data.toNat < 2 ^ w) : decode c = .ok (mk (c.data.setWidth w)) := by
  rw [decode_of_op hop, ho, dataOperand_ok h]; rfl

theorem decode_data_error (hop : c.op = o.code) (ho : decodeOperands o c = (dataOperand w c.data).map mk)
    (h : 2 ^ w ≤ c.data.toNat) : decode c = .error (.dataTooWide c.data) := by
  rw [decode_of_op hop, ho, dataOperand_error h]; rfl

end

/-- Settles O5: each clause is one of the two cases of `dataOperand` at the width of the command's type. -/
theorem dataOperandsHaveTheirTypes : Obligations.DataOperandsHaveTheirTypes := by
  intro s c rest
  refine ⟨fun hop => decode_of_op (o := .writeDword) hop,
    fun hop h => step_undecodable s rest (decode_data_error (o := .writeWord) hop rfl h),
    fun hop h => ⟨_, toNat_setWidth_of_toNat_lt h, decode_data_ok (o := .writeWord) hop rfl h⟩,
    fun hop h => step_undecodable s rest (decode_data_error (o := .writeByte) hop rfl h),
    fun hop h => ⟨_, toNat_setWidth_of_toNat_lt h, decode_data_ok (o := .writeByte) hop rfl h⟩,
    fun hop h => step_undecodable s rest ?_,
    fun h => ⟨_, toNat_setWidth_of_toNat_lt h,
      fun hop => decode_data_ok (o := .classFrom) hop rfl h,
      fun hop => decode_data_ok (o := .bridgeSubclassFrom) hop rfl h,
      fun hop => decode_data_ok (o := .capidFrom) hop rfl h,
      fun hop => decode_data_ok (o := .hdrtypeFrom) hop rfl h⟩⟩
  rcases hop with hop | hop | hop | hop
  · exact decode_data_error (o := .classFrom) hop rfl h
  · exact decode_data_error (o := .bridgeSubclassFrom) hop rfl h
  · exact decode_data_error (o := .capidFrom) hop rfl h
  · exact decode_data_error (o := .hdrtypeFrom) hop rfl h

section
variable {o : Opcode} {c : Command} {mk : Reg → Reg → Instr}

theorem decode_narrow_ok (hop : c.op = o.code)
    (ho : decodeOperands o c = (narrowOperand c.addr).bind fun a => (narrowOperand c.len).map fun l => mk a l)
    (ha : c.addr.toNat < 2 ^ 32) (hl : c.len.toNat < 2 ^ 32) :
    decode c = .ok (mk (c.addr.setWidth 32) (c.len.setWidth 32)) := by
  rw [decode_of_op hop, ho, narrowOperand_ok ha, narrowOperand_ok hl]; rfl

/-- The refusal names the first operand that is too wide. -/
theorem decode_narrow_error (hop : c.op = o.code)
    (ho : decodeOperands o c = (narrowOperand c.addr).bind fun a => (narrowOperand c.len).map fun l => mk a l)
    (h : 2 ^ 32 ≤ c.addr.toNat ∨ 2 ^ 32 ≤ c.len.toNat) : ∃ v, decode c = .error (.operandTooWide v) := by
  rw [decode_of_op hop, ho]
  rcases Nat.lt_or_ge c.addr.toNat (2 ^ 32) with ha | ha
  · rw [narrowOperand_ok ha, narrowOperand_error (h.resolve_left (Nat.not_le.2 ha))]
    exact ⟨_, rfl⟩
  · rw [narrowOperand_error ha]
    exact ⟨_, rfl⟩

end

/-- Settles O6: both operands of a 32-bit constructor go through `narrowOperand`, those of the 64-bit one through
nothing. -/
theorem constructorOperandsHaveTheirTypes : Obligations.ConstructorOperandsHaveTheirTypes := by
  intro s c rest
  refine ⟨fun hop h => ?_, fun ha hl => ⟨_, _, toNat_setWidth_of_toNat_lt ha, toNat_setWidth_of_toNat_lt hl,
    fun hop => decode_narrow_ok (o := .newIoRegion) hop rfl ha hl,
    fun hop => decode_narrow_ok (o := .newMem32Region) hop rfl ha hl⟩,
    fun hop => decode_of_op (o := .newMem64Region) hop⟩
  have hwide : ∃ v, decode c = .error (.operandTooWide v) := by
    rcases hop with hop | hop
    · exact decode_narrow_error (o := .newIoRegion) hop rfl h
    · exact decode_narrow_error (o := .newMem32Region) hop rfl h
  obtain ⟨v, hv⟩ := hwide
  exact ⟨v, step_undecodable s rest hv⟩

/-- Settles O9: with the region accepted, nothing else on the ports is checked. -/
theorem indexAndFlagAreTakenAsTheyAre : Obligations.IndexAndFlagAreTakenAsTheyAre := by
  intro c r
  refine ⟨fun hop hr => ?_, fun hop hr => ?_, fun hop => decode_of_op (o := .barAddress) hop⟩
  · rw [decode_of_op (o := .addBar) hop, decodeOperands, hr]; rfl
  · rw [decode_of_op (o := .addRomBar) hop, decodeOperands, hr]; rfl

end Sys2Proof.Machine
end

section
/-! SUPPORT. Which region triples a command can carry (30_encoding.md R66). -/

namespace Sys2Proof.Machine

theorem regionOperand_error_of_not_ok {p : RegionPort} (h : ¬ ∃ r, regionOperand p = .ok r) :
    regionOperand p = .error (.noSuchRegion p) := by
  cases hp : regionOperand p with
  | ok r => exact absurd ⟨r, hp⟩ h
  | error why => rw [regionOperand_error hp]

/-- R66: what the four conditions ask of a triple. -/
def RegionAccepted (p : RegionPort) : Prop :=
  (p.kind = 0#2 ∨ p.kind = 1#2 ∨ p.kind = 2#2) ∧
  (p.kind = 0#2 ∨ p.kind = 1#2 → p.addr.toNat < 2 ^ 32 ∧ p.len.toNat < 2 ^ 32 ∧
    p.addr.toNat + p.len.toNat ≤ 2 ^ 32 - 1) ∧
  (p.kind = 2#2 → p.addr.toNat + p.len.toNat ≤ 2 ^ 64 - 1) ∧
  p.addr.toNat % 4 = 0

/-- The operands of a narrow region, zero-extended onto a port. -/
theorem narrow_accepted {k : BitVec 2} {a l : Reg} (hk : k = 0#2 ∨ k = 1#2)
    (hc : operandsConstructible a l = true) :
    RegionAccepted { kind := k, addr := a.setWidth 64, len := l.setWidth 64 } := by
  obtain ⟨hsum, halign⟩ := (operandsConstructible_iff a l).1 hc
  have ha : (a.setWidth 64).toNat = a.toNat := BitVec.toNat_setWidth_of_le (by decide)
  have hl : (l.setWidth 64).toNat = l.toNat := BitVec.toNat_setWidth_of_le (by decide)
  have hne : k ≠ 2#2 := by rintro rfl; simp at hk
  refine ⟨hk.imp_right .inl, fun _ => ?_, fun h2 => absurd h2 hne, ?_⟩
  · simp only [ha, hl]; omega
  · simp only [ha]; exact halign

theorem regionPort_accepted {r : Region} (hc : constructible r = true) : RegionAccepted (regionPort r) := by
  cases r with
  | io a l => exact narrow_accepted (.inl rfl) hc
  | memory32 a l => exact narrow_accepted (.inr rfl) hc
  | memory64 a l =>
    obtain ⟨hsum, halign⟩ := (operandsConstructible_iff a l).1 hc
    exact ⟨.inr (.inr rfl), fun h => by simp [regionPort, kindCode] at h, fun _ => Nat.le_sub_one_of_lt hsum, halign⟩

theorem narrow_constructible {a l : Wide} (ha : a.toNat < 2 ^ 32) (hl : l.toNat < 2 ^ 32)
    (hsum : a.toNat + l.toNat ≤ 2 ^ 32 - 1) (halign : a.toNat % 4 = 0) :
    operandsConstructible (a.setWidth 32) (l.setWidth 32) = true := by
  rw [operandsConstructible_iff, toNat_setWidth_of_toNat_lt ha, toNat_setWidth_of_toNat_lt hl]
  omega

theorem exists_region_of_accepted {p : RegionPort} (h : RegionAccepted p) :
    ∃ r, p = regionPort r ∧ constructible r = true := by
  obtain ⟨k, a, l⟩ := p
  obtain ⟨hkind, hnarrow, hwide, halign⟩ := h
  rcases hkind with rfl | rfl | rfl
  · obtain ⟨ha, hl, hsum⟩ := hnarrow (.inl rfl)
    refine ⟨.io (a.setWidth 32) (l.setWidth 32), ?_, narrow_constructible ha hl hsum halign⟩
    simp only [regionPort, kindCode, setWidth_setWidth_of_lt _ ha, setWidth_setWidth_of_lt _ hl]
  · obtain ⟨ha, hl, hsum⟩ := hnarrow (.inr rfl)
    refine ⟨.memory32 (a.setWidth 32) (l.setWidth 32), ?_, narrow_constructible ha hl hsum halign⟩
    simp only [regionPort, kindCode, setWidth_setWidth_of_lt _ ha, setWidth_setWidth_of_lt _ hl]
  · exact ⟨.memory64 a l, rfl, (operandsConstructible_iff a l).2 ⟨Nat.lt_of_le_pred (by decide) (hwide rfl), halign⟩⟩

theorem regionOperand_accepts_iff (p : RegionPort) : (∃ r, regionOperand p = .ok r) ↔ RegionAccepted p := by
  constructor
  · rintro ⟨r, h⟩
    obtain ⟨rfl, hc⟩ := regionOperand_ok_iff.1 h
    exact regionPort_accepted hc
  · intro h
    obtain ⟨r, hp, hc⟩ := exists_region_of_accepted h
    exact ⟨r, regionOperand_ok_iff.2 ⟨hp, hc⟩⟩

/-- Settles O7: the accepted triples, and that the first operand not accepted is the one the refusal names. -/
theorem regionOperandsAreChecked : Obligations.RegionOperandsAreChecked := by
  refine ⟨regionOperand_accepts_iff, fun s c rest h => ?_⟩
  suffices hbad : ∃ p, decode c = .error (.noSuchRegion p) by
    obtain ⟨p, hp⟩ := hbad
    exact ⟨p, step_undecodable s rest hp⟩
  rcases h with ⟨hop, h⟩ | ⟨hop | hop, hA⟩
  · rw [decode_of_op (o := .regionEq) hop, decodeOperands]
    cases hA : regionOperand c.rA with
    | error why => rw [regionOperand_error hA]; exact ⟨_, rfl⟩
    | ok a =>
      have hB := regionOperand_error_of_not_ok (h.resolve_left (not_not_intro ⟨a, hA⟩))
      rw [hB]; exact ⟨_, rfl⟩
  · rw [decode_of_op (o := .addBar) hop, decodeOperands, regionOperand_error_of_not_ok hA]; exact ⟨_, rfl⟩
  · rw [decode_of_op (o := .addRomBar) hop, decodeOperands, regionOperand_error_of_not_ok hA]; exact ⟨_, rfl⟩

end Sys2Proof.Machine
end

section
/-! SUPPORT. Member tags on the ports (30_encoding.md R68). -/

namespace Sys2Proof.Machine

theorem responseOf_returnData (v : Reg) (s : State) : responseOf (returnData v s) = some (dataResponse v) := rfl

theorem byte_on_dataPort_lt (b : Byte) : (b.setWidth 32 : Reg).toNat < 256 := by
  rw [dataPort_toNat (by decide)]; exact b.isLt

/-- A `*_FROM` command answers the byte itself or the other tag. -/
theorem answerFrom_response (t : Taxonomy) (b : Byte) (s : State) :
    ∃ v : Reg, responseOf (answerFrom t b s) = some (dataResponse v) ∧ v.toNat < 256 ∧
      (v ≠ b.setWidth 32 → v = 0xFF#32) := by
  by_cases h : b ∈ t.codes
  · rw [answerFrom_known s h]
    exact ⟨_, responseOf_returnData _ s, byte_on_dataPort_lt b, fun hne => absurd rfl hne⟩
  · rw [answerFrom_unknown s h]
    exact ⟨_, responseOf_returnData _ s, byte_on_dataPort_lt otherTag, fun _ => rfl⟩

theorem answerValue_response (which : TaxonomyId) {t : Taxonomy} {tag : Byte} (s : State)
    (h : tag = otherTag ∨ tag ∈ t.codes) :
    ∃ v : Reg, responseOf (answerValue which t tag s) = some (dataResponse v) ∧ v.toNat < 256 := by
  by_cases ho : tag = otherTag
  · rw [ho, answerValue_other]
    exact ⟨_, responseOf_returnData _ s, byte_on_dataPort_lt _⟩
  · rw [answerValue_known which s ho (h.resolve_left ho)]
    exact ⟨_, responseOf_returnData _ s, byte_on_dataPort_lt tag⟩

theorem tag_eq_otherTag_iff {data : Reg} (h : data.toNat < 2 ^ 8) : data.setWidth 8 = otherTag ↔ data = 0xFF#32 := by
  constructor
  · intro ht
    rw [← setWidth_setWidth_of_lt data h, ht]; rfl
  · rintro rfl; rfl

/-- R68 for one `*_VALUE` command: it is refused where its data has a bit above the tag and where the tag names no
member, and answers otherwise. `mk` is the command's instruction and `table` the parameter it consults. -/
theorem step_value {o : Opcode} {which : TaxonomyId} {table : Params → Taxonomy} {mk : Byte → Instr} {c : Command}
    (hdecode : decodeOperands o c = (dataOperand 8 c.data).map mk)
    (hexec : ∀ tag u, exec (mk tag) u = answerValue which (table u.params) tag u)
    (s : State) (rest : List Command) (hop : c.op = o.code) :
    (2 ^ 8 ≤ c.data.toNat →
      step (s.withCommands (c :: rest)) = .refused (.undecodable (.dataTooWide c.data))) ∧
    (c.data.toNat < 2 ^ 8 → c.data ≠ 0xFF#32 → c.data.setWidth 8 ∉ (table s.params).codes →
      step (s.withCommands (c :: rest)) = .refused (.noSuchMember which (c.data.setWidth 8))) ∧
    (c.data = 0xFF#32 ∨ (c.data.toNat < 2 ^ 8 ∧ c.data.setWidth 8 ∈ (table s.params).codes) →
      ∃ v, responseOf (step (s.withCommands (c :: rest))) = some (dataResponse v) ∧ v.toNat < 256) := by
  have hrun : c.data.toNat < 2 ^ 8 → step (s.withCommands (c :: rest)) =
      answerValue which (table s.params) (c.data.setWidth 8) (s.tick.withCommands rest) := fun h =>
    (step_decoded s rest (decode_data_ok hop hdecode h)).trans (hexec _ _)
  refine ⟨fun h => step_undecodable s rest (decode_data_error hop hdecode h), fun h hne hnot => ?_, fun h => ?_⟩
  · rw [hrun h, answerValue_unknown which _ (mt (tag_eq_otherTag_iff h).1 hne) hnot]
  · have hlt : c.data.toNat < 2 ^ 8 := h.elim (fun he => by rw [he]; decide) And.left
    rw [hrun hlt]
    exact answerValue_response which _ (h.imp (tag_eq_otherTag_iff hlt).2 And.right)

/-- Settles O40: the four `*_FROM` commands are `answerFrom` over their tables, the four `*_VALUE` commands
`answerValue`. -/
theorem tagsOnThePorts : Obligations.TagsOnThePorts := by
  refine ⟨fun s b i hi => ?_, fun s c rest op which t hmem hop => ?_⟩
  · rcases hi with rfl | rfl | rfl | rfl
    · exact answerFrom_response s.params.classTable b s
    · exact answerFrom_response s.params.bridgeTable b s
    · exact answerFrom_response s.params.capidTable b s
    · exact answerFrom_response s.params.hdrtypeTable b s
  · simp only [List.mem_cons, Prod.mk.injEq, List.not_mem_nil, or_false] at hmem
    rcases hmem with ⟨rfl, rfl, rfl⟩ | ⟨rfl, rfl, rfl⟩ | ⟨rfl, rfl, rfl⟩ | ⟨rfl, rfl, rfl⟩
    · exact step_value (o := .classValue) (table := Params.classTable) rfl (fun _ _ => rfl) s rest hop
    · exact step_value (o := .bridgeSubclassValue) (table := Params.bridgeTable) rfl (fun _ _ => rfl) s rest hop
    · exact step_value (o := .capidValue) (table := Params.capidTable) rfl (fun _ _ => rfl) s rest hop
    · exact step_value (o := .hdrtypeValue) (table := Params.hdrtypeTable) rfl (fun _ _ => rfl) s rest hop

end Sys2Proof.Machine
end

section
/-! SUPPORT. The response ports a command gives a value (30_encoding.md R62). -/

namespace Sys2Proof.Machine

theorem errorResponse_resultPorts (c : Cause) :
    (errorResponse c).rdata = none ∧ (errorResponse c).rregion = none ∧ (errorResponse c).rbool = none := by
  cases c <;> exact ⟨rfl, rfl, rfl⟩

/-- Settles O52: by `exec_answer` a response is an error or the success `Returns` names, with data, a region, a truth
value or nothing. -/
theorem responsePortsOfEachCommand : Obligations.ResponsePortsOfEachCommand := by
  intro i s t r h hr
  rcases exec_answer h hr with ⟨c, rfl, -⟩ | hret
  · exact ⟨fun _ => errorResponse_resultPorts c, fun hok => absurd hok (errorResponse_status c)⟩
  · cases i
    case validateAlign | writeDword | writeWord | writeByte | addBar | addRomBar =>
      obtain rfl : r = okResponse := hret
      exact ⟨fun hne => absurd rfl hne, fun _ => ⟨rfl, rfl, rfl, rfl, rfl⟩⟩
    all_goals
      obtain ⟨v, rfl⟩ := hret
      exact ⟨fun hne => absurd rfl hne, fun _ => ⟨rfl, rfl, rfl, rfl, rfl⟩⟩

end Sys2Proof.Machine
end

section
/-! SUPPORT. The codec commands that read or only check (41_codec.md R100, R103, R112, R119): each is one operation's
case lemmas put side by side. -/

namespace Sys2Proof.Machine

theorem wordMisaligned_of_even {o : Wide} (h : o.toNat % 2 = 0) : wordMisaligned o = false :=
  Bool.eq_false_iff.2 fun hm => (wordMisaligned_iff o).1 hm h

theorem validateAlign_aligned {o : Wide} (s : State) (h : o.toNat % 4 = 0) : execValidateAlign o s = done s := by
  simp [execValidateAlign, dwordMisaligned_of_aligned h]

theorem validateAlign_misaligned {o : Wide} (s : State) (h : o.toNat % 4 ≠ 0) :
    execValidateAlign o s = raise .unalignedAccess s := if_pos ((dwordMisaligned_iff _).2 h)

/-- Settles O21: the check is on the whole 64-bit offset, and either answer leaves the rest of the state. -/
theorem validateAlignChecksTheOffset : Obligations.ValidateAlignChecksTheOffset :=
  fun s _ => ⟨rfl, validateAlign_aligned s, validateAlign_misaligned s⟩

/-- Settles O22: the alignment check comes first, then the store's own check of the range. -/
theorem readDwordReturnsTheRegister : Obligations.ReadDwordReturnsTheRegister :=
  fun s _ => ⟨rfl, readDword_misaligned s, readDword_outside, readDword_inside⟩

/-- Settles O24: an aligned word access is the same under both orders, a misaligned one is split by the order and, where
the read comes first, by the range. -/
theorem readWordReturnsTheHalf : Obligations.ReadWordReturnsTheHalf := by
  intro s o
  refine ⟨rfl, fun ha hin => ⟨_, wordRead_inside (wordMisaligned_of_even ha) hin, ?_⟩,
    fun ha hout => wordRead_outside (wordMisaligned_of_even ha) hout,
    fun ha horder => wordRead_misaligned_alignFirst horder ((wordMisaligned_iff o).2 ha),
    fun ha horder hin => wordRead_misaligned_readFirst horder ((wordMisaligned_iff o).2 ha) hin,
    fun _ horder hout => wordRead_outside_readFirst horder hout⟩
  rw [dataPort_toNat (by decide)]
  exact extract16_toNat _ _

/-- Settles O26: the range is the only check. -/
theorem readByteReturnsTheLane : Obligations.ReadByteReturnsTheLane := by
  intro s o
  refine ⟨rfl, fun hin => ⟨_, byteRead_inside hin, ?_⟩, fun hout => byteRead_outside hout⟩
  rw [dataPort_toNat (by decide)]
  exact extract8_toNat _ _

end Sys2Proof.Machine
end

section
/-! SUPPORT. What a store write of one register does to the bytes of `mem` (10_state.md R22, 20_memory.md R40), and the
codec commands that make one (41_codec.md R106, R116, R120). -/

namespace Sys2Proof.Machine

/-- The next state of a write that succeeds, field by field. -/
theorem done_putReg (s : State) (i : Nat) (v : Reg) :
    done (s.putReg i v) =
      .next { s with mem := (s.putReg i v).mem, trace := .write i v :: s.trace, resp := some okResponse } :=
  congrArg Host.Outcome.next (putReg_respond s i v okResponse)

theorem putReg_read_lane {s : State} (i : Nat) (v : Reg) {k : Nat} (hplain : s.params.store = .plain)
    (hwf : s.mem.wf = true) (hk : k < 4) : (s.putReg i v).mem.read (4 * i + k) = extract8 v k := by
  rw [putReg_mem_plain i v hplain]
  exact Mem.read_writeReg_lane i v hwf k hk

theorem putReg_read_outside (s : State) (i : Nat) (v : Reg) {a : Nat} (ha : a < 4 * i ∨ 4 * i + 4 ≤ a) :
    (s.putReg i v).mem.read a = s.mem.read a := by
  by_cases hplain : s.params.store = .plain
  · rw [putReg_mem_plain i v hplain, Mem.read_writeReg_outside _ _ _ ha]
  · rw [putReg_mem_device i v hplain]

/-- A byte reads as before a write whose value keeps the byte's lane, where the byte is in the register at all. -/
theorem putReg_read_kept {s : State} {i : Nat} {v : Reg} {a : Nat} (hwf : s.mem.wf = true)
    (hkept : s.params.store = .plain → ∀ k < 4, a = 4 * i + k → extract8 v k = extract8 (s.mem.readReg i) k) :
    (s.putReg i v).mem.read a = s.mem.read a := by
  by_cases hplain : s.params.store = .plain
  · by_cases hlane : 4 * i ≤ a ∧ a < 4 * i + 4
    · obtain ⟨k, rfl⟩ := Nat.exists_eq_add_of_le hlane.1
      have hk : k < 4 := by omega
      rw [putReg_read_lane i v hplain hwf hk, hkept hplain k hk rfl, Mem.extract8_readReg _ _ _ hk]
    · exact putReg_read_outside s i v (by omega)
  · rw [putReg_mem_device i v hplain]

/-- Settles O23: an aligned offset is the first byte of its register, so the four bytes of the register are the four
from the offset on. -/
theorem writeDwordReplacesTheRegister : Obligations.WriteDwordReplacesTheRegister := by
  intro s o v
  refine ⟨rfl, writeDword_misaligned v s, writeDword_outside v, fun ha hin =>
    ⟨(s.putReg (registerOf o) v).mem, (writeDword_inside v ha hin).trans (done_putReg s _ v),
      putReg_mem_device _ v, fun hplain hwf => ?_, fun a hout => putReg_read_outside s _ v ?_⟩⟩
  · rw [putReg_mem_plain _ v hplain]
    exact Mem.readReg_writeReg_same _ v hwf
  · unfold registerOf; omega

/-- R116: the two bytes of a word after the write of its register with the word replaced are the word. -/
theorem putReg_insert16_read {s : State} {o : Wide} (old : Reg) (w : Half) (hplain : s.params.store = .plain)
    (hwf : s.mem.wf = true) (hidx : byteIdx o = 0 ∨ byteIdx o = 2) :
    let m := (s.putReg (registerOf o) (insert16 old (byteIdx o) w)).mem
    (m.read o.toNat).toNat + 256 * (m.read (o.toNat + 1)).toNat = w.toNat := by
  intro m
  have hlow : m.read o.toNat = extract8 (insert16 old (byteIdx o) w) (byteIdx o) :=
    registerOf_byteIdx o ▸ putReg_read_lane _ _ hplain hwf (byteIdx_lt o)
  have hnext : byteIdx o + 1 < 4 := by omega
  have hhigh : m.read (o.toNat + 1) = extract8 (insert16 old (byteIdx o) w) (byteIdx o + 1) :=
    registerOf_byteIdx o ▸ putReg_read_lane _ _ hplain hwf hnext
  rw [hlow, hhigh, ← extract16_toNat_lanes, extract16_insert16 old _ w hidx]

/-- R116: masked, not zeroed: no byte outside the word changes. -/
theorem putReg_insert16_read_outside {s : State} {o : Wide} {old : Reg} (w : Half) {a : Nat} (hwf : s.mem.wf = true)
    (hidx : byteIdx o = 0 ∨ byteIdx o = 2) (hold : s.params.store = .plain → old = s.mem.readReg (registerOf o))
    (ha : a < o.toNat ∨ o.toNat + 2 ≤ a) :
    (s.putReg (registerOf o) (insert16 old (byteIdx o) w)).mem.read a = s.mem.read a := by
  refine putReg_read_kept hwf fun hplain k hk hak => ?_
  have hoff := registerOf_byteIdx o
  rw [extract8_insert16 _ _ _ w hidx hk, if_neg (by omega), if_neg (by omega), hold hplain]

/-- Settles O25: the value written back is the register as read with the half replaced; the errors are those of
READ_WORD, with no write. -/
theorem writeWordReplacesTheHalf : Obligations.WriteWordReplacesTheHalf := by
  intro s o w
  refine ⟨rfl, fun ha hin => ?_, fun ha hout => wordWrite_outside w (wordMisaligned_of_even ha) hout,
    fun ha horder => wordWrite_misaligned_alignFirst w horder ((wordMisaligned_iff o).2 ha),
    fun ha horder hin => wordWrite_misaligned_readFirst w horder ((wordMisaligned_iff o).2 ha) hin,
    fun _ horder hout => wordWrite_outside_readFirst w horder hout⟩
  have haligned := wordMisaligned_of_even ha
  have hidx : byteIdx o = 0 ∨ byteIdx o = 2 := (wordAligned_iff o).1 haligned
  refine ⟨_, insert16 (s.regValue (registerOf o)) (byteIdx o) w,
    (wordWrite_inside w haligned hin).trans (done_putReg (s.noteRead (registerOf o)) _ _), ?_, ?_,
    putReg_mem_device (s := s.noteRead (registerOf o)) _ _, fun hplain hwf => putReg_insert16_read _ w hplain hwf hidx,
    fun hwf a => putReg_insert16_read_outside w hwf hidx (regValue_plain (s := s) _)⟩
  · exact (extract16_toNat _ _).symm.trans (congrArg BitVec.toNat (extract16_insert16 _ _ w hidx))
  · have hother : byteIdx o = 0 ∧ 2 - byteIdx o = 2 ∨ byteIdx o = 2 ∧ 2 - byteIdx o = 0 := by omega
    have hkept := congrArg BitVec.toNat (extract16_insert16_other (s.regValue (registerOf o)) _ _ w hother)
    rwa [extract16_toNat, extract16_toNat] at hkept

theorem putReg_insert8_read {s : State} {o : Wide} (old : Reg) (b : Byte) (hplain : s.params.store = .plain)
    (hwf : s.mem.wf = true) : (s.putReg (registerOf o) (insert8 old (byteIdx o) b)).mem.read o.toNat = b := by
  have hlane := putReg_read_lane (registerOf o) (insert8 old (byteIdx o) b) hplain hwf (byteIdx_lt o)
  rwa [← registerOf_byteIdx, extract8_insert8 _ _ _ b (byteIdx_lt o) (byteIdx_lt o), if_pos rfl] at hlane

/-- R120: the other three lanes are written back as read, so no other byte changes. -/
theorem putReg_insert8_read_other {s : State} {o : Wide} {old : Reg} (b : Byte) {a : Nat} (hwf : s.mem.wf = true)
    (hold : s.params.store = .plain → old = s.mem.readReg (registerOf o)) (ha : a ≠ o.toNat) :
    (s.putReg (registerOf o) (insert8 old (byteIdx o) b)).mem.read a = s.mem.read a := by
  refine putReg_read_kept hwf fun hplain k hk hak => ?_
  have hoff := registerOf_byteIdx o
  rw [extract8_insert8 _ _ _ b (byteIdx_lt o) hk, if_neg (by omega), hold hplain]

/-- Settles O27: the value written back is the register as read with the lane replaced, and the range is the only
check. -/
theorem writeByteReplacesTheLane : Obligations.WriteByteReplacesTheLane := by
  intro s o b
  refine ⟨rfl, fun hin => ?_, fun hout => byteWrite_outside b hout⟩
  refine ⟨_, insert8 (s.regValue (registerOf o)) (byteIdx o) b,
    (byteWrite_inside b hin).trans (done_putReg (s.noteRead (registerOf o)) _ _), fun k hk => ?_,
    putReg_mem_device (s := s.noteRead (registerOf o)) _ _, fun hplain hwf => putReg_insert8_read _ b hplain hwf,
    fun hwf a => putReg_insert8_read_other b hwf (regValue_plain (s := s) _)⟩
  have hlane := congrArg BitVec.toNat (extract8_insert8 (s.regValue (registerOf o)) _ k b (byteIdx_lt o) hk)
  rwa [extract8_toNat, apply_ite BitVec.toNat, extract8_toNat] at hlane

end Sys2Proof.Machine
end

section
/-! SUPPORT. The named-field reads (42_named_fields.md R130 to R142): the word or byte read at an offset of the first
four registers, which every store holds. -/

namespace Sys2Proof.Machine

/-- `i` completes with one read of register `reg` and answers its `width` bits from bit `lo` on; nothing else of `s`
changes. -/
def AnswersField (s : State) (i : Instr) (reg lo width : Nat) : Prop :=
  ∃ v : Reg,
    exec i s = .next { s with trace := .read reg :: s.trace, resp := some { status := .ok, rdata := some v } } ∧
    v.toNat = (s.regValue reg).toNat / 2 ^ lo % 2 ^ width

/-- The smaller store already has 64 registers (R9). -/
theorem sixtyFour_le_cfgRegs (p : Params) : 64 ≤ p.cfgRegs := by
  unfold Params.cfgRegs
  cases p.size <;> decide

/-- R130: an offset below 0x10 is inside every store. -/
theorem registerOf_header_lt (s : State) {o : Wide} (h : o.toNat < 0x10) : registerOf o < s.params.cfgRegs := by
  have hstore := sixtyFour_le_cfgRegs s.params
  unfold registerOf
  omega

theorem readWord_answersField (s : State) (o : Wide) (heven : o.toNat % 2 = 0) (h : o.toNat < 0x10) :
    AnswersField s (.readWord o) (registerOf o) (8 * byteIdx o) 16 := by
  obtain ⟨-, hinside, -⟩ := readWordReturnsTheHalf s o
  exact hinside heven (registerOf_header_lt s h)

theorem readByte_answersField (s : State) (o : Wide) (h : o.toNat < 0x10) :
    AnswersField s (.readByte o) (registerOf o) (8 * byteIdx o) 8 := by
  obtain ⟨-, hinside, -⟩ := readByteReturnsTheLane s o
  exact hinside (registerOf_header_lt s h)

/-- Settles O33: each named read runs as the word or byte read at its offset, whose register and lane are the
field's. -/
theorem namedReadsReturnTheirFields : Obligations.NamedReadsReturnTheirFields := fun s =>
  ⟨⟨rfl, readWord_answersField s 0x00#64 (by decide) (by decide)⟩,
   ⟨rfl, readWord_answersField s 0x02#64 (by decide) (by decide)⟩,
   ⟨rfl, readWord_answersField s 0x04#64 (by decide) (by decide)⟩,
   ⟨rfl, readWord_answersField s 0x06#64 (by decide) (by decide)⟩,
   ⟨rfl, readByte_answersField s 0x08#64 (by decide)⟩,
   ⟨rfl, readByte_answersField s 0x09#64 (by decide)⟩,
   ⟨rfl, readByte_answersField s 0x0A#64 (by decide)⟩,
   ⟨rfl, readByte_answersField s 0x0B#64 (by decide)⟩,
   ⟨rfl, readByte_answersField s 0x0C#64 (by decide)⟩,
   ⟨rfl, readByte_answersField s 0x0D#64 (by decide)⟩,
   ⟨rfl, readByte_answersField s 0x0E#64 (by decide)⟩,
   ⟨rfl, readByte_answersField s 0x0F#64 (by decide)⟩⟩

end Sys2Proof.Machine
end

section
/-! SUPPORT. The region commands (43_bar_region.md R155 to R157, R160): the constructors share one operation, and the
comparison of two triples is equality of the regions they stand for. -/

namespace Sys2Proof.Machine

/-- R150 with the bound in the rule's own form: the largest value of the operand width. -/
theorem construct_laws {w : Nat} (variant : BitVec w → BitVec w → Region) (a l : BitVec w) (s : State) :
    (2 ^ w - 1 < a.toNat + l.toNat →
      construct variant a l s = raise (.addressInvalid (a.setWidth 64) (l.setWidth 64)) s) ∧
    (a.toNat + l.toNat ≤ 2 ^ w - 1 → a.toNat % 4 ≠ 0 → construct variant a l s = raise .unalignedAccess s) ∧
    (a.toNat + l.toNat ≤ 2 ^ w - 1 → a.toNat % 4 = 0 →
      construct variant a l s = returnRegion (variant a l) s) := by
  have hpos : 0 < 2 ^ w := Nat.two_pow_pos w
  exact ⟨fun hover => construct_overflow variant s (by omega),
    fun hfits => construct_misaligned variant s (by omega),
    fun hfits => construct_ok variant s (by omega)⟩

/-- Settles O34: both 32-bit constructors are `construct` at width 32, each with its own variant. -/
theorem narrowConstructorsFollowTheirLaws : Obligations.NarrowConstructorsFollowTheirLaws := by
  rintro s a l op kind i (⟨rfl, rfl, rfl⟩ | ⟨rfl, rfl, rfl⟩)
  · exact ⟨rfl, construct_laws Region.io a l s⟩
  · exact ⟨rfl, construct_laws Region.memory32 a l s⟩

/-- Settles O35: `construct` at width 64, where widening an operand to the port leaves it as it is. -/
theorem wideConstructorFollowsItsLaws : Obligations.WideConstructorFollowsItsLaws := by
  intro s a l
  obtain ⟨hover, hunaligned, hregion⟩ := construct_laws Region.memory64 a l s
  rw [BitVec.setWidth_eq, BitVec.setWidth_eq] at hover
  exact ⟨rfl, hover, hunaligned, hregion⟩

theorem regionsMatch_eq_decide (p q : RegionPort) : regionsMatch p q = decide (p = q) := by
  cases p
  cases q
  simp [regionsMatch, Bool.and_assoc]

theorem regionPort_eq_iff {a b : Region} : regionPort a = regionPort b ↔ a = b :=
  ⟨regionPort_injective, congrArg regionPort⟩

/-- Settles O36: triples match exactly when they are equal, and a region is fixed by its triple. -/
theorem regionEqIsStructural : Obligations.RegionEqIsStructural := by
  intro s rA rB
  have hmatch : regionsMatch (regionPort rA) (regionPort rB) = decide (rA = rB) := by
    rw [regionsMatch_eq_decide, decide_eq_decide]
    exact regionPort_eq_iff
  exact ⟨rfl, congrArg (returnBool · s) hmatch⟩

end Sys2Proof.Machine
end

section
/-! SUPPORT. The BAR contracts of the reference design (45_bar_contracts.md R191 to R197): one lemma per branch of each
command's algorithm. -/

namespace Sys2Proof.Machine

theorem occupiedError_bar {r : Region} (p : Bool) (h : isMemory64 r = false) :
    occupiedError (.bar r p) = some .barInUse := by
  simp [occupiedError, h]

theorem occupiedError_bar64 {r : Region} (p : Bool) (h : isMemory64 r = true) :
    occupiedError (.bar r p) = some .barInUse64 := if_pos h

/-- R191 case by case: an outcome that raises the error of a held slot, by what holds the slot. -/
theorem raise_occupiedError_cases {v : Slot} {o : Result} {s : State}
    (h : ∀ {e}, occupiedError v = some e → o = raise e s) :
    ((∃ q f, v = .bar q f ∧ isMemory64 q = false) → o = .next (s.respond { status := .barInUse })) ∧
    ((∃ q f, v = .bar q f ∧ isMemory64 q = true) → o = .next (s.respond { status := .barInUse64 })) ∧
    ((∃ owner, v = .upper64 owner) → o = .next (s.respond { status := .barInUse64 })) := by
  refine ⟨?_, ?_, ?_⟩
  · rintro ⟨q, f, rfl, hq⟩
    exact h (occupiedError_bar f hq)
  · rintro ⟨q, f, rfl, hq⟩
    exact h (occupiedError_bar64 f hq)
  · rintro ⟨owner, rfl⟩
    exact h rfl

section
variable {s : State} {k : Nat} (r : Region) (p : Bool)

theorem addBarReference_outside (hout : s.params.barSlots ≤ k) : addBarReference k r p s = raise .barIndex s :=
  if_pos hout

theorem addBarReference_held {e : Cause} (hk : k < s.params.barSlots) (he : occupiedError (s.slotAt k) = some e) :
    addBarReference k r p s = raise e s := by
  unfold addBarReference
  rw [if_neg (Nat.not_le.2 hk), he]

theorem addBarReference_lastSlot (hk : k < s.params.barSlots) (hfree : s.slotAt k = .empty)
    (h64 : isMemory64 r = true) (hlast : s.params.barSlots ≤ k + 1) :
    addBarReference k r p s = raise .barIndex s := by
  unfold addBarReference
  rw [if_neg (Nat.not_le.2 hk), occupiedError_none.2 hfree, h64]
  exact if_pos hlast

theorem addBarReference_nextHeld {e : Cause} (hk : k < s.params.barSlots) (hfree : s.slotAt k = .empty)
    (h64 : isMemory64 r = true) (hnext : k + 1 < s.params.barSlots)
    (he : occupiedError (s.slotAt (k + 1)) = some e) : addBarReference k r p s = raise e s := by
  unfold addBarReference
  rw [if_neg (Nat.not_le.2 hk), occupiedError_none.2 hfree, h64, if_neg (Nat.not_le.2 hnext), he]
  rfl

theorem addBarReference_places (hk : k < s.params.barSlots) (hfree : s.slotAt k = .empty)
    (hnext : isMemory64 r = true → k + 1 < s.params.barSlots ∧ s.slotAt (k + 1) = .empty) :
    addBarReference k r p s = done (s.place k r p) := by
  unfold addBarReference
  rw [if_neg (Nat.not_le.2 hk), occupiedError_none.2 hfree]
  cases h64 : isMemory64 r with
  | false => rfl
  | true =>
    obtain ⟨hk1, hfree1⟩ := hnext h64
    rw [if_neg (Nat.not_le.2 hk1), occupiedError_none.2 hfree1]
    rfl

end

/-- Placing a BAR changes the slot table alone. -/
theorem done_place (s : State) (k : Nat) (r : Region) (p : Bool) :
    done (s.place k r p) = .next { s with slots := (s.place k r p).slots, resp := some okResponse } := by
  unfold State.place
  split <;> rfl

/-- R192: with both slots inside the table, the table after a BAR is placed, slot by slot. -/
theorem slotAt_place_inside {s : State} {k : Nat} (r : Region) (p : Bool) (hk : k < s.slots.length)
    (hnext : isMemory64 r = true → k + 1 < s.slots.length) (j : Nat) :
    (s.place k r p).slotAt j =
      if j = k then .bar r p else if isMemory64 r = true ∧ j = k + 1 then .upper64 k else s.slotAt j := by
  have hupper : (isMemory64 r = true ∧ j = k + 1 ∧ k + 1 < s.slots.length) ↔ isMemory64 r = true ∧ j = k + 1 :=
    ⟨fun ⟨h64, hj, _⟩ => ⟨h64, hj⟩, fun ⟨h64, hj⟩ => ⟨h64, hj, hnext h64⟩⟩
  simp only [slotAt_place, hk, and_true, hupper]

theorem exec_addBar_reference {s : State} (himpl : s.params.slotImpl = .reference) (index : BitVec 32) (r : Region)
    (p : Bool) : exec (.addBar index r p) s = addBarReference index.toNat r p s := by
  show execAddBar index r p s = _
  unfold execAddBar
  rw [himpl]
  rfl

/-- Settles O43: the clauses are the branches of R192 in their order, a held slot raising what R191 says of it. -/
theorem addBarOfTheReference : Obligations.AddBarOfTheReference := by
  intro s index r p himpl hlen
  dsimp only
  rw [exec_addBar_reference himpl]
  refine ⟨rfl, addBarReference_outside r p, fun hk => raise_occupiedError_cases (addBarReference_held r p hk),
    addBarReference_lastSlot r p,
    fun hk hfree h64 hnext => raise_occupiedError_cases (addBarReference_nextHeld r p hk hfree h64 hnext),
    fun hk hfree hnext => ⟨(s.place index.toNat r p).slots, ?_, ?_, ?_⟩⟩
  · exact (addBarReference_places r p hk hfree hnext).trans (done_place s _ r p)
  · exact (place_slots_length s _ r p).trans hlen
  · rw [← hlen] at hk hnext
    exact slotAt_place_inside r p hk fun h64 => (hnext h64).1

section
variable {s : State} {k : Nat}

theorem barAddressReference_outside (hout : s.params.barSlots ≤ k) : barAddressReference k s = raise .barIndex s :=
  if_pos hout

theorem barAddressReference_empty (hk : k < s.params.barSlots) (h : s.slotAt k = .empty) :
    barAddressReference k s = raise .barInvalid s := by
  unfold barAddressReference
  rw [if_neg (Nat.not_le.2 hk), h]

theorem barAddressReference_upper64 {owner : Nat} (hk : k < s.params.barSlots) (h : s.slotAt k = .upper64 owner) :
    barAddressReference k s = raise .barInvalid64 s := by
  unfold barAddressReference
  rw [if_neg (Nat.not_le.2 hk), h]

theorem barAddressReference_bar {r : Region} {p : Bool} (hk : k < s.params.barSlots) (h : s.slotAt k = .bar r p) :
    barAddressReference k s = returnRegion r s := by
  unfold barAddressReference
  rw [if_neg (Nat.not_le.2 hk), h]

end

theorem exec_barAddress_reference {s : State} (himpl : s.params.slotImpl = .reference) (index : BitVec 32) :
    exec (.barAddress index) s = barAddressReference index.toNat s := by
  show execBarAddress index s = _
  unfold execBarAddress
  rw [himpl]
  rfl

/-- Settles O44: out of range, or one of the three contents of a slot. -/
theorem barAddressOfTheReference : Obligations.BarAddressOfTheReference := by
  intro s index himpl
  rw [exec_barAddress_reference himpl]
  exact ⟨rfl, barAddressReference_outside, barAddressReference_empty,
    fun hk ⟨_, hupper⟩ => barAddressReference_upper64 hk hupper, fun _ _ => barAddressReference_bar⟩

section
variable {s : State}

theorem addRomBarReference_empty (r : Region) (e : Bool) (h : s.rom = .empty) :
    addRomBarReference r e s = done (s.setRom (.rom r e)) := by
  unfold addRomBarReference
  rw [h]

theorem addRomBarReference_held {q : Region} {f : Bool} (r : Region) (e : Bool) (h : s.rom = .rom q f) :
    addRomBarReference r e s = raise .romBarInUse s := by
  unfold addRomBarReference
  rw [h]

theorem romBarAddress_empty (h : s.rom = .empty) : execRomBarAddress s = raise .romBarInvalid s := by
  unfold execRomBarAddress
  rw [h]

theorem romBarAddress_held {q : Region} {f : Bool} (h : s.rom = .rom q f) :
    execRomBarAddress s = returnRegion q s := by
  unfold execRomBarAddress
  rw [h]

theorem exec_addRomBar_reference (himpl : s.params.slotImpl = .reference) (r : Region) (e : Bool) :
    exec (.addRomBar r e) s = addRomBarReference r e s := by
  show execAddRomBar r e s = _
  unfold execAddRomBar
  rw [himpl]

end

/-- Settles O45: the ROM slot is empty or held, whatever the kind and the flags. -/
theorem romBarOfTheReference : Obligations.RomBarOfTheReference := by
  intro s r e himpl
  rw [exec_addRomBar_reference himpl]
  exact ⟨rfl, rfl, fun hempty => ⟨addRomBarReference_empty r e hempty, romBarAddress_empty hempty⟩,
    fun _ _ hheld => ⟨addRomBarReference_held r e hheld, romBarAddress_held hheld⟩⟩

end Sys2Proof.Machine
end

section
/-! SUPPORT. What stands after an error, and on which ports (60_exceptions.md R222, R223): the effects that go with an
answer other than OK, and the operands AddressInvalid reports. -/

namespace Sys2Proof.Machine

/-- Every effect but no change and a lone store read comes with OK. -/
theorem Effect.of_status_ne_ok {i : Instr} {s u : State} {r : Response} (h : Effect i s r u) (hne : r.status ≠ .ok) :
    u = s ∨ ∃ k, u = s.noteRead k := by
  cases h with
  | answer => exact .inl rfl
  | read _ k => exact .inr ⟨k, rfl⟩
  | write | readWrite | place | setRom => exact absurd rfl hne

theorem Returns.status_eq_ok {i : Instr} {r : Response} (h : Returns i r) : r.status = .ok := by
  cases i
  case validateAlign | writeDword | writeWord | writeByte | addBar | addRomBar =>
    obtain rfl : r = okResponse := h
    rfl
  all_goals
    obtain ⟨v, rfl⟩ := h
    rfl

/-- Settles O49: by `exec_answer` the response is an error's, and an effect that does not answer OK has made one store
read or nothing. -/
theorem errorsArePrecise : Obligations.ErrorsArePrecise := by
  intro i s t h hstatus
  obtain ⟨r, u, heffect, rfl⟩ := exec_effects i s t h
  have hne : r.status ≠ .ok := fun hok => hstatus (congrArg some hok)
  obtain ⟨c, rfl⟩ : ∃ c, r = errorResponse c := by
    rcases exec_answer h rfl with ⟨c, hc, -⟩ | hret
    · exact ⟨c, hc⟩
    · exact absurd hret.status_eq_ok hne
  rcases heffect.of_status_ne_ok hne with rfl | ⟨k, rfl⟩
  · exact ⟨c, u.trace, rfl, .inl rfl⟩
  · exact ⟨c, .read k :: s.trace, rfl, .inr ⟨k, rfl⟩⟩

theorem errorResponse_operandPorts (c : Cause) :
    ((errorResponse c).status = .addressInvalid ↔ (errorResponse c).errAddr.isSome) ∧
    ((errorResponse c).status = .addressInvalid ↔ (errorResponse c).errLen.isSome) := by
  cases c <;> simp [errorResponse, causeStatus]

theorem exists_operands_of_addressInvalid {c : Cause} (h : (errorResponse c).status = .addressInvalid) :
    ∃ a l, c = .addressInvalid a l := by
  cases c
  case addressInvalid a l => exact ⟨a, l, rfl⟩
  all_goals cases h

theorem Raises.constructor_of_addressInvalid {i : Instr} {a l : Wide} (h : Raises i (.addressInvalid a l)) :
    (∃ x y, i = .newIoRegion x y ∨ i = .newMem32Region x y) ∨ ∃ x y, i = .newMem64Region x y := by
  cases i
  case newIoRegion x y => exact .inl ⟨x, y, .inl rfl⟩
  case newMem32Region x y => exact .inl ⟨x, y, .inr rfl⟩
  case newMem64Region x y => exact .inr ⟨x, y, rfl⟩
  all_goals simp [Raises] at h

/-- R150, R152: only the overflow check answers AddressInvalid, with the operands as given. -/
theorem construct_reportsOperands {w : Nat} (f : BitVec w → BitVec w → Region) {a l : BitVec w} {s t : State}
    {r : Response} (h : construct f a l s = .next t) (hr : t.resp = some r) (hinvalid : r.status = .addressInvalid) :
    r.errAddr = some (a.setWidth 64) ∧ r.errLen = some (l.setWidth 64) := by
  rcases Nat.lt_or_ge (a.toNat + l.toNat) (2 ^ w) with hfits | hover
  · by_cases ha : a.toNat % 4 = 0
    · rw [construct_ok f s hfits ha] at h
      obtain rfl := answer_eq h hr
      cases hinvalid
    · rw [construct_misaligned f s hfits ha] at h
      obtain rfl := answer_eq h hr
      cases hinvalid
  · rw [construct_overflow f s hover] at h
    obtain rfl := answer_eq h hr
    exact ⟨rfl, rfl⟩

/-- Settles O51: a success gives those ports no value (O52), an error gives them one just for AddressInvalid, which
the reference raises in `construct` alone. -/
theorem onlyAddressInvalidReportsOperands : Obligations.OnlyAddressInvalidReportsOperands := by
  intro i s t r h hr
  rcases exec_answer h hr with ⟨c, rfl, hraises⟩ | hret
  · obtain ⟨haddr, hlen⟩ := errorResponse_operandPorts c
    refine ⟨haddr, hlen, fun himpl hinvalid => ?_⟩
    obtain ⟨a, l, rfl⟩ := exists_operands_of_addressInvalid hinvalid
    rcases (hraises himpl).constructor_of_addressInvalid with ⟨x, y, rfl | rfl⟩ | ⟨x, y, rfl⟩
    · exact .inl ⟨x, y, .inl rfl, construct_reportsOperands Region.io h hr hinvalid⟩
    · exact .inl ⟨x, y, .inr rfl, construct_reportsOperands Region.memory32 h hr hinvalid⟩
    · have hwide := construct_reportsOperands Region.memory64 h hr hinvalid
      rw [BitVec.setWidth_eq, BitVec.setWidth_eq] at hwide
      exact .inr ⟨x, y, rfl, hwide⟩
  · have hok := hret.status_eq_ok
    obtain ⟨-, hports⟩ := responsePortsOfEachCommand i s t r h hr
    obtain ⟨haddr, hlen, -⟩ := hports hok
    simp [hok, haddr, hlen]

end Sys2Proof.Machine
end

section
/-! SUPPORT. Encoding and decoding are inverse on what a command carries (30_encoding.md R61, R64 to R69). -/

namespace Sys2Proof.Machine

theorem encode_op (i : Instr) : (encode i).op = i.opcode.code := by cases i <;> rfl

theorem regionOperand_regionPort {r : Region} (h : constructible r = true) : regionOperand (regionPort r) = .ok r :=
  regionOperand_ok_iff.2 ⟨rfl, h⟩

/-- Each operand is read back from the port it was put on, at its own width. -/
theorem decodeOperands_encode {i : Instr} (h : i.wellFormed = true) : decodeOperands i.opcode (encode i) = .ok i := by
  cases i
  case writeWord | writeByte | classFrom | classValue | bridgeSubclassFrom | bridgeSubclassValue | capidFrom
      | capidValue | hdrtypeFrom | hdrtypeValue =>
    exact congrArg (Except.map _) (dataOperand_setWidth (by decide) _)
  case newIoRegion | newMem32Region =>
    simp only [Instr.opcode, encode, decodeOperands, narrowOperand_setWidth]; rfl
  case regionEq rA rB =>
    obtain ⟨hA, hB⟩ : constructible rA = true ∧ constructible rB = true := by simpa [Instr.wellFormed] using h
    simp only [Instr.opcode, encode, decodeOperands, regionOperand_regionPort hA, regionOperand_regionPort hB]; rfl
  case addBar | addRomBar => exact congrArg (Except.map _) (regionOperand_regionPort h)
  all_goals rfl

/-- Settles O1: the op selects the command, and each operand comes back from its port. -/
theorem decodeOfEncodeIsTheInstruction : Obligations.DecodeOfEncodeIsTheInstruction := by
  intro i h
  rw [decode_of_op (encode_op i)]
  exact decodeOperands_encode h

theorem except_map_ok {ε α β : Type} {x : Except ε α} {f : α → β} {y : β} (h : x.map f = .ok y) :
    ∃ a, x = .ok a ∧ f a = y := by
  cases x with
  | ok a => exact ⟨a, rfl, by injection h⟩
  | error e => cases h

theorem except_bind_ok {ε α β : Type} {x : Except ε α} {f : α → Except ε β} {y : β} (h : x.bind f = .ok y) :
    ∃ a, x = .ok a ∧ f a = .ok y := by
  cases x with
  | ok a => exact ⟨a, rfl, h⟩
  | error e => cases h

theorem setWidth_of_dataOperand_ok {w : Nat} {d : Reg} {b : BitVec w} (h : dataOperand w d = .ok b) :
    b.setWidth 32 = d := by
  unfold dataOperand at h
  split at h
  · next hd => injection h with h; rw [← h, setWidth_setWidth_of_lt d hd]
  · cases h

theorem setWidth_of_narrowOperand_ok {v : Wide} {a : Reg} (h : narrowOperand v = .ok a) : a.setWidth 64 = v := by
  unfold narrowOperand at h
  split at h
  · next hv => injection h with h; rw [← h, setWidth_setWidth_of_lt v hv]
  · cases h

/-- The operands a command decodes to are well-formed and, put back on their ports, are the ports it reads. -/
theorem encode_of_decodeOperands {o : Opcode} {c : Command} {i : Instr} (hop : c.op = o.code)
    (h : decodeOperands o c = .ok i) : i.wellFormed = true ∧ encode i = c.listedOnly := by
  cases o
  case writeWord | writeByte | classFrom | classValue | bridgeSubclassFrom | bridgeSubclassValue | capidFrom
      | capidValue | hdrtypeFrom | hdrtypeValue =>
    obtain ⟨b, hb, rfl⟩ := except_map_ok h
    refine ⟨rfl, ?_⟩
    simp [encode, Command.bare, Command.listedOnly, hop, Opcode.code, setWidth_of_dataOperand_ok hb]
  case newIoRegion | newMem32Region =>
    obtain ⟨a, ha, hrest⟩ := except_bind_ok h
    obtain ⟨l, hl, rfl⟩ := except_map_ok hrest
    refine ⟨rfl, ?_⟩
    simp [encode, Command.bare, Command.listedOnly, hop, Opcode.code, setWidth_of_narrowOperand_ok ha,
      setWidth_of_narrowOperand_ok hl]
  case regionEq =>
    obtain ⟨rA, hA, hrest⟩ := except_bind_ok h
    obtain ⟨rB, hB, rfl⟩ := except_map_ok hrest
    obtain ⟨hpA, hcA⟩ := regionOperand_ok_iff.1 hA
    obtain ⟨hpB, hcB⟩ := regionOperand_ok_iff.1 hB
    refine ⟨by simp [Instr.wellFormed, hcA, hcB], ?_⟩
    simp [encode, Command.bare, Command.listedOnly, hop, Opcode.code, hpA, hpB]
  case addBar | addRomBar =>
    obtain ⟨r, hr, rfl⟩ := except_map_ok h
    obtain ⟨hp, hc⟩ := regionOperand_ok_iff.1 hr
    refine ⟨hc, ?_⟩
    simp [encode, Command.bare, Command.listedOnly, hop, Opcode.code, hp]
  all_goals
    obtain rfl := Except.ok.inj h
    refine ⟨rfl, ?_⟩
    simp [encode, Command.bare, Command.listedOnly, hop, Opcode.code]

/-- Settles O2: by the op, and then operand by operand. -/
theorem encodeOfDecodedIsTheListedPorts : Obligations.EncodeOfDecodedIsTheListedPorts := by
  intro c i h
  obtain ⟨o, hop, ho⟩ := decode_ok h
  exact encode_of_decodeOperands hop ho

end Sys2Proof.Machine
end

section
/-! SUPPORT. The invariant (45_bar_contracts.md R199, with 10_state.md R27, 20_memory.md R47, 30_encoding.md R66): it
rests on the parameters, the memory and the slots alone, and each of the things a command can do keeps it. -/

namespace Sys2Proof.Machine

theorem slotAt_congr {s t : State} (h : t.slots = s.slots) (k : Nat) : t.slotAt k = s.slotAt k := by
  unfold State.slotAt; rw [h]

theorem State.Inv.congr {s t : State} (hs : s.Inv) (hparams : t.params = s.params) (hmem : t.mem = s.mem)
    (hslots : t.slots = s.slots) (hrom : t.rom = s.rom) : t.Inv where
  memCanonical := hmem ▸ hs.memCanonical
  memInside := by rw [hmem, hparams]; exact hs.memInside
  slotCount := by rw [hslots, hparams]; exact hs.slotCount
  paired := by simpa only [slotAt_congr hslots] using hs.paired
  slotRegions := by simpa only [slotAt_congr hslots] using hs.slotRegions
  romRegion := hrom ▸ hs.romRegion
  tables := hparams ▸ hs.tables

theorem State.Inv.respond {s : State} (h : s.Inv) (r : Response) : (s.respond r).Inv := h.congr rfl rfl rfl rfl

theorem State.Inv.noteRead {s : State} (h : s.Inv) (k : Nat) : (s.noteRead k).Inv := h.congr rfl rfl rfl rfl

/-- The register written lies inside the store, so no byte is listed beyond it. -/
theorem State.Inv.putReg {s : State} (h : s.Inv) {k : Nat} (v : Reg) (hk : k < s.params.cfgRegs) :
    (s.putReg k v).Inv := by
  by_cases hplain : s.params.store = .plain
  · have hmem := putReg_mem_plain k v hplain
    exact
      { memCanonical := by rw [hmem]; exact Mem.wf_writeReg k v h.memCanonical
        memInside := by rw [hmem, putReg_params]; exact Mem.below_writeReg v hk h.memInside
        slotCount := by rw [putReg_slots, putReg_params]; exact h.slotCount
        paired := by simpa only [slotAt_congr (putReg_slots s k v)] using h.paired
        slotRegions := by simpa only [slotAt_congr (putReg_slots s k v)] using h.slotRegions
        romRegion := by rw [putReg_rom]; exact h.romRegion
        tables := by rw [putReg_params]; exact h.tables }
  · exact h.congr (putReg_params s k v) (putReg_mem_device k v hplain) (putReg_slots s k v) (putReg_rom s k v)

theorem State.Inv.setRom {s : State} (h : s.Inv) {r : Region} (e : Bool) (hr : constructible r = true) :
    (s.setRom (.rom r e)).Inv :=
  { h with romRegion := fun _ _ heq => by cases heq; exact hr }

theorem hasRoom_iff {s : State} {k : Nat} {r : Region} : s.hasRoom k r = true ↔
    (isMemory64 r = true → k + 1 < s.params.barSlots ∧ s.slotAt (k + 1) = .empty) := by
  cases h : isMemory64 r <;> simp [State.hasRoom, h]

/-- Slot `j` holds a 64-bit BAR. -/
def State.Holds64 (s : State) (j : Nat) : Prop := ∃ r p, s.slotAt j = .bar r p ∧ isMemory64 r = true

section
variable {s : State} {k : Nat} {r : Region} (p : Bool) (hk : k < s.slots.length) (hfree : s.slotAt k = .empty)
  (hnext : isMemory64 r = true → k + 1 < s.slots.length ∧ s.slotAt (k + 1) = .empty)
include hk hfree hnext

/-- Placing a BAR where its slots are Empty adds its own upper slot, if it has one, and loses none. -/
theorem place_slotAt_upper64_iff (m j : Nat) : (s.place k r p).slotAt m = .upper64 j ↔
    s.slotAt m = .upper64 j ∨ isMemory64 r = true ∧ m = k + 1 ∧ j = k := by
  rw [slotAt_place_inside r p hk fun h64 => (hnext h64).1]
  by_cases hm : m = k
  · subst hm; simp [hfree]
  · by_cases hupper : isMemory64 r = true ∧ m = k + 1
    · obtain ⟨h64, rfl⟩ := hupper
      simp [h64, (hnext h64).2, eq_comm]
    · rw [if_neg hm, if_neg hupper]
      exact ⟨.inl, fun h => h.resolve_right fun ⟨h64, hm1, _⟩ => hupper ⟨h64, hm1⟩⟩

theorem place_holds64_iff (j : Nat) :
    (s.place k r p).Holds64 j ↔ s.Holds64 j ∨ isMemory64 r = true ∧ j = k := by
  unfold State.Holds64
  rw [slotAt_place_inside r p hk fun h64 => (hnext h64).1]
  by_cases hj : j = k
  · subst hj; simp [hfree]
  · by_cases hupper : isMemory64 r = true ∧ j = k + 1
    · obtain ⟨h64, rfl⟩ := hupper
      simp [(hnext h64).2, h64]
    · simp [hj, hupper]

/-- R199: the new pairing is that of the BAR just placed, and the old ones stand. -/
theorem State.Inv.place (h : s.Inv) (hr : constructible r = true) : (s.place k r p).Inv where
  memCanonical := by rw [place_mem]; exact h.memCanonical
  memInside := by rw [place_mem, place_params]; exact h.memInside
  slotCount := by rw [place_slots_length, place_params]; exact h.slotCount
  paired m j := by
    have hupper := place_slotAt_upper64_iff p hk hfree hnext m j
    have hholds := place_holds64_iff p hk hfree hnext j
    have hold : s.slotAt m = .upper64 j ↔ m = j + 1 ∧ s.Holds64 j := h.paired m j
    show _ ↔ m = j + 1 ∧ (s.place k r p).Holds64 j
    rw [hupper, hholds, hold]
    constructor
    · rintro (⟨hm, h64⟩ | ⟨h64, hm, rfl⟩)
      · exact ⟨hm, .inl h64⟩
      · exact ⟨hm, .inr ⟨h64, rfl⟩⟩
    · rintro ⟨hm, h64 | ⟨h64, rfl⟩⟩
      · exact .inl ⟨hm, h64⟩
      · exact .inr ⟨h64, hm, rfl⟩
  slotRegions m q f := by
    rw [slotAt_place_inside r p hk fun h64 => (hnext h64).1]
    split
    · intro heq; cases heq; exact hr
    · split
      · exact nofun
      · exact h.slotRegions m q f
  romRegion := by rw [place_rom]; exact h.romRegion
  tables := by rw [place_params]; exact h.tables

end

/-- Each effect of a well-formed command keeps the invariant: its writes are inside the store, and a BAR is placed
where there is room for it. -/
theorem Effect.keepsInv {i : Instr} {s u : State} {r : Response} (h : Effect i s r u) (hi : i.wellFormed = true)
    (hs : s.Inv) : u.Inv := by
  cases h with
  | answer => exact hs
  | read _ k => exact hs.noteRead k
  | write k v hk => exact hs.putReg v hk
  | readWrite k v hk => exact (hs.noteRead k).putReg v hk
  | place index q p heq hk hfree hroom =>
    subst heq
    rw [← hs.slotCount] at hk
    refine State.Inv.place p hk hfree (fun h64 => ?_) hs hi
    rw [hs.slotCount]
    exact hasRoom_iff.1 hroom h64
  | setRom q e heq => subst heq; exact hs.setRom e hi

/-- Settles O58: a step does nothing but move the counter, or it is one effect of a command that was decoded, whose
operands are well-formed (O2). -/
theorem everyStepKeepsTheInvariant : Obligations.EveryStepKeepsTheInvariant := by
  intro s t hs h
  rcases step_cases h with ⟨-, rfl⟩ | ⟨c, rest, i, r, u, -, hdecode, heffect, rfl⟩
  · exact hs.congr rfl rfl rfl rfl
  · have hi : i.wellFormed = true := (encodeOfDecodedIsTheListedPorts c i hdecode).1
    have hstart : (s.tick.withCommands rest).Inv := hs.congr rfl rfl rfl rfl
    exact (heffect.keepsInv hi hstart).respond r

/-- Settles O56: the store is made of registers below `CFG_REGS`, and no slot holds anything. -/
theorem launchMeetsTheInvariant : Obligations.LaunchMeetsTheInvariant := by
  intro p init htables
  exact
    { memCanonical := Mem.wf_ofRegs _ _
      memInside := Mem.below_ofRegs 0 p.cfgRegs _ (by rw [List.length_take]; omega)
      slotCount := List.length_replicate
      paired := fun k j => by simp
      slotRegions := fun k r f => by simp
      romRegion := fun r e => by simp
      tables := htables }

theorem resetParams_tablesWf : Params.tablesWf resetParams := by
  refine ⟨⟨by decide, ?_⟩, ⟨by decide, ?_⟩, ⟨by decide, nofun⟩, ⟨by decide, nofun⟩⟩
  · rintro b ⟨⟩; decide
  · rintro b ⟨⟩; decide

/-- Settles O57: reset is a launch, and the spec's default tables keep the other members apart from the known codes. -/
theorem resetMeetsTheInvariant : Obligations.ResetMeetsTheInvariant :=
  launchMeetsTheInvariant resetParams [] resetParams_tablesWf

end Sys2Proof.Machine
end

section
/-! SUPPORT. What a step and a command leave unchanged (10_state.md R23, R27; 20_memory.md R46;
45_bar_contracts.md R198; 70_reset_and_hazards.md R251, R252). -/

namespace Sys2Proof.Machine

/-- Settles O11: taking the command off the ports and moving the counter is what `step` does before `exec`. -/
theorem stepRunsTheDecodedCommand : Obligations.StepRunsTheDecodedCommand := by
  intro s c rest i hcommands hdecode
  simp only [step, hcommands, hdecode]
  rfl

/-- Settles O12: the refusal at decode is the outcome of the step. -/
theorem undecodableCommandIsRefused : Obligations.UndecodableCommandIsRefused := by
  intro s c rest why hcommands hdecode
  simp only [step, hcommands, hdecode]

/-- Settles O13: with no command presented the step is the counter's tick. -/
theorem noCommandNoEffect : Obligations.NoCommandNoEffect := by
  intro s hcommands
  have htick : step s = .next s.tick := by simp only [step, hcommands]
  exact htick

/-- What a step does to the things `INIT_REGS` stand on (`Effect.quiet`), whether or not a command was presented. -/
theorem step_quiet {s t : State} (h : step s = .next t) : t.params = s.params ∧
    (∃ p, t.trace = p ++ s.trace) ∧ ((∀ v ∈ t.slots, v = Slot.empty) → t.slots = s.slots) ∧
    (t.rom = .empty → s.rom = .empty) ∧ ((∀ k v, StoreAccess.write k v ∉ t.trace) → t.mem = s.mem) := by
  rcases step_cases h with ⟨-, rfl⟩ | ⟨c, rest, i, r, u, -, -, heffect, rfl⟩
  · exact ⟨rfl, ⟨[], rfl⟩, fun _ => rfl, id, fun _ => rfl⟩
  · exact ⟨heffect.kept.1, heffect.quiet⟩

theorem accessHasEffect_of_noWrite {s : State} (h : ∀ k v, StoreAccess.write k v ∉ s.trace) :
    ∀ a ∈ s.trace, accessHasEffect false a = false := by
  intro a ha
  cases a with
  | read k => rfl
  | write k v => exact absurd ha (h k v)

/-- Where `INIT_REGS` stand after a step they stood before it, so a device's own store gives the same registers. -/
theorem step_regValue_of_initStands {s t : State} {readEffects : Bool} (h : step s = .next t)
    (hdevice : s.params.store = .device readEffects) (hstands : t.initStands readEffects = true)
    (hnoWrite : ∀ k v, StoreAccess.write k v ∉ t.trace) (i : Nat) : t.regValue i = s.regValue i := by
  obtain ⟨hparams, ⟨p, htrace⟩, hslots, hrom, hmem⟩ := step_quiet h
  obtain ⟨haccess, hempty, hromEmpty⟩ := initStands_iff.1 hstands
  have hbefore : s.initStands readEffects = true := initStands_iff.2
    ⟨fun a ha => haccess a (by rw [htrace]; exact List.mem_append_right p ha), hslots hempty ▸ hempty, hrom hromEmpty⟩
  rw [regValue_init i (by rw [hparams, hdevice]) hstands, regValue_init i hdevice hbefore, hmem hnoWrite]

/-- Settles O14: `mem` changes only with a store write, and a device's own store gives `mem` while `INIT_REGS`
stand. -/
theorem parametersNeverChange : Obligations.ParametersNeverChange := by
  intro s t h
  obtain ⟨hparams, -, -, -, hmem⟩ := step_quiet h
  refine ⟨hparams, fun hplain hnoWrite i => ?_, fun hdevice hnoWrite ⟨hslots, hrom⟩ => ?_,
    fun hdevice htrace ⟨hslots, hrom⟩ => ?_⟩
  · rw [regValue_plain i (by rw [hparams, hplain]), regValue_plain i hplain, hmem hnoWrite]
  · exact step_regValue_of_initStands h hdevice
      (initStands_iff.2 ⟨accessHasEffect_of_noWrite hnoWrite, hslots, hrom⟩) hnoWrite
  · exact step_regValue_of_initStands h hdevice (initStands_iff.2 ⟨by simp [htrace], hslots, hrom⟩) (by simp [htrace])

theorem Effect.slots_of_not_addBar {i : Instr} {s u : State} {r : Response} (h : Effect i s r u)
    (hi : ∀ k q p, i ≠ .addBar k q p) : u.slots = s.slots := by
  cases h with
  | place index q p heq => exact absurd heq (hi index q p)
  | answer | read | write | readWrite | setRom => simp

theorem Effect.rom_of_not_addRomBar {i : Instr} {s u : State} {r : Response} (h : Effect i s r u)
    (hi : ∀ q e, i ≠ .addRomBar q e) : u.rom = s.rom := by
  cases h with
  | setRom q e heq => exact absurd heq (hi q e)
  | answer | read | write | readWrite | place => simp

/-- R44: a command other than the three writes that succeeds has made at most a read. -/
theorem exec_trace_of_not_write {i : Instr} {s t : State} (h : exec i s = .next t)
    (hok : t.resp.map Response.status = some .ok) (hdword : ∀ o v, i ≠ .writeDword o v)
    (hword : ∀ o v, i ≠ .writeWord o v) (hbyte : ∀ o v, i ≠ .writeByte o v) :
    t.trace = s.trace ∨ ∃ k, t.trace = .read k :: s.trace := by
  have haccesses := storeAccessesOfEachCommand i s t h hok
  cases i
  case writeDword o v => exact absurd rfl (hdword o v)
  case writeWord o v => exact absurd rfl (hword o v)
  case writeByte o v => exact absurd rfl (hbyte o v)
  case readDword | readWord | readByte | readVendorId | readDeviceId | readCommand | readStatus | readRevisionId
      | readProgIf | readSubclass | readClassCode | readCacheLineSize | readLatencyTimer | readHeaderType | readBist =>
    exact .inr ⟨_, haccesses⟩
  all_goals exact .inl haccesses

/-- A store write is noted in the trace, where a command other than the three writes leaves none. -/
theorem exec_mem_of_not_write {i : Instr} {s t : State} (h : exec i s = .next t) (hdword : ∀ o v, i ≠ .writeDword o v)
    (hword : ∀ o v, i ≠ .writeWord o v) (hbyte : ∀ o v, i ≠ .writeByte o v) : t.mem = s.mem := by
  obtain ⟨r, u, heffect, rfl⟩ := exec_effects i s t h
  have htrace := fun hok => exec_trace_of_not_write h hok hdword hword hbyte
  cases heffect with
  | write k v => simpa using htrace rfl
  | readWrite k v =>
    rcases htrace rfl with heq | ⟨j, heq⟩
    · have hlength := congrArg List.length heq
      simp only [respond_trace, putReg_trace, noteRead_trace, List.length_cons] at hlength
      omega
    · simp at heq
  | answer | read | place | setRom => simp

/-- Settles O20: no effect touches the parameters, the commands or the counter; each of the others is the effect of one
command alone. -/
theorem commandsThatDoNotWriteTheStore : Obligations.CommandsThatDoNotWriteTheStore := by
  intro i s t h
  obtain ⟨r, u, heffect, rfl⟩ := exec_effects i s t h
  obtain ⟨hparams, hcommands, hnow⟩ := heffect.kept
  refine ⟨hparams, hcommands, hnow, fun hdword hword hbyte a => ?_, heffect.slots_of_not_addBar,
    heffect.rom_of_not_addRomBar⟩
  rw [exec_mem_of_not_write h hdword hword hbyte]

/-- R69: the groups of the opcode table, command by command. -/
def tableGroup : Opcode → Group
  | .validateAlign | .readDword | .writeDword | .readWord | .writeWord | .readByte | .writeByte => .codec
  | .readVendorId | .readDeviceId | .readCommand | .readStatus | .readRevisionId | .readProgIf | .readSubclass
  | .readClassCode | .readCacheLineSize | .readLatencyTimer | .readHeaderType | .readBist => .named
  | .newIoRegion | .newMem32Region | .newMem64Region | .regionEq => .region
  | .classFrom | .classValue | .bridgeSubclassFrom | .bridgeSubclassValue | .capidFrom | .capidValue
  | .hdrtypeFrom | .hdrtypeValue => .taxonomy
  | .addBar | .addRomBar | .barAddress | .romBarAddress => .contract

/-- The table's group is bits 7 to 4 of the op. -/
theorem groupOf_eq (o : Opcode) : groupOf o = some (tableGroup o) := by cases o <;> rfl

theorem groupOf_eq_some_iff {o : Opcode} {g : Group} : groupOf o = some g ↔ tableGroup o = g := by
  rw [groupOf_eq, Option.some.injEq]

/-- R190 item 6, R192: slot `k` and, for a 64-bit BAR, the next one are in the table and Empty. -/
structure State.Accepts (s : State) (k : Nat) (q : Region) : Prop where
  inside : k < s.params.barSlots
  free : s.slotAt k = .empty
  nextFree : isMemory64 q = true → k + 1 < s.params.barSlots ∧ s.slotAt (k + 1) = .empty

/-- R192: the reference raises, or places the BAR where there is room for it. -/
theorem addBarReference_cases (k : Nat) (q : Region) (p : Bool) (s : State) :
    (∃ c, addBarReference k q p s = raise c s) ∨
    s.Accepts k q ∧ addBarReference k q p s = done (s.place k q p) := by
  rcases Nat.lt_or_ge k s.params.barSlots with hk | hout
  · cases hheld : occupiedError (s.slotAt k) with
    | some c => exact .inl ⟨c, addBarReference_held q p hk hheld⟩
    | none =>
      have hfree := occupiedError_none.1 hheld
      by_cases hnext : isMemory64 q = true → k + 1 < s.params.barSlots ∧ s.slotAt (k + 1) = .empty
      · exact .inr ⟨⟨hk, hfree, hnext⟩, addBarReference_places q p hk hfree hnext⟩
      · obtain ⟨h64, hnoRoom⟩ := Classical.not_imp.1 hnext
        rcases Nat.lt_or_ge (k + 1) s.params.barSlots with hk1 | hlast
        · cases hheld1 : occupiedError (s.slotAt (k + 1)) with
          | some c => exact .inl ⟨c, addBarReference_nextHeld q p hk hfree h64 hk1 hheld1⟩
          | none => exact absurd ⟨hk1, occupiedError_none.1 hheld1⟩ hnoRoom
        · exact .inl ⟨.barIndex, addBarReference_lastSlot q p hk hfree h64 hlast⟩
  · exact .inl ⟨.barIndex, addBarReference_outside q p hout⟩

/-- R190: so does a device with its own bookkeeping (log 6). -/
theorem addBarDevice_cases (k : Nat) (q : Region) (p : Bool) (s : State) :
    (∃ c, addBarDevice k q p s = raise c s) ∨ s.Accepts k q ∧ addBarDevice k q p s = done (s.place k q p) := by
  simp only [addBarDevice]
  split
  · exact .inl ⟨_, rfl⟩
  · next hk =>
    split
    · exact .inl ⟨_, rfl⟩
    · next hfree =>
      split
      · next hroom =>
        split
        · exact .inl ⟨_, rfl⟩
        · exact .inr ⟨⟨Nat.lt_of_not_le hk, Classical.not_not.1 hfree, hasRoom_iff.1 hroom⟩, rfl⟩
      · exact .inl ⟨_, rfl⟩

theorem addBar_cases (index : BitVec 32) (q : Region) (p : Bool) (s : State) :
    (∃ c, execAddBar index q p s = raise c s) ∨
    s.Accepts (slotNumber index) q ∧ execAddBar index q p s = done (s.place (slotNumber index) q p) := by
  unfold execAddBar
  split
  · exact addBarReference_cases _ q p s
  · exact addBarDevice_cases _ q p s

/-- How a contract command answers: over the state as it was, or with a BAR or a ROM BAR placed. -/
inductive SlotAnswer (s : State) : Result → Prop
  | answer (r : Response) : SlotAnswer s (.next (s.respond r))
  | place (k : Nat) (q : Region) (p : Bool) : SlotAnswer s (done (s.place k q p))
  | setRom (v : RomSlot) : SlotAnswer s (done (s.setRom v))

section
variable (s : State)

theorem slotAnswer_raise (c : Cause) : SlotAnswer s (raise c s) := .answer _

theorem slotAnswer_returnRegion (q : Region) : SlotAnswer s (returnRegion q s) := .answer _

theorem slotAnswer_addBar (index : BitVec 32) (q : Region) (p : Bool) : SlotAnswer s (execAddBar index q p s) := by
  rcases addBar_cases index q p s with ⟨c, hraise⟩ | ⟨-, hplace⟩
  · rw [hraise]; exact slotAnswer_raise s c
  · rw [hplace]; exact .place _ q p

theorem slotAnswer_addRomBar (q : Region) (e : Bool) : SlotAnswer s (execAddRomBar q e s) := by
  unfold execAddRomBar addRomBarReference addRomBarDevice
  split
  · split
    · exact slotAnswer_raise s _
    · exact .setRom _
  · split
    · exact slotAnswer_raise s _
    · split
      · exact slotAnswer_raise s _
      · exact .setRom _

theorem slotAnswer_barAddress (index : BitVec 32) : SlotAnswer s (execBarAddress index s) := by
  unfold execBarAddress barAddressReference barAddressDevice
  split
  · split
    · exact slotAnswer_raise s _
    · split
      · exact slotAnswer_raise s _
      · exact slotAnswer_raise s _
      · exact slotAnswer_returnRegion s _
  · dsimp only
    split
    · exact slotAnswer_raise s _
    · split
      · exact slotAnswer_raise s _
      · split
        · split
          · exact slotAnswer_returnRegion s _
          · exact slotAnswer_raise s _
        · exact slotAnswer_raise s _
        · exact slotAnswer_raise s _
      · exact slotAnswer_returnRegion s _

theorem slotAnswer_romBarAddress : SlotAnswer s (execRomBarAddress s) := by
  unfold execRomBarAddress
  split
  · exact slotAnswer_raise s _
  · exact slotAnswer_returnRegion s _

theorem exec_contract_slotAnswer {i : Instr} (h : tableGroup i.opcode = .contract) : SlotAnswer s (exec i s) := by
  cases i
  case addBar index q p => exact slotAnswer_addBar s index q p
  case addRomBar q e => exact slotAnswer_addRomBar s q e
  case barAddress index => exact slotAnswer_barAddress s index
  case romBarAddress => exact slotAnswer_romBarAddress s
  all_goals cases h

end

theorem SlotAnswer.store_kept {s t : State} {o : Result} (h : SlotAnswer s o) (ht : o = .next t) :
    t.mem = s.mem ∧ t.trace = s.trace := by
  cases h with
  | answer | place | setRom =>
    obtain rfl := Host.Outcome.next.inj ht
    simp

/-- A slot that is filled is none of those a new BAR takes, which were Empty. -/
theorem Effect.keepsFilled {i : Instr} {s u : State} {r : Response} (h : Effect i s r u) :
    (∀ k, s.slotAt k ≠ .empty → u.slotAt k = s.slotAt k) ∧ (s.rom ≠ .empty → u.rom = s.rom) := by
  cases h with
  | answer | read => exact ⟨fun _ _ => rfl, fun _ => rfl⟩
  | write | readWrite => exact ⟨fun k _ => slotAt_congr (by simp) k, fun _ => by simp⟩
  | setRom q e _ hfree => exact ⟨fun _ _ => rfl, absurd hfree⟩
  | place index q p _ _ hfree hroom =>
    refine ⟨fun k hfilled => ?_, fun _ => place_rom ..⟩
    have hown : k ≠ slotNumber index := by rintro rfl; exact hfilled hfree
    have hupper : ¬ (isMemory64 q = true ∧ k = slotNumber index + 1 ∧ slotNumber index + 1 < s.slots.length) := by
      rintro ⟨h64, rfl, -⟩
      exact hfilled (hasRoom_iff.1 hroom h64).2
    rw [slotAt_place, if_neg fun hk => hown hk.1, if_neg hupper]

/-- Settles O47: a contract command's answer is written over a state with the store of before, and each effect keeps
what is filled. -/
theorem filledSlotsStayFilled : Obligations.FilledSlotsStayFilled := by
  refine ⟨fun i s t hgroup h => (exec_contract_slotAnswer s (groupOf_eq_some_iff.1 hgroup)).store_kept h,
    fun s t h => ?_⟩
  rcases step_cases h with ⟨-, rfl⟩ | ⟨c, rest, i, r, u, -, -, heffect, rfl⟩
  · exact ⟨fun _ _ => rfl, fun _ => rfl⟩
  · exact heffect.keepsFilled

end Sys2Proof.Machine
end

section
/-! SUPPORT. What the answer of a command can depend on (10_state.md R20, R24, R27): outside the contracts the
parameters and the register values fix what it does, and for the region and taxonomy commands the parameters alone. -/

namespace Sys2Proof.Machine

/-- What a codec or named command does once parameters and register values are known. -/
inductive StorePlan where
  | answer (r : Response)
  | readAnswer (k : Nat) (r : Response)
  | write (k : Nat) (v : Reg)
  | readWrite (k : Nat) (v : Reg)

def StorePlan.run : StorePlan → State → Result
  | .answer r, s => .next (s.respond r)
  | .readAnswer k r, s => .next ((s.noteRead k).respond r)
  | .write k v, s => done (s.putReg k v)
  | .readWrite k v, s => done ((s.noteRead k).putReg k v)

/-- In every state of parameters `p` and register values `regs`, `f` does the same. -/
def Planned (p : Params) (regs : Nat → Reg) (f : State → Result) : Prop :=
  ∃ plan : StorePlan, ∀ s : State, s.params = p → s.regValue = regs → f s = plan.run s

/-- In every state of parameters `p`, `f` gives the same response and does nothing else. -/
def AnswersAlone (p : Params) (f : State → Result) : Prop :=
  ∃ r : Response, ∀ s : State, s.params = p → f s = .next (s.respond r)

section
variable (p : Params) (regs : Nat → Reg)

theorem planned_byteRead (o : Wide) : Planned p regs (byteRead o) := by
  rcases Nat.lt_or_ge (registerOf o) p.cfgRegs with hin | hout
  · refine ⟨.readAnswer (registerOf o) (dataResponse ((extract8 (regs (registerOf o)) (byteIdx o)).setWidth 32)), ?_⟩
    rintro s rfl rfl
    exact byteRead_inside hin
  · refine ⟨.answer (errorResponse .offsetOutOfBounds), ?_⟩
    rintro s rfl -
    exact byteRead_outside hout

theorem planned_byteWrite (o : Wide) (b : Byte) : Planned p regs (byteWrite o b) := by
  rcases Nat.lt_or_ge (registerOf o) p.cfgRegs with hin | hout
  · refine ⟨.readWrite (registerOf o) (insert8 (regs (registerOf o)) (byteIdx o) b), ?_⟩
    rintro s rfl rfl
    exact byteWrite_inside b hin
  · refine ⟨.answer (errorResponse .offsetOutOfBounds), ?_⟩
    rintro s rfl -
    exact byteWrite_outside b hout

theorem planned_readDword (o : Wide) : Planned p regs (execReadDword o) := by
  by_cases ha : o.toNat % 4 = 0
  · rcases Nat.lt_or_ge (registerOf o) p.cfgRegs with hin | hout
    · refine ⟨.readAnswer (registerOf o) (dataResponse (regs (registerOf o))), ?_⟩
      rintro s rfl rfl
      exact readDword_inside ha hin
    · refine ⟨.answer (errorResponse .offsetOutOfBounds), ?_⟩
      rintro s rfl -
      exact readDword_outside ha hout
  · exact ⟨.answer (errorResponse .unalignedAccess), fun s _ _ => readDword_misaligned s ha⟩

theorem planned_writeDword (o : Wide) (v : Reg) : Planned p regs (execWriteDword o v) := by
  by_cases ha : o.toNat % 4 = 0
  · rcases Nat.lt_or_ge (registerOf o) p.cfgRegs with hin | hout
    · refine ⟨.write (registerOf o) v, ?_⟩
      rintro s rfl -
      exact writeDword_inside v ha hin
    · refine ⟨.answer (errorResponse .offsetOutOfBounds), ?_⟩
      rintro s rfl -
      exact writeDword_outside v ha hout
  · exact ⟨.answer (errorResponse .unalignedAccess), fun s _ _ => writeDword_misaligned v s ha⟩

/-- The five cases of a word access, `f` being `wordRead o` or `wordWrite o w`: only the first, aligned and inside the
store, differs between the two. -/
theorem planned_wordAccess {o : Wide} {f : State → Result}
    (hinside : wordMisaligned o = false → registerOf o < p.cfgRegs → Planned p regs f)
    (houtside : ∀ s : State, wordMisaligned o = false → s.params.cfgRegs ≤ registerOf o →
      f s = raise .offsetOutOfBounds s)
    (halignFirst : ∀ s : State, s.params.wordOrder = .alignFirst → wordMisaligned o = true →
      f s = raise .unalignedAccess s)
    (hreadFirst : ∀ s : State, s.params.wordOrder = .readFirst → wordMisaligned o = true →
      registerOf o < s.params.cfgRegs → f s = raise .unalignedAccess (s.noteRead (registerOf o)))
    (houtsideReadFirst : ∀ s : State, s.params.wordOrder = .readFirst → s.params.cfgRegs ≤ registerOf o →
      f s = raise .offsetOutOfBounds s) : Planned p regs f := by
  cases ha : wordMisaligned o with
  | false =>
    rcases Nat.lt_or_ge (registerOf o) p.cfgRegs with hin | hout
    · exact hinside ha hin
    · refine ⟨.answer (errorResponse .offsetOutOfBounds), ?_⟩
      rintro s rfl -
      exact houtside s ha hout
  | true =>
    cases horder : p.wordOrder with
    | alignFirst =>
      refine ⟨.answer (errorResponse .unalignedAccess), ?_⟩
      rintro s rfl -
      exact halignFirst s horder ha
    | readFirst =>
      rcases Nat.lt_or_ge (registerOf o) p.cfgRegs with hin | hout
      · refine ⟨.readAnswer (registerOf o) (errorResponse .unalignedAccess), ?_⟩
        rintro s rfl -
        exact hreadFirst s horder ha hin
      · refine ⟨.answer (errorResponse .offsetOutOfBounds), ?_⟩
        rintro s rfl -
        exact houtsideReadFirst s horder hout

theorem planned_wordRead (o : Wide) : Planned p regs (wordRead o) := by
  refine planned_wordAccess p regs (fun ha hin => ?_) (fun _ => wordRead_outside)
    (fun _ => wordRead_misaligned_alignFirst) (fun _ => wordRead_misaligned_readFirst)
    (fun _ => wordRead_outside_readFirst)
  refine ⟨.readAnswer (registerOf o) (dataResponse ((extract16 (regs (registerOf o)) (byteIdx o)).setWidth 32)), ?_⟩
  rintro s rfl rfl
  exact wordRead_inside ha hin

theorem planned_wordWrite (o : Wide) (w : Half) : Planned p regs (wordWrite o w) := by
  refine planned_wordAccess p regs (fun ha hin => ?_) (fun _ => wordWrite_outside w)
    (fun _ => wordWrite_misaligned_alignFirst w) (fun _ => wordWrite_misaligned_readFirst w)
    (fun _ => wordWrite_outside_readFirst w)
  refine ⟨.readWrite (registerOf o) (insert16 (regs (registerOf o)) (byteIdx o) w), ?_⟩
  rintro s rfl rfl
  exact wordWrite_inside w ha hin

theorem answersAlone_validateAlign (o : Wide) : AnswersAlone p (execValidateAlign o) := by
  by_cases ha : o.toNat % 4 = 0
  · exact ⟨okResponse, fun s _ => validateAlign_aligned s ha⟩
  · exact ⟨errorResponse .unalignedAccess, fun s _ => validateAlign_misaligned s ha⟩

theorem answersAlone_construct {w : Nat} (f : BitVec w → BitVec w → Region) (a l : BitVec w) :
    AnswersAlone p (construct f a l) := by
  rcases Nat.lt_or_ge (a.toNat + l.toNat) (2 ^ w) with hfits | hover
  · by_cases ha : a.toNat % 4 = 0
    · exact ⟨regionResponse (f a l), fun s _ => construct_ok f s hfits ha⟩
    · exact ⟨errorResponse .unalignedAccess, fun s _ => construct_misaligned f s hfits ha⟩
  · exact ⟨errorResponse (.addressInvalid (a.setWidth 64) (l.setWidth 64)), fun s _ => construct_overflow f s hover⟩

variable {p regs}

theorem AnswersAlone.planned {f : State → Result} (h : AnswersAlone p f) : Planned p regs f := by
  obtain ⟨r, hr⟩ := h
  exact ⟨.answer r, fun s hp _ => hr s hp⟩

variable {i : Instr}

theorem exec_planned (h : tableGroup i.opcode = .codec ∨ tableGroup i.opcode = .named) : Planned p regs (exec i) := by
  cases i
  case validateAlign o => exact (answersAlone_validateAlign p o).planned
  case readDword o => exact planned_readDword p regs o
  case writeDword o v => exact planned_writeDword p regs o v
  case writeWord o w => exact planned_wordWrite p regs o w
  case writeByte o b => exact planned_byteWrite p regs o b
  case readWord | readVendorId | readDeviceId | readCommand | readStatus => exact planned_wordRead p regs _
  case readByte | readRevisionId | readProgIf | readSubclass | readClassCode | readCacheLineSize | readLatencyTimer
      | readHeaderType | readBist =>
    exact planned_byteRead p regs _
  all_goals simp [tableGroup, Instr.opcode] at h

theorem exec_region_answersAlone (h : tableGroup i.opcode = .region) : AnswersAlone p (exec i) := by
  cases i
  case newIoRegion a l => exact answersAlone_construct p Region.io a l
  case newMem32Region a l => exact answersAlone_construct p Region.memory32 a l
  case newMem64Region a l => exact answersAlone_construct p Region.memory64 a l
  case regionEq rA rB => exact ⟨_, fun s _ => rfl⟩
  all_goals cases h

/-- R68: `i` is a `*_VALUE` command whose tag names no member of its table. -/
def TagUnlisted (p : Params) (i : Instr) (tag : Byte) : Prop :=
  (i = .classValue tag ∧ tag ∉ p.classTable.codes) ∨ (i = .bridgeSubclassValue tag ∧ tag ∉ p.bridgeTable.codes) ∨
  (i = .capidValue tag ∧ tag ∉ p.capidTable.codes) ∨ (i = .hdrtypeValue tag ∧ tag ∉ p.hdrtypeTable.codes)

/-- In every state of parameters `p` command `i` is refused, for a tag that names no member. -/
def RefusesTag (p : Params) (i : Instr) : Prop :=
  ∃ which tag, (∀ s : State, s.params = p → exec i s = .refused (.noSuchMember which tag)) ∧ tag ≠ 0xFF#8 ∧
    TagUnlisted p i tag

/-- R174, R177, R180, R183: a `*_FROM` command answers from its table. -/
theorem answersAlone_from {table : Params → Taxonomy} {b : Byte}
    (hexec : ∀ s, exec i s = answerFrom (table s.params) b s) : AnswersAlone p (exec i) := by
  refine ⟨dataResponse ((taxonomyFrom (table p) b).setWidth 32), ?_⟩
  rintro s rfl
  exact hexec s

/-- R175, R178, R181, R184: a `*_VALUE` command answers from its table, or refuses the tag. -/
theorem answersAlone_or_refusesTag_value {which : TaxonomyId} {table : Params → Taxonomy} {tag : Byte}
    (hexec : ∀ s, exec i s = answerValue which (table s.params) tag s)
    (hunlisted : tag ∉ (table p).codes → TagUnlisted p i tag) : AnswersAlone p (exec i) ∨ RefusesTag p i := by
  by_cases hother : tag = otherTag
  · refine .inl ⟨dataResponse ((otherValue which (table p)).setWidth 32), ?_⟩
    rintro s rfl
    rw [hexec, hother]
    rfl
  · by_cases hmem : tag ∈ (table p).codes
    · refine .inl ⟨dataResponse (tag.setWidth 32), ?_⟩
      rintro s rfl
      exact (hexec s).trans (answerValue_known which s hother hmem)
    · refine .inr ⟨which, tag, ?_, hother, hunlisted hmem⟩
      rintro s rfl
      exact (hexec s).trans (answerValue_unknown which s hother hmem)

theorem exec_taxonomy_cases (h : tableGroup i.opcode = .taxonomy) : AnswersAlone p (exec i) ∨ RefusesTag p i := by
  cases i
  case classFrom => exact .inl (answersAlone_from (table := Params.classTable) fun _ => rfl)
  case bridgeSubclassFrom => exact .inl (answersAlone_from (table := Params.bridgeTable) fun _ => rfl)
  case capidFrom => exact .inl (answersAlone_from (table := Params.capidTable) fun _ => rfl)
  case hdrtypeFrom => exact .inl (answersAlone_from (table := Params.hdrtypeTable) fun _ => rfl)
  case classValue =>
    exact answersAlone_or_refusesTag_value (table := Params.classTable) (fun _ => rfl) fun hn => .inl ⟨rfl, hn⟩
  case bridgeSubclassValue =>
    exact answersAlone_or_refusesTag_value (table := Params.bridgeTable) (fun _ => rfl)
      fun hn => .inr (.inl ⟨rfl, hn⟩)
  case capidValue =>
    exact answersAlone_or_refusesTag_value (table := Params.capidTable) (fun _ => rfl)
      fun hn => .inr (.inr (.inl ⟨rfl, hn⟩))
  case hdrtypeValue =>
    exact answersAlone_or_refusesTag_value (table := Params.hdrtypeTable) (fun _ => rfl)
      fun hn => .inr (.inr (.inr ⟨rfl, hn⟩))
  all_goals cases h

end

theorem StorePlan.run_answers (plan : StorePlan) (s : State) : ∃ t, plan.run s = .next t ∧ t.resp.isSome := by
  cases plan <;> exact ⟨_, rfl, rfl⟩

theorem SlotAnswer.answers {s : State} {o : Result} (h : SlotAnswer s o) : ∃ t, o = .next t ∧ t.resp.isSome := by
  cases h <;> exact ⟨_, rfl, rfl⟩

/-- Settles O15: group by group; only a `*_VALUE` command can refuse, and it then names the tag. -/
theorem everyCommandAnswers : Obligations.EveryCommandAnswers := by
  intro i s
  have halone : AnswersAlone s.params (exec i) → ∃ t, exec i s = .next t ∧ t.resp.isSome :=
    fun ⟨r, hr⟩ => ⟨s.respond r, hr s rfl, rfl⟩
  have hplanned : Planned s.params s.regValue (exec i) → ∃ t, exec i s = .next t ∧ t.resp.isSome := by
    rintro ⟨plan, hplan⟩
    rw [hplan s rfl rfl]
    exact plan.run_answers s
  cases hgroup : tableGroup i.opcode with
  | codec => exact .inl (hplanned (exec_planned (.inl hgroup)))
  | named => exact .inl (hplanned (exec_planned (.inr hgroup)))
  | region => exact .inl (halone (exec_region_answersAlone hgroup))
  | contract => exact .inl (exec_contract_slotAnswer s hgroup).answers
  | taxonomy =>
    rcases exec_taxonomy_cases hgroup with h | ⟨which, tag, hrefused, hne, hunlisted⟩
    · exact .inl (halone h)
    · exact .inr ⟨which, tag, hrefused s rfl, hne, hunlisted⟩

theorem regValue_plain_eq {s s' : State} (hparams : s.params = s'.params) (hplain : s.params.store = .plain)
    (hmem : s.mem = s'.mem) : s.regValue = s'.regValue := by
  funext k
  rw [regValue_plain k hplain, regValue_plain k (hparams ▸ hplain), hmem]

theorem StorePlan.run_response (plan : StorePlan) (s s' : State) :
    responseOf (plan.run s) = responseOf (plan.run s') := by
  cases plan <;> rfl

theorem putReg_mem_congr {s s' : State} (k : Nat) (v : Reg) (hparams : s.params = s'.params)
    (hplain : s.params.store = .plain) (hmem : s.mem = s'.mem) : (s.putReg k v).mem = (s'.putReg k v).mem := by
  rw [putReg_mem_plain k v hplain, putReg_mem_plain k v (hparams ▸ hplain), hmem]

theorem StorePlan.run_mem (plan : StorePlan) {s s' : State} (hparams : s.params = s'.params)
    (hplain : s.params.store = .plain) (hmem : s.mem = s'.mem) :
    (nextState (plan.run s)).map State.mem = (nextState (plan.run s')).map State.mem := by
  cases plan with
  | answer | readAnswer => exact congrArg some hmem
  | write k v => exact congrArg some (putReg_mem_congr k v hparams hplain hmem)
  | readWrite k v =>
    exact congrArg some (putReg_mem_congr (s := s.noteRead k) (s' := s'.noteRead k) k v hparams hplain hmem)

/-- Settles O37: the same response, or the same refusal, in every state of the same parameters; with the same memory
too, the same plan. -/
theorem commandsHoldNoState : Obligations.CommandsHoldNoState := by
  intro i s s' hparams
  simp only [groupOf_eq_some_iff]
  have halone : AnswersAlone s.params (exec i) → responseOf (exec i s) = responseOf (exec i s') := by
    rintro ⟨r, hr⟩
    rw [hr s rfl, hr s' hparams.symm]
    rfl
  refine ⟨?_, fun hplain hmem hgroup => ?_⟩
  · rintro (⟨o, rfl⟩ | hgroup | hgroup)
    · exact halone (answersAlone_validateAlign _ o)
    · exact halone (exec_region_answersAlone hgroup)
    · rcases exec_taxonomy_cases hgroup with h | ⟨which, tag, hrefused, -⟩
      · exact halone h
      · rw [hrefused s rfl, hrefused s' hparams.symm]
  · obtain ⟨plan, hplan⟩ := exec_planned (p := s.params) (regs := s.regValue) hgroup
    rw [hplan s rfl rfl, hplan s' hparams.symm (regValue_plain_eq hparams hplain hmem).symm]
    exact ⟨plan.run_response s s', plan.run_mem hparams hplain hmem⟩

theorem done_putReg_plain {s : State} (k : Nat) (v : Reg) (hplain : s.params.store = .plain) :
    done (s.putReg k v) =
      .next { s with mem := s.mem.writeReg k v, trace := .write k v :: s.trace, resp := some okResponse } := by
  rw [done_putReg, putReg_mem_plain k v hplain]

/-- On the plain store no plan looks at the slots or touches them. -/
theorem StorePlan.run_slots {plan : StorePlan} {s t : State} (slots : List Slot) (rom : RomSlot)
    (hplain : s.params.store = .plain) (h : plan.run s = .next t) : t.slots = s.slots ∧ t.rom = s.rom ∧
      plan.run { s with slots := slots, rom := rom } = .next { t with slots := slots, rom := rom } := by
  cases plan with
  | answer | readAnswer =>
    obtain rfl := Host.Outcome.next.inj h
    exact ⟨rfl, rfl, rfl⟩
  | write k v =>
    have hrun := done_putReg_plain k v hplain
    obtain rfl := Host.Outcome.next.inj (h.symm.trans hrun)
    exact ⟨rfl, rfl, done_putReg_plain k v hplain⟩
  | readWrite k v =>
    have hrun := done_putReg_plain (s := s.noteRead k) k v hplain
    obtain rfl := Host.Outcome.next.inj (h.symm.trans hrun)
    exact ⟨rfl, rfl, done_putReg_plain (s := State.noteRead { s with slots := slots, rom := rom } k) k v hplain⟩

/-- Settles O48: outside the contracts the answer is fixed by parameters and memory, which the slot table is no part
of. -/
theorem slotTableIsTheContractsAlone : Obligations.SlotTableIsTheContractsAlone := by
  intro i s t slots rom hplain hnot h
  have hplanned : Planned s.params s.regValue (exec i) → t.slots = s.slots ∧ t.rom = s.rom ∧
      exec i { s with slots := slots, rom := rom } = .next { t with slots := slots, rom := rom } := by
    rintro ⟨plan, hplan⟩
    have hregs : State.regValue { s with slots := slots, rom := rom } = s.regValue := regValue_plain_eq rfl hplain rfl
    rw [hplan s rfl rfl] at h
    rw [hplan { s with slots := slots, rom := rom } rfl hregs]
    exact StorePlan.run_slots slots rom hplain h
  cases hgroup : tableGroup i.opcode with
  | codec => exact hplanned (exec_planned (.inl hgroup))
  | named => exact hplanned (exec_planned (.inr hgroup))
  | region => exact hplanned (exec_region_answersAlone hgroup).planned
  | contract => exact absurd (groupOf_eq_some_iff.2 hgroup) hnot
  | taxonomy =>
    rcases exec_taxonomy_cases hgroup with halone | ⟨which, tag, hrefused, -⟩
    · exact hplanned halone.planned
    · rw [hrefused s rfl] at h
      cases h

theorem done_putReg_resp (s : State) (r : Option Response) (k : Nat) (v : Reg) :
    done (State.putReg { s with resp := r } k v) = done (s.putReg k v) := by
  unfold State.putReg
  dsimp only
  split <;> rfl

theorem StorePlan.run_resp (plan : StorePlan) (s : State) (r : Option Response) :
    plan.run { s with resp := r } = plan.run s := by
  cases plan with
  | answer | readAnswer => rfl
  | write k v => exact done_putReg_resp s r k v
  | readWrite k v => exact done_putReg_resp (s.noteRead k) r k v

theorem done_place_resp (s : State) (r : Option Response) (k : Nat) (q : Region) (p : Bool) :
    done (State.place { s with resp := r } k q p) = done (s.place k q p) := by
  unfold State.place
  split <;> rfl

theorem exec_contract_resp {i : Instr} (s : State) (r : Option Response) (h : tableGroup i.opcode = .contract) :
    exec i { s with resp := r } = exec i s := by
  cases i
  case addBar index q p =>
    show execAddBar index q p _ = execAddBar index q p s
    unfold execAddBar addBarReference addBarDevice
    simp only [done_place_resp]
    rfl
  case addRomBar | barAddress | romBarAddress => rfl
  all_goals cases h

/-- Settles O50: no plan reads the response ports, and every answer is written over them. -/
theorem nothingPersistsIntoTheNextCommand : Obligations.NothingPersistsIntoTheNextCommand := by
  intro i s r
  have hplanned : Planned s.params s.regValue (exec i) → exec i { s with resp := r } = exec i s := by
    rintro ⟨plan, hplan⟩
    rw [hplan s rfl rfl, hplan { s with resp := r } rfl rfl]
    exact plan.run_resp s r
  cases hgroup : tableGroup i.opcode with
  | codec => exact hplanned (exec_planned (.inl hgroup))
  | named => exact hplanned (exec_planned (.inr hgroup))
  | region => exact hplanned (exec_region_answersAlone hgroup).planned
  | contract => exact exec_contract_resp s r hgroup
  | taxonomy =>
    rcases exec_taxonomy_cases hgroup with halone | ⟨which, tag, hrefused, -⟩
    · exact hplanned halone.planned
    · rw [hrefused s rfl, hrefused { s with resp := r } rfl]

end Sys2Proof.Machine
end

section
/-! SUPPORT. The plain store as an array (10_state.md R22), the widths of an access side by side (20_memory.md R41), and
what a write leaves to the next read (41_codec.md R110, R117, R124; 42_named_fields.md R130). -/

namespace Sys2Proof.Machine

/-- R22: a write replaces the whole register and no other. -/
theorem putReg_regValue {s : State} (i j : Nat) (v : Reg) (hplain : s.params.store = .plain) (hwf : s.mem.wf = true) :
    (s.putReg i v).regValue j = if j = i then v else s.regValue j := by
  rw [regValue_plain j (by rw [putReg_params, hplain]), regValue_plain j hplain, putReg_mem_plain i v hplain]
  split
  · next hj => rw [hj, Mem.readReg_writeReg_same i v hwf]
  · next hj => rw [Mem.readReg_writeReg_other _ v hj]

theorem noteRead_regValue {s : State} (i j : Nat) (hplain : s.params.store = .plain) :
    (s.noteRead i).regValue j = s.regValue j := by
  rw [regValue_plain (s := s.noteRead i) j hplain, regValue_plain j hplain, noteRead_mem]

/-- Settles O17: the store's own check of the range is all that stands between the block and the array. -/
theorem plainStoreIsAnArrayOfRegisters : Obligations.PlainStoreIsAnArrayOfRegisters := by
  intro s i j v hplain hwf
  exact ⟨fun hin => ⟨storeRead_inside hin, noteRead_regValue i j hplain, storeWrite_inside v hin,
      putReg_regValue i j v hplain hwf⟩,
    fun hout => ⟨storeRead_outside hout, storeWrite_outside v hout⟩⟩

theorem responseOf_readDword {o : Wide} {s : State} (ha : o.toNat % 4 = 0) (h : registerOf o < s.params.cfgRegs) :
    responseOf (exec (.readDword o) s) = some (dataResponse (s.regValue (registerOf o))) := by
  show responseOf (execReadDword o s) = _
  rw [readDword_inside ha h]
  rfl

/-- The four offsets of an aligned register are its lanes, and none of them wraps. -/
theorem registerOf_lane {o : Wide} (ha : o.toNat % 4 = 0) {k : Nat} (hk : k < 4) :
    registerOf (o + BitVec.ofNat 64 k) = registerOf o ∧ byteIdx (o + BitVec.ofNat 64 k) = k := by
  have hlt := o.isLt
  have hsum : (o + BitVec.ofNat 64 k).toNat = o.toNat + k := by
    rw [BitVec.toNat_add, BitVec.toNat_ofNat]
    omega
  unfold registerOf byteIdx
  rw [hsum]
  omega

section
variable {o : Wide} {s : State} (ha : o.toNat % 4 = 0) (h : registerOf o < s.params.cfgRegs) {k : Nat}
include ha h

theorem responseOf_readByte_lane (hk : k < 4) : responseOf (exec (.readByte (o + BitVec.ofNat 64 k)) s) =
    some (dataResponse ((extract8 (s.regValue (registerOf o)) k).setWidth 32)) := by
  obtain ⟨hreg, hidx⟩ := registerOf_lane ha hk
  rw [responseOf_readByte (hreg ▸ h), hreg, hidx]

theorem responseOf_readWord_half (hk : k = 0 ∨ k = 2) : responseOf (exec (.readWord (o + BitVec.ofNat 64 k)) s) =
    some (dataResponse ((extract16 (s.regValue (registerOf o)) k).setWidth 32)) := by
  obtain ⟨hreg, hidx⟩ := registerOf_lane ha (show k < 4 by omega)
  have heven : (o + BitVec.ofNat 64 k).toNat % 2 = 0 := by
    rw [registerOf_byteIdx, hidx]
    omega
  rw [responseOf_readWord heven (hreg ▸ h), hreg, hidx]

end

/-- Settles O18: the dword is the register, its halves and lanes are what the narrower reads answer. -/
theorem mixedWidthViewsAgree : Obligations.MixedWidthViewsAgree := by
  intro s o _ ha hin
  have hword0 := responseOf_readWord_half ha hin (.inl rfl)
  have hbyte0 := responseOf_readByte_lane ha hin (show 0 < 4 by decide)
  rw [BitVec.add_zero] at hword0 hbyte0
  refine ⟨_, _, _, _, _, _, _, responseOf_readDword ha hin, hword0, responseOf_readWord_half ha hin (.inr rfl), hbyte0,
    responseOf_readByte_lane ha hin (by decide), responseOf_readByte_lane ha hin (by decide),
    responseOf_readByte_lane ha hin (by decide), ?_⟩
  have hlow : _ = _ + 256 * (extract8 (s.regValue (registerOf o)) 1).toNat := extract16_toNat_lanes _ 0
  have hhigh : _ = _ + 256 * (extract8 (s.regValue (registerOf o)) 3).toNat := extract16_toNat_lanes _ 2
  have hdlow := extract16_low_toNat (s.regValue (registerOf o))
  have hdhigh := extract16_high_toNat (s.regValue (registerOf o))
  have hlane := fun k => (extract8 (s.regValue (registerOf o)) k).isLt
  simp only [dataPort_toNat (show 8 ≤ 32 by decide), dataPort_toNat (show 16 ≤ 32 by decide)]
  exact ⟨by omega, by omega, by omega, hlane 0, hlane 1, hlane 2, hlane 3⟩

/-- The same device with another word check order (R110). -/
def State.withOrder (s : State) (order : WordCheckOrder) : State :=
  { s with params := { s.params with wordOrder := order } }

theorem withOrder_putReg (s : State) (order : WordCheckOrder) (k : Nat) (v : Reg) :
    (s.withOrder order).putReg k v = (s.putReg k v).withOrder order := by
  unfold State.putReg State.withOrder
  dsimp only
  split <;> rfl

/-- Settles O28: an aligned word access has one outcome inside the store and one outside it, neither of which looks at
the order. -/
theorem wordCheckOrderShowsOnlyWhenMisaligned : Obligations.WordCheckOrderShowsOnlyWhenMisaligned := by
  intro s t o w i heven hi h
  have ha := wordMisaligned_of_even heven
  rcases Nat.lt_or_ge (registerOf o) s.params.cfgRegs with hin | hout
  · rcases hi with rfl | rfl
    · have hrun := fun order => wordRead_inside (s := s.withOrder order) ha hin
      obtain rfl := Host.Outcome.next.inj (h.symm.trans (hrun .alignFirst))
      exact hrun .readFirst
    · have hrun := fun order => (wordWrite_inside (s := s.withOrder order) w ha hin).trans
        (congrArg done (withOrder_putReg (s.noteRead (registerOf o)) order _ _))
      obtain rfl := Host.Outcome.next.inj (h.symm.trans (hrun .alignFirst))
      exact hrun .readFirst
  · rcases hi with rfl | rfl
    · have hrun := fun order => wordRead_outside (s := s.withOrder order) ha hout
      obtain rfl := Host.Outcome.next.inj (h.symm.trans (hrun .alignFirst))
      exact hrun .readFirst
    · have hrun := fun order => wordWrite_outside (s := s.withOrder order) w ha hout
      obtain rfl := Host.Outcome.next.inj (h.symm.trans (hrun .alignFirst))
      exact hrun .readFirst

/-- R117: how a word or byte write at `o` ends: an error before any access, an error after its read, or its read and
then its write. -/
inductive SubWordWrite (o : Wide) (s : State) : Result → Prop
  | raised (c : Cause) : SubWordWrite o s (raise c s)
  | raisedAfterRead (c : Cause) : SubWordWrite o s (raise c (s.noteRead (registerOf o)))
  | written (v : Reg) : SubWordWrite o s (done ((s.noteRead (registerOf o)).putReg (registerOf o) v))

theorem wordWrite_subWordWrite (o : Wide) (w : Half) (s : State) : SubWordWrite o s (wordWrite o w s) := by
  cases ha : wordMisaligned o with
  | false =>
    rcases Nat.lt_or_ge (registerOf o) s.params.cfgRegs with hin | hout
    · rw [wordWrite_inside w ha hin]; exact .written _
    · rw [wordWrite_outside w ha hout]; exact .raised _
  | true =>
    cases horder : s.params.wordOrder with
    | alignFirst => rw [wordWrite_misaligned_alignFirst w horder ha]; exact .raised _
    | readFirst =>
      rcases Nat.lt_or_ge (registerOf o) s.params.cfgRegs with hin | hout
      · rw [wordWrite_misaligned_readFirst w horder ha hin]; exact .raisedAfterRead _
      · rw [wordWrite_outside_readFirst w horder hout]; exact .raised _

theorem byteWrite_subWordWrite (o : Wide) (b : Byte) (s : State) : SubWordWrite o s (byteWrite o b s) := by
  rcases Nat.lt_or_ge (registerOf o) s.params.cfgRegs with hin | hout
  · rw [byteWrite_inside b hin]; exact .written _
  · rw [byteWrite_outside b hout]; exact .raised _

theorem raise_status_ne_ok (c : Cause) (s : State) :
    (s.respond (errorResponse c)).resp.map Response.status ≠ some .ok :=
  fun h => errorResponse_status c (Option.some.inj h)

theorem SubWordWrite.neverPartial {o : Wide} {s t : State} {res : Result} (h : SubWordWrite o s res)
    (ht : res = .next t) :
    (t.resp.map Response.status ≠ some .ok →
      t.mem = s.mem ∧ (t.trace = s.trace ∨ t.trace = .read (registerOf o) :: s.trace)) ∧
    (t.resp.map Response.status = some .ok →
      ∃ v, t.trace = .write (registerOf o) v :: .read (registerOf o) :: s.trace) := by
  cases h with
  | raised c =>
    obtain rfl := Host.Outcome.next.inj ht
    exact ⟨fun _ => ⟨rfl, .inl rfl⟩, fun hok => absurd hok (raise_status_ne_ok c _)⟩
  | raisedAfterRead c =>
    obtain rfl := Host.Outcome.next.inj ht
    exact ⟨fun _ => ⟨rfl, .inr rfl⟩, fun hok => absurd hok (raise_status_ne_ok c _)⟩
  | written v =>
    obtain rfl := Host.Outcome.next.inj ht
    exact ⟨fun hne => absurd rfl hne, fun _ => ⟨v, by simp⟩⟩

/-- Where the read of a register has succeeded the register is inside the store, which the read has not changed. -/
theorem storeWrite_isSome_of_storeRead {k : Nat} {s t : State} {v : Reg} (w : Reg)
    (h : storeRead k s = some (v, t)) : (storeWrite k w t).isSome := by
  rcases Nat.lt_or_ge k s.params.cfgRegs with hin | hout
  · rw [storeRead_inside hin] at h
    cases h
    rw [storeWrite_inside (s := s.noteRead k) w hin]
    rfl
  · rw [storeRead_outside hout] at h
    cases h

/-- Settles O29: by the three ways such a write can end. -/
theorem subWordWritesAreNeverPartial : Obligations.SubWordWritesAreNeverPartial := by
  refine ⟨fun i s t o hi h => ?_, fun k s t v w => storeWrite_isSome_of_storeRead w⟩
  rcases hi with ⟨w, rfl⟩ | ⟨b, rfl⟩
  · exact (wordWrite_subWordWrite o w s).neverPartial h
  · exact (byteWrite_subWordWrite o b s).neverPartial h

/-- The register just written, whatever response was then given. -/
theorem regValue_after_write {s : State} (k : Nat) (v : Reg) (r : Response) (hplain : s.params.store = .plain)
    (hwf : s.mem.wf = true) : ((s.putReg k v).respond r).regValue k = v :=
  (putReg_regValue k k v hplain hwf).trans (if_pos rfl)

theorem putReg_respond_cfgRegs (s : State) (k : Nat) (v : Reg) (r : Response) :
    ((s.putReg k v).respond r).params.cfgRegs = s.params.cfgRegs := by
  rw [respond_params, putReg_params]

/-- Settles O30: the register written reads as the value, the half or lane replaced in it as the word or byte. -/
theorem writtenValuesReadBack : Obligations.WrittenValuesReadBack := by
  intro s o v w b hplain hwf hin
  have hin' : ∀ (s' : State) x r, s'.params = s.params →
      registerOf o < ((s'.putReg (registerOf o) x).respond r).params.cfgRegs := by
    intro s' x r hs'
    rw [putReg_respond_cfgRegs, hs']
    exact hin
  refine ⟨fun ha => ⟨_, writeDword_inside v ha hin, ?_⟩,
    fun heven => ⟨_, wordWrite_inside w (wordMisaligned_of_even heven) hin, ?_⟩, ⟨_, byteWrite_inside b hin, ?_⟩⟩
  · rw [responseOf_readDword ha (hin' s _ _ rfl), regValue_after_write _ _ _ hplain hwf]
    rfl
  · have hidx := (wordAligned_iff o).1 (wordMisaligned_of_even heven)
    rw [responseOf_readWord heven (hin' (s.noteRead _) _ _ rfl),
      regValue_after_write (s := s.noteRead _) _ _ _ hplain hwf, extract16_insert16 _ _ w hidx]
    rfl
  · have hidx := byteIdx_lt o
    rw [responseOf_readByte (hin' (s.noteRead _) _ _ rfl),
      regValue_after_write (s := s.noteRead _) _ _ _ hplain hwf, extract8_insert8 _ _ _ b hidx hidx, if_pos rfl]
    rfl

theorem regValue_device {s : State} {readEffects : Bool} (i : Nat) (h : s.params.store = .device readEffects) :
    s.regValue i = if s.initStands readEffects = true then s.mem.readReg i else Config.deviceRead s.view i := by
  split
  · next hi => exact regValue_init i h hi
  · next hi => exact regValue_free i h (Bool.eq_false_iff.2 hi)

/-- Settles O31: by O27 the other lanes are written as the register reads. -/
theorem deviceStoreGetsTheOtherLanesAsRead : Obligations.DeviceStoreGetsTheOtherLanesAsRead := by
  intro s o b readEffects hdevice hin
  obtain ⟨-, hwrites, -⟩ := writeByteReplacesTheLane s o b
  obtain ⟨m, merged, hrun, hlanes, -⟩ := hwrites hin
  refine ⟨_, merged, hrun, rfl, fun k hk hne => ?_⟩
  rw [hlanes k hk, if_neg hne, regValue_device _ hdevice]

theorem AnswersField.answersOk {s : State} {i : Instr} {reg lo width : Nat} (h : AnswersField s i reg lo width) :
    ∃ t, exec i s = .next t ∧ t.resp.map Response.status = some .ok := by
  obtain ⟨v, hrun, -⟩ := h
  exact ⟨_, hrun, rfl⟩

/-- Settles O32: each named read is by definition the primitive one, at an offset inside every store. -/
theorem namedReadsAreThePrimitiveReads : Obligations.NamedReadsAreThePrimitiveReads := by
  intro s
  have hword := fun (o : Wide) heven hin => (readWord_answersField s o heven hin).answersOk
  have hbyte := fun (o : Wide) hin => (readByte_answersField s o hin).answersOk
  simp only [List.forall_mem_cons]
  exact ⟨⟨rfl, hword 0x00#64 (by decide) (by decide)⟩, ⟨rfl, hword 0x02#64 (by decide) (by decide)⟩,
    ⟨rfl, hword 0x04#64 (by decide) (by decide)⟩, ⟨rfl, hword 0x06#64 (by decide) (by decide)⟩,
    ⟨rfl, hbyte 0x08#64 (by decide)⟩, ⟨rfl, hbyte 0x09#64 (by decide)⟩, ⟨rfl, hbyte 0x0A#64 (by decide)⟩,
    ⟨rfl, hbyte 0x0B#64 (by decide)⟩, ⟨rfl, hbyte 0x0C#64 (by decide)⟩, ⟨rfl, hbyte 0x0D#64 (by decide)⟩,
    ⟨rfl, hbyte 0x0E#64 (by decide)⟩, ⟨rfl, hbyte 0x0F#64 (by decide)⟩, by simp⟩

end Sys2Proof.Machine
end

section
/-! SUPPORT. The taxonomy commands over their tables (44_taxonomy.md R170 to R187). -/

namespace Sys2Proof.Machine

/-- R170: decode over any table. -/
theorem answerFrom_laws (t : Taxonomy) (b : Byte) (s : State) :
    (b ∈ t.codes → answerFrom t b s = .next (s.respond (dataResponse (b.setWidth 32)))) ∧
    (b ∉ t.codes → answerFrom t b s = .next (s.respond (dataResponse 0xFF#32))) :=
  ⟨answerFrom_known s, answerFrom_unknown s⟩

/-- Settles O38: the four commands are `answerFrom` over their tables. -/
theorem fromFollowsTheTable : Obligations.FromFollowsTheTable := fun s b =>
  ⟨answerFrom_laws _ b s, answerFrom_laws _ b s, answerFrom_laws _ b s, answerFrom_laws _ b s⟩

theorem otherValue_of_some {which : TaxonomyId} {t : Taxonomy} {b : Byte} (h : t.other = some b) :
    otherValue which t = b := by
  unfold otherValue
  rw [h]

/-- R170, R171: encode over any table. -/
theorem answerValue_laws (which : TaxonomyId) (t : Taxonomy) (tag : Byte) (s : State) :
    (tag ≠ 0xFF#8 → tag ∈ t.codes →
      answerValue which t tag s = .next (s.respond (dataResponse (tag.setWidth 32)))) ∧
    (tag = 0xFF#8 → ∃ v : Byte, answerValue which t tag s = .next (s.respond (dataResponse (v.setWidth 32))) ∧
      (∀ b, t.other = some b → v = b) ∧ (Taxonomy.wf t → v ∉ t.codes)) ∧
    (tag ≠ 0xFF#8 → tag ∉ t.codes → answerValue which t tag s = .refused (.noSuchMember which tag)) := by
  refine ⟨answerValue_known which s, ?_, answerValue_unknown which s⟩
  rintro rfl
  exact ⟨otherValue which t, answerValue_other which t s, fun b => otherValue_of_some, otherValue_not_mem⟩

/-- Settles O39: the four commands are `answerValue` over their tables. -/
theorem valueFollowsTheTable : Obligations.ValueFollowsTheTable := fun s tag =>
  ⟨answerValue_laws _ _ tag s, answerValue_laws _ _ tag s, answerValue_laws _ _ tag s, answerValue_laws _ _ tag s⟩

/-- R185 over one allowed table: the member a byte decodes to is the byte's own or the other one. -/
theorem taxonomy_laws (which : TaxonomyId) {t : Taxonomy} (hwf : Taxonomy.wf t) (b : Byte) (s : State) :
    ∃ other tag v : Byte, other ∉ t.codes ∧
      answerValue which t otherTag s = returnData (other.setWidth 32) s ∧
      answerFrom t other s = returnData 0xFF#32 s ∧
      answerFrom t b s = returnData (tag.setWidth 32) s ∧
      answerValue which t tag s = returnData (v.setWidth 32) s ∧
      (v = b ↔ b ∈ t.codes ∨ b = other) ∧ (b ∈ t.codes → tag = b) ∧ (b ∉ t.codes → tag = 0xFF#8 ∧ v = other) := by
  have hother : otherValue which t ∉ t.codes := otherValue_not_mem hwf
  have hvalue := answerValue_other which t s
  by_cases hb : b ∈ t.codes
  · have htag : b ≠ otherTag := fun h => hwf.1 (h ▸ hb)
    exact ⟨_, b, b, hother, hvalue, answerFrom_unknown s hother, answerFrom_known s hb,
      answerValue_known which s htag hb, iff_of_true rfl (.inl hb), fun _ => rfl, fun hnot => absurd hb hnot⟩
  · refine ⟨_, otherTag, otherValue which t, hother, hvalue, answerFrom_unknown s hother, answerFrom_unknown s hb,
      hvalue, ?_, fun hmem => absurd hmem hb, fun _ => ⟨rfl, rfl⟩⟩
    simp [hb, eq_comm]

/-- Settles O41: the laws of one table, for each of the four. -/
theorem taxonomyLaws : Obligations.TaxonomyLaws := by
  intro s b hwf
  obtain ⟨hclass, hbridge, hcapid, hhdrtype⟩ := hwf
  exact ⟨taxonomy_laws .classCode hclass b s, taxonomy_laws .bridgeSubclass hbridge b s,
    taxonomy_laws .capabilityId hcapid b s, taxonomy_laws .headerType hhdrtype b s⟩

theorem mem_defaultClassTable_iff : ∀ b : Byte, b ∈ defaultClassTable.codes ↔ b.toNat ≤ 0x13 := by decide

theorem mem_defaultBridgeTable_iff :
    ∀ b : Byte, b ∈ defaultBridgeTable.codes ↔ b.toNat = 0 ∨ b.toNat = 1 ∨ b.toNat = 4 := by decide

theorem mem_defaultCapidTable_iff : ∀ b : Byte, b ∈ defaultCapidTable.codes ↔ b.toNat ≤ 0x14 := by decide

theorem mem_defaultHdrtypeTable_iff : ∀ b : Byte, b ∈ defaultHdrtypeTable.codes ↔ b.toNat ≤ 0x02 := by decide

/-- What a `*_FROM` command answers over a table that knows exactly the bytes of `known`. -/
theorem responseOf_answerFrom {t u : Taxonomy} {b : Byte} {known : Prop} (s : State) (htable : t = u)
    (hknown : b ∈ u.codes ↔ known) :
    (known → responseOf (answerFrom t b s) = some (dataResponse (b.setWidth 32))) ∧
    (¬ known → responseOf (answerFrom t b s) = some (dataResponse 0xFF#32)) := by
  rw [← hknown, ← htable]
  obtain ⟨hmem, hnot⟩ := answerFrom_laws t b s
  exact ⟨fun h => by rw [hmem h]; rfl, fun h => by rw [hnot h]; rfl⟩

/-- What a `*_VALUE` command answers to the other tag, over a table that gives the other member's value. -/
theorem responseOf_answerValue_other {which : TaxonomyId} {t u : Taxonomy} {v : Byte} (s : State) (htable : t = u)
    (hother : u.other = some v) :
    responseOf (answerValue which t 0xFF#8 s) = some (dataResponse (v.setWidth 32)) := by
  rw [← otherValue_of_some (which := which) hother, ← htable]
  rfl

/-- Settles O42: by the members of each table. -/
theorem defaultTablesDecode : Obligations.DefaultTablesDecode := by
  intro s b hclass hbridge hcapid hhdrtype
  exact ⟨responseOf_answerFrom s hclass (mem_defaultClassTable_iff b),
    responseOf_answerFrom s hbridge (mem_defaultBridgeTable_iff b),
    responseOf_answerFrom s hcapid (mem_defaultCapidTable_iff b),
    responseOf_answerFrom s hhdrtype (mem_defaultHdrtypeTable_iff b),
    responseOf_answerValue_other s hclass rfl, responseOf_answerValue_other s hbridge rfl⟩

end Sys2Proof.Machine
end

section
/-! SUPPORT. The regions a command can carry and those the constructors return (43_bar_region.md R150, R159), and the
statuses and layers of each command's errors (60_exceptions.md R220, R221). -/

namespace Sys2Proof.Machine

/-- R150: a constructor answers with a region exactly where its two checks hold, and then with its operands. -/
theorem construct_rregion_iff {w : Nat} (f : BitVec w → BitVec w → Region) (a l : BitVec w) (s : State)
    (p : RegionPort) : (responseOf (construct f a l s)).bind Response.rregion = some p ↔
      operandsConstructible a l = true ∧ regionPort (f a l) = p := by
  rw [operandsConstructible_iff]
  rcases Nat.lt_or_ge (a.toNat + l.toNat) (2 ^ w) with hfits | hover
  · by_cases ha : a.toNat % 4 = 0
    · rw [construct_ok f s hfits ha]
      simp [hfits, ha, returnRegion, responseOf, nextState, regionResponse]
    · rw [construct_misaligned f s hfits ha]
      simp [ha, raise, responseOf, nextState, errorResponse]
  · rw [construct_overflow f s hover]
    simp [Nat.not_lt.2 hover, raise, responseOf, nextState, errorResponse]

/-- Settles O8: the two checks of the constructor of a kind are what R66 asks of an operand of that kind. -/
theorem regionOperandsAreWhatConstructorsReturn : Obligations.RegionOperandsAreWhatConstructorsReturn := by
  intro p s
  constructor
  · rintro ⟨r, hr⟩
    obtain ⟨rfl, hc⟩ := regionOperand_ok_iff.1 hr
    cases r with
    | io a l => exact ⟨.newIoRegion a l, .inl ⟨a, l, rfl⟩, (construct_rregion_iff _ a l s _).2 ⟨hc, rfl⟩⟩
    | memory32 a l =>
      exact ⟨.newMem32Region a l, .inr (.inl ⟨a, l, rfl⟩), (construct_rregion_iff _ a l s _).2 ⟨hc, rfl⟩⟩
    | memory64 a l =>
      exact ⟨.newMem64Region a l, .inr (.inr ⟨a, l, rfl⟩), (construct_rregion_iff _ a l s _).2 ⟨hc, rfl⟩⟩
  · rintro ⟨i, ⟨a, l, rfl⟩ | ⟨a, l, rfl⟩ | ⟨a, l, rfl⟩, hanswer⟩
    · obtain ⟨hc, rfl⟩ := (construct_rregion_iff Region.io a l s p).1 hanswer
      exact ⟨.io a l, regionOperand_regionPort hc⟩
    · obtain ⟨hc, rfl⟩ := (construct_rregion_iff Region.memory32 a l s p).1 hanswer
      exact ⟨.memory32 a l, regionOperand_regionPort hc⟩
    · obtain ⟨hc, rfl⟩ := (construct_rregion_iff Region.memory64 a l s p).1 hanswer
      exact ⟨.memory64 a l, regionOperand_regionPort hc⟩

theorem errorResponse_status_eq (c : Cause) : (errorResponse c).status = causeStatus c := by cases c <;> rfl

/-- Settles O53: a success answers OK, an error the status of a cause the command raises. -/
theorem statusesOfEachCommand : Obligations.StatusesOfEachCommand := by
  refine ⟨rfl, fun i s t r himpl h hr => ?_⟩
  rcases exec_answer h hr with ⟨c, rfl, hraises⟩ | hreturns
  · have hc := hraises himpl
    rw [errorResponse_status_eq]
    cases i
    case newIoRegion | newMem32Region | newMem64Region =>
      rcases hc with rfl | ⟨a, l, rfl⟩
      · simp [causeStatus]
      · simp [causeStatus]
    case addBar | barAddress =>
      rcases hc with rfl | rfl | rfl
      · simp [causeStatus]
      · simp [causeStatus]
      · simp [causeStatus]
    case readDword | writeDword | readWord | writeWord =>
      rcases hc with rfl | rfl
      · simp [causeStatus]
      · simp [causeStatus]
    case regionEq | classFrom | classValue | bridgeSubclassFrom | bridgeSubclassValue | capidFrom | capidValue
        | hdrtypeFrom | hdrtypeValue =>
      exact hc.elim
    all_goals
      obtain rfl := hc
      simp [causeStatus]
  · have hok := hreturns.status_eq_ok
    cases i <;> simp [hok]

/-- The cause at the bottom of a wrapped error. -/
def AccessError.cause : AccessError → Cause
  | .unalignedAccess => .unalignedAccess
  | .offsetOutOfBounds => .offsetOutOfBounds

def RegionError.cause : RegionError → Cause
  | .addressInvalid a l => .addressInvalid a l
  | .access e => e.cause

def DeviceError.cause : DeviceError → Cause
  | .barIndex => .barIndex
  | .barInUse => .barInUse
  | .barInUse64 => .barInUse64
  | .barInvalid => .barInvalid
  | .barInvalid64 => .barInvalid64
  | .romBarInUse => .romBarInUse
  | .romBarInvalid => .romBarInvalid
  | .region e => e.cause
  | .access e => e.cause

def LayerError.cause : LayerError → Cause
  | .access e => e.cause
  | .region e => e.cause
  | .device e => e.cause

theorem accessError_cause {c : Cause} {e : AccessError} (h : accessError c = some e) : e.cause = c := by
  cases c <;> cases h <;> rfl

theorem regionError_cause {c : Cause} {e : RegionError} (h : regionError c = some e) : e.cause = c := by
  cases c <;> cases h <;> rfl

theorem deviceError_cause {c : Cause} {e : DeviceError} (h : deviceError c = some e) : e.cause = c := by
  cases c <;> cases h <;> rfl

/-- R221: wrapping loses nothing. -/
theorem layerError_cause {g : Group} {c : Cause} {e : LayerError} (h : layerError g c = some e) : e.cause = c := by
  cases g with
  | codec | named =>
    obtain ⟨x, hx, rfl⟩ := Option.map_eq_some_iff.1 h
    exact accessError_cause hx
  | region =>
    obtain ⟨x, hx, rfl⟩ := Option.map_eq_some_iff.1 h
    exact regionError_cause hx
  | taxonomy => cases h
  | contract =>
    obtain ⟨x, hx, rfl⟩ := Option.map_eq_some_iff.1 h
    exact deviceError_cause hx

/-- The layer that answers for a group, with no lower error wrapped at the device layer. -/
def AnswersAtLayer (g : Group) (e : LayerError) : Prop :=
  (g = .codec ∨ g = .named) ∧ (∃ x, e = .access x) ∨ g = .region ∧ (∃ x, e = .region x) ∨
    g = .contract ∧ ∃ x, e = .device x ∧ (∀ y, x ≠ .region y) ∧ ∀ y, x ≠ .access y

theorem answersAtLayer_access {g : Group} {c : Cause} (hg : g = .codec ∨ g = .named)
    (hc : c = .unalignedAccess ∨ c = .offsetOutOfBounds) : ∃ e, layerError g c = some e ∧ AnswersAtLayer g e := by
  rcases hg with rfl | rfl <;> rcases hc with rfl | rfl
  all_goals exact ⟨_, rfl, .inl ⟨by simp, _, rfl⟩⟩

/-- R220, R221: each cause a command can raise is an error of its group's layer. -/
theorem Raises.layer {i : Instr} {c : Cause} (h : Raises i c) :
    ∃ e, layerError (tableGroup i.opcode) c = some e ∧ AnswersAtLayer (tableGroup i.opcode) e := by
  cases i
  case validateAlign => exact answersAtLayer_access (.inl rfl) (.inl h)
  case readDword | writeDword | readWord | writeWord => exact answersAtLayer_access (.inl rfl) h
  case readByte | writeByte => exact answersAtLayer_access (.inl rfl) (.inr h)
  case readVendorId | readDeviceId | readCommand | readStatus | readRevisionId | readProgIf | readSubclass
      | readClassCode | readCacheLineSize | readLatencyTimer | readHeaderType | readBist =>
    exact answersAtLayer_access (.inr rfl) (.inr h)
  case newIoRegion | newMem32Region | newMem64Region =>
    rcases h with rfl | ⟨a, l, rfl⟩
    · exact ⟨_, rfl, .inr (.inl ⟨rfl, _, rfl⟩)⟩
    · exact ⟨_, rfl, .inr (.inl ⟨rfl, _, rfl⟩)⟩
  case addBar | barAddress =>
    rcases h with rfl | rfl | rfl
    · exact ⟨_, rfl, .inr (.inr ⟨rfl, _, rfl, nofun, nofun⟩)⟩
    · exact ⟨_, rfl, .inr (.inr ⟨rfl, _, rfl, nofun, nofun⟩)⟩
    · exact ⟨_, rfl, .inr (.inr ⟨rfl, _, rfl, nofun, nofun⟩)⟩
  case addRomBar | romBarAddress =>
    obtain rfl := h
    exact ⟨_, rfl, .inr (.inr ⟨rfl, _, rfl, nofun, nofun⟩)⟩
  all_goals exact h.elim

theorem layered_errorResponse (o : Opcode) (c : Cause) :
    (errorResponse c).layered o = layerError (tableGroup o) c := by
  unfold Response.layered
  rw [groupOf_eq, errorResponse_cause]

/-- Settles O54: the causes of a command are errors of its group's layer, and the wrapped error keeps its cause. -/
theorem wrappedErrorIsFixedByTheGroup : Obligations.WrappedErrorIsFixedByTheGroup := by
  refine ⟨fun i s t r himpl h hr hne => ?_, fun g c d e hc hd => (layerError_cause hc).symm.trans (layerError_cause hd)⟩
  rcases exec_answer h hr with ⟨c, rfl, hraises⟩ | hreturns
  · obtain ⟨e, he, hlayer⟩ := (hraises himpl).layer
    exact ⟨tableGroup i.opcode, e, groupOf_eq _, (layered_errorResponse _ c).trans he, hlayer⟩
  · exact absurd hreturns.status_eq_ok hne

end Sys2Proof.Machine
end

section
/-! SUPPORT. What R190 asks of every implementation of the BAR contracts (45_bar_contracts.md, items 2 to 7). -/

namespace Sys2Proof.Machine

/-- R190 item 4: the two errors of a held slot. -/
def InUseStatus (e : Status) : Prop := e = .barInUse ∨ e = .barInUse64

/-- R190 item 5: the two errors of a slot that holds no BAR. -/
def InvalidStatus (e : Status) : Prop := e = .barInvalid ∨ e = .barInvalid64

theorem occupiedError_inUse {v : Slot} (h : v ≠ .empty) :
    ∃ c, occupiedError v = some c ∧ InUseStatus (causeStatus c) := by
  cases v with
  | empty => exact absurd rfl h
  | upper64 owner => exact ⟨.barInUse64, rfl, .inr rfl⟩
  | bar q f =>
    cases hq : isMemory64 q with
    | false => exact ⟨.barInUse, occupiedError_bar f hq, .inl rfl⟩
    | true => exact ⟨.barInUse64, occupiedError_bar64 f hq, .inr rfl⟩

theorem raise_eq_of_causeStatus {c : Cause} (s : State)
    (h : InUseStatus (causeStatus c) ∨ InvalidStatus (causeStatus c)) :
    raise c s = .next (s.respond { status := causeStatus c }) := by
  cases c
  case addressInvalid => simp [InUseStatus, InvalidStatus, causeStatus] at h
  all_goals rfl

section
variable {s : State} {index : BitVec 32}

theorem exec_addBar_outside (r : Region) (p : Bool) (hout : s.params.barSlots ≤ index.toNat) :
    exec (.addBar index r p) s = raise .barIndex s := by
  show execAddBar index r p s = _
  unfold execAddBar
  split
  · exact addBarReference_outside r p hout
  · exact if_pos hout

theorem exec_barAddress_outside (hout : s.params.barSlots ≤ index.toNat) :
    exec (.barAddress index) s = raise .barIndex s := by
  show execBarAddress index s = _
  unfold execBarAddress
  split
  · exact barAddressReference_outside hout
  · exact if_pos hout

theorem addBarDevice_held {k : Nat} (r : Region) (p : Bool) (hk : k < s.params.barSlots) (h : s.slotAt k ≠ .empty) :
    ∃ c, InUseStatus (causeStatus c) ∧ addBarDevice k r p s = raise c s := by
  simp only [addBarDevice]
  rw [if_neg (Nat.not_le.2 hk), if_pos h]
  split
  · exact ⟨.barInUse64, .inr rfl, rfl⟩
  · exact ⟨.barInUse, .inl rfl, rfl⟩

theorem exec_addBar_held (r : Region) (p : Bool) (hk : index.toNat < s.params.barSlots)
    (h : s.slotAt index.toNat ≠ .empty) :
    ∃ e, InUseStatus e ∧ exec (.addBar index r p) s = .next (s.respond { status := e }) := by
  suffices hraise : ∃ c, InUseStatus (causeStatus c) ∧ execAddBar index r p s = raise c s by
    obtain ⟨c, hc, hrun⟩ := hraise
    exact ⟨causeStatus c, hc, hrun.trans (raise_eq_of_causeStatus s (.inl hc))⟩
  unfold execAddBar
  split
  · obtain ⟨c, hoccupied, hc⟩ := occupiedError_inUse h
    exact ⟨c, hc, addBarReference_held r p hk hoccupied⟩
  · exact addBarDevice_held r p hk h

theorem barAddressDevice_empty {k : Nat} (hk : k < s.params.barSlots) (h : s.slotAt k = .empty) :
    ∃ c, InvalidStatus (causeStatus c) ∧ barAddressDevice k s = raise c s := by
  simp only [barAddressDevice]
  rw [if_neg (Nat.not_le.2 hk), h]
  dsimp only
  split
  · exact ⟨.barInvalid64, .inr rfl, rfl⟩
  · exact ⟨.barInvalid, .inl rfl, rfl⟩

theorem exec_barAddress_empty (hk : index.toNat < s.params.barSlots) (h : s.slotAt index.toNat = .empty) :
    ∃ e, InvalidStatus e ∧ exec (.barAddress index) s = .next (s.respond { status := e }) := by
  suffices hraise : ∃ c, InvalidStatus (causeStatus c) ∧ execBarAddress index s = raise c s by
    obtain ⟨c, hc, hrun⟩ := hraise
    exact ⟨causeStatus c, hc, hrun.trans (raise_eq_of_causeStatus s (.inr hc))⟩
  unfold execBarAddress
  split
  · exact ⟨.barInvalid, .inl rfl, barAddressReference_empty hk h⟩
  · exact barAddressDevice_empty hk h

theorem exec_addRomBar_held (r : Region) (e : Bool) (h : s.rom ≠ .empty) :
    exec (.addRomBar r e) s = raise .romBarInUse s := by
  cases hrom : s.rom with
  | empty => exact absurd hrom h
  | rom q f =>
    show execAddRomBar r e s = _
    unfold execAddRomBar
    split
    · exact addRomBarReference_held r e hrom
    · unfold addRomBarDevice
      rw [hrom]

/-- An ADD_BAR that answers OK has placed its BAR where there was room for it. -/
theorem exec_addBar_ok {r : Region} {p : Bool} {t : State} (h : exec (.addBar index r p) s = .next t)
    (hok : t.resp.map Response.status = some .ok) :
    s.Accepts index.toNat r ∧ t = (s.place index.toNat r p).respond okResponse := by
  rcases addBar_cases index r p s with ⟨c, hraise⟩ | ⟨haccepts, hplace⟩
  · obtain rfl := Host.Outcome.next.inj (hraise.symm.trans h)
    exact absurd hok (raise_status_ne_ok c s)
  · exact ⟨haccepts, (Host.Outcome.next.inj (hplace.symm.trans h)).symm⟩

theorem barSlots_le_six (p : Params) : p.barSlots ≤ 6 := by
  unfold Params.barSlots
  cases p.hdrKind <;> decide

theorem index_succ_toNat {n : Nat} (hn : n ≤ 6) (h : index.toNat + 1 < n) :
    (index + 1#32).toNat = index.toNat + 1 := by
  rw [BitVec.toNat_add, BitVec.toNat_ofNat]
  omega

/-- R190 item 6: a 64-bit BAR is followed by the slot it consumes, which no later ADD_BAR takes. -/
theorem exec_addBar_consumes_next {r : Region} {p : Bool} {t : State} (hlen : s.slots.length = s.params.barSlots)
    (h64 : isMemory64 r = true) (h : exec (.addBar index r p) s = .next t)
    (hok : t.resp.map Response.status = some .ok) :
    index.toNat + 1 < s.params.barSlots ∧ t.slotAt index.toNat = .bar r p ∧
    t.slotAt (index.toNat + 1) = .upper64 index.toNat ∧
    ∀ q f, ∃ e, InUseStatus e ∧ exec (.addBar (index + 1#32) q f) t = .next (t.respond { status := e }) := by
  obtain ⟨⟨hk, -, hnext⟩, rfl⟩ := exec_addBar_ok h hok
  obtain ⟨hk1, -⟩ := hnext h64
  have hafter := slotAt_place_inside r p (hlen ▸ hk) fun _ => hlen ▸ hk1
  have hupper : (s.place index.toNat r p).slotAt (index.toNat + 1) = .upper64 index.toNat := by
    rw [hafter, if_neg (by omega), if_pos ⟨h64, rfl⟩]
  have hsucc := index_succ_toNat (barSlots_le_six s.params) hk1
  refine ⟨hk1, by rw [respond_slotAt, hafter, if_pos rfl], hupper, fun q f => exec_addBar_held q f ?_ ?_⟩
  · rw [hsucc, respond_params, place_params]
    exact hk1
  · rw [hsucc, respond_slotAt, hupper]
    exact nofun

end

/-- Settles O46: clause by clause, each the same under the reference and a device's own bookkeeping. -/
theorem everyImplementationMeetsTheContract : Obligations.EveryImplementationMeetsTheContract := by
  intro s index r p hlen n
  have hn : n = s.params.barSlots := rfl
  rw [hn]
  exact ⟨fun hout => ⟨exec_addBar_outside r p hout, exec_barAddress_outside hout⟩, exec_addBar_held r p,
    exec_barAddress_empty, fun t => exec_addBar_consumes_next hlen, romBarAddress_empty, exec_addRomBar_held r p⟩

end Sys2Proof.Machine
end

section
/-! SUPPORT. Instructions as written (30_encoding.md R69, R76, R77): the operands of an instruction are what stands on
the ports written for it. -/

namespace Sys2Proof.Machine

/-- Settles O10: row by row. -/
theorem knownOpsDecode : Obligations.KnownOpsDecode := ⟨rfl, rfl, rfl, rfl, rfl, rfl, rfl⟩

/-- What stands on one port, as written. -/
def writtenOperand (c : Command) : Port → AsmOperand
  | .offset => .number c.offset.toNat
  | .data => .number c.data.toNat
  | .addr => .number c.addr.toNat
  | .len => .number c.len.toNat
  | .rA => .region c.rA.kind c.rA.addr.toNat c.rA.len.toNat
  | .rB => .region c.rB.kind c.rB.addr.toNat c.rB.len.toNat
  | .index => .number c.index.toNat
  | .flag => .number c.flag.toNat

/-- `d` with one port as it stands in `c`. -/
def copyPort (c d : Command) : Port → Command
  | .offset => { d with offset := c.offset }
  | .data => { d with data := c.data }
  | .addr => { d with addr := c.addr }
  | .len => { d with len := c.len }
  | .rA => { d with rA := c.rA }
  | .rB => { d with rB := c.rB }
  | .index => { d with index := c.index }
  | .flag => { d with flag := c.flag }

theorem setPort_writtenOperand (c d : Command) (p : Port) :
    setPort d p (writtenOperand c p) = some (copyPort c d p) := by
  cases p with
  | offset | data | addr | len | index => simp [setPort, writtenOperand, copyPort, portValue_toNat]
  | rA | rB => simp [setPort, writtenOperand, copyPort, portRegion_toNat]
  | flag => cases hf : c.flag <;> simp [setPort, writtenOperand, copyPort, hf]

theorem setPorts_writtenOperand (c : Command) (ps : List Port) (d : Command) :
    setPorts d ps (ps.map (writtenOperand c)) = some (ps.foldl (copyPort c) d) := by
  induction ps generalizing d with
  | nil => rfl
  | cons p ps ih => simp [setPorts, setPort_writtenOperand, ih]

/-- R76: the written ports of a command are all that its encoding puts an operand on. -/
theorem foldl_copyPort_encode (i : Instr) :
    (writtenPorts i.opcode).foldl (copyPort (encode i)) (Command.bare i.opcode) = encode i := by
  cases i <;> rfl

/-- Settles O60: the operands are what the encoding puts on the written ports. -/
theorem writtenCommandsAssemble : Obligations.WrittenCommandsAssemble := by
  intro i _
  refine ⟨(writtenPorts i.opcode).map (writtenOperand (encode i)), List.length_map _, ?_⟩
  rw [assembleParts_mnemonic, setPorts_writtenOperand, foldl_copyPort_encode]

theorem pseudo_expands {name : List Char} {o : Opcode} {offset : Nat} (hn : namedOpcode name = none)
    (hp : pseudoWrite name = some (o, offset)) (v : AsmOperand) :
    assembleParts name [v] = assembleParts (mnemonic o).toList [.number offset, v] := by
  rw [assembleParts_pseudo hn hp, assembleParts_mnemonic]

/-- Settles O59: no row's name is a mnemonic, and each is in the table of pseudo-instructions. -/
theorem pseudoWritesExpand : Obligations.PseudoWritesExpand := by
  intro v
  simp only [List.forall_mem_cons]
  exact ⟨pseudo_expands (o := .writeWord) (by decide) (by decide) v,
    pseudo_expands (o := .writeWord) (by decide) (by decide) v,
    pseudo_expands (o := .writeWord) (by decide) (by decide) v,
    pseudo_expands (o := .writeWord) (by decide) (by decide) v,
    pseudo_expands (o := .writeByte) (by decide) (by decide) v,
    pseudo_expands (o := .writeByte) (by decide) (by decide) v,
    pseudo_expands (o := .writeByte) (by decide) (by decide) v,
    pseudo_expands (o := .writeByte) (by decide) (by decide) v,
    pseudo_expands (o := .writeByte) (by decide) (by decide) v,
    pseudo_expands (o := .writeByte) (by decide) (by decide) v,
    pseudo_expands (o := .writeByte) (by decide) (by decide) v,
    pseudo_expands (o := .writeByte) (by decide) (by decide) v, by simp⟩

end Sys2Proof.Machine
end
